-- ==== Sys2Proof/Word.lean ====
section
/-! DEFINITION. The words of the DRS engine: element kinds, components, ports and doubled values
(00_scope.md R6, R14, R15, R16; 10_state.md R21). -/

namespace Sys2Proof

/-- The two element kinds of R6: IEEE 754 binary32 and binary64. -/
inductive Kind where
  | f32
  | f64
  deriving DecidableEq, Repr

/-- `W`, the width of a component in bits (R6). -/
@[reducible] def Kind.width : Kind → Nat
  | .f32 => 32
  | .f64 => 64

/-- A component of kind `k`: one IEEE 754 interchange encoding, bit `W-1` the sign (R14). A lane mask
of the classification commands is a word of the same width. -/
abbrev Word (k : Kind) := BitVec k.width

/-- `VLEN`, the width of every operand and result port (R10, R21). -/
@[reducible] def vlen : Nat := 512

/-- The contents of one port (R21, R22). -/
abbrev Port := BitVec vlen

/-- A doubled value: an ordered pair of components of one kind (R15). Nothing relates the two: the
invariant of R19 is the caller's (R305). -/
structure Doubled (k : Kind) where
  hi : Word k
  lo : Word k
  deriving DecidableEq, Repr

end Sys2Proof
end

