-- ==== Sys2Proof/Syntax.lean ====
section
/-! DEFINITION. The command set as syntax: one constructor per row of the opcode map of 30_encoding.md R65,
each carrying the shape (element kind and lane count) that its `ek` and `lw` fields select (R62, R63). -/

namespace Sys2Proof

/-- The lane counts of R63: `L` in 1, 2, 4, 8, 16. -/
inductive Lanes where
  | x1
  | x2
  | x4
  | x8
  | x16
  deriving DecidableEq, Repr

/-- `L` (R63). -/
def Lanes.count : Lanes → Nat
  | .x1 => 1
  | .x2 => 2
  | .x4 => 4
  | .x8 => 8
  | .x16 => 16

/-- The element kind and lane count of a command (R62, R63). Sixteen lanes of `f64` can be written as a
term; WellFormed.lean refuses it. -/
structure Shape where
  kind : Kind
  lanes : Lanes
  deriving DecidableEq, Repr

/-- The 33 commands of R65. The operand format and the result class (R64) stand beside each. -/
inductive Instr where
  /-- `UPPER`, opc `0x01`, format U (plain A.hi), result p: R120. -/
  | upper (sh : Shape)
  /-- `WIDEN`, opc `0x02`, format U (plain A.hi), result d: R160. -/
  | widen (sh : Shape)
  /-- `NARROW`, opc `0x03`, format D (doubled A), result p: R161. -/
  | narrow (sh : Shape)
  /-- `PACK`, opc `0x04`, format SS (plain A.hi, plain B.hi), result d: R162. -/
  | pack (sh : Shape)
  /-- `NEG`, opc `0x05`, format D (doubled A), result d: R163. -/
  | neg (sh : Shape)
  /-- `ABS`, opc `0x06`, format D (doubled A), result d: R164. -/
  | abs (sh : Shape)
  /-- `NORM`, opc `0x07`, format D (doubled A), result d: R165. -/
  | norm (sh : Shape)
  /-- `SCALE`, opc `0x08`, format DS (doubled A, plain B.hi), result d: R166. -/
  | scale (sh : Shape)
  /-- `ISINF`, opc `0x09`, format U (plain A.hi), result m: R240. -/
  | isinf (sh : Shape)
  /-- `ISNAN`, opc `0x0A`, format U (plain A.hi), result m: R241. -/
  | isnan (sh : Shape)
  /-- `ISNFIN`, opc `0x0B`, format U (plain A.hi), result m: R242. -/
  | isnfin (sh : Shape)
  /-- `ADD.SS`, opc `0x10`, format SS (plain A.hi, plain B.hi), result d: R140. -/
  | addSS (sh : Shape)
  /-- `ADD.DS`, opc `0x11`, format DS (doubled A, plain B.hi), result d: R170. -/
  | addDS (sh : Shape)
  /-- `ADD.SD`, opc `0x12`, format SD (plain A.hi, doubled B), result d: R171. -/
  | addSD (sh : Shape)
  /-- `ADD.DD`, opc `0x13`, format DD (doubled A, doubled B), result d: R172. -/
  | addDD (sh : Shape)
  /-- `SUB.DS`, opc `0x15`, format DS (doubled A, plain B.hi), result d: R173. -/
  | subDS (sh : Shape)
  /-- `SUB.DD`, opc `0x17`, format DD (doubled A, doubled B), result d: R174. -/
  | subDD (sh : Shape)
  /-- `ADDC.SS`, opc `0x18`, format SS (plain A.hi, plain B.hi), result d: R226. -/
  | addcSS (sh : Shape)
  /-- `ADDC.DS`, opc `0x19`, format DS (doubled A, plain B.hi), result d: R227. -/
  | addcDS (sh : Shape)
  /-- `ADDC.SD`, opc `0x1A`, format SD (plain A.hi, doubled B), result d: R228. -/
  | addcSD (sh : Shape)
  /-- `ADDC.DD`, opc `0x1B`, format DD (doubled A, doubled B), result d: R229. -/
  | addcDD (sh : Shape)
  /-- `SUBC.DS`, opc `0x1D`, format DS (doubled A, plain B.hi), result d: R230. -/
  | subcDS (sh : Shape)
  /-- `SUBC.DD`, opc `0x1F`, format DD (doubled A, doubled B), result d: R231. -/
  | subcDD (sh : Shape)
  /-- `MUL.SS`, opc `0x20`, format SS (plain A.hi, plain B.hi), result d: R141. -/
  | mulSS (sh : Shape)
  /-- `MUL.DS`, opc `0x21`, format DS (doubled A, plain B.hi), result d: R190. -/
  | mulDS (sh : Shape)
  /-- `MUL.DD`, opc `0x23`, format DD (doubled A, doubled B), result d: R191. -/
  | mulDD (sh : Shape)
  /-- `MULF.DD`, opc `0x27`, format DD (doubled A, doubled B), result p: R192. -/
  | mulfDD (sh : Shape)
  /-- `SQU.D`, opc `0x28`, format D (doubled A), result d: R193. -/
  | squD (sh : Shape)
  /-- `SQUF.D`, opc `0x29`, format D (doubled A), result p: R194. -/
  | squfD (sh : Shape)
  /-- `RECIP.S`, opc `0x2C`, format U (plain A.hi), result d: R142. -/
  | recipS (sh : Shape)
  /-- `RECIP.D`, opc `0x2D`, format D (doubled A), result d: R195. -/
  | recipD (sh : Shape)
  /-- `DIV.DD`, opc `0x2F`, format DD (doubled A, doubled B), result d: R196. -/
  | divDD (sh : Shape)
  /-- `SQRT.D`, opc `0x31`, format D (doubled A), result d: R197. -/
  | sqrtD (sh : Shape)
  deriving DecidableEq, Repr

/-- The shape a command carries. -/
def Instr.shape : Instr → Shape
  | .upper sh => sh
  | .widen sh => sh
  | .narrow sh => sh
  | .pack sh => sh
  | .neg sh => sh
  | .abs sh => sh
  | .norm sh => sh
  | .scale sh => sh
  | .isinf sh => sh
  | .isnan sh => sh
  | .isnfin sh => sh
  | .addSS sh => sh
  | .addDS sh => sh
  | .addSD sh => sh
  | .addDD sh => sh
  | .subDS sh => sh
  | .subDD sh => sh
  | .addcSS sh => sh
  | .addcDS sh => sh
  | .addcSD sh => sh
  | .addcDD sh => sh
  | .subcDS sh => sh
  | .subcDD sh => sh
  | .mulSS sh => sh
  | .mulDS sh => sh
  | .mulDD sh => sh
  | .mulfDD sh => sh
  | .squD sh => sh
  | .squfD sh => sh
  | .recipS sh => sh
  | .recipD sh => sh
  | .divDD sh => sh
  | .sqrtD sh => sh

/-- The mnemonic of R65, as the opcode table spells it. -/
def Instr.mnemonic : Instr → String
  | .upper _ => "UPPER"
  | .widen _ => "WIDEN"
  | .narrow _ => "NARROW"
  | .pack _ => "PACK"
  | .neg _ => "NEG"
  | .abs _ => "ABS"
  | .norm _ => "NORM"
  | .scale _ => "SCALE"
  | .isinf _ => "ISINF"
  | .isnan _ => "ISNAN"
  | .isnfin _ => "ISNFIN"
  | .addSS _ => "ADD.SS"
  | .addDS _ => "ADD.DS"
  | .addSD _ => "ADD.SD"
  | .addDD _ => "ADD.DD"
  | .subDS _ => "SUB.DS"
  | .subDD _ => "SUB.DD"
  | .addcSS _ => "ADDC.SS"
  | .addcDS _ => "ADDC.DS"
  | .addcSD _ => "ADDC.SD"
  | .addcDD _ => "ADDC.DD"
  | .subcDS _ => "SUBC.DS"
  | .subcDD _ => "SUBC.DD"
  | .mulSS _ => "MUL.SS"
  | .mulDS _ => "MUL.DS"
  | .mulDD _ => "MUL.DD"
  | .mulfDD _ => "MULF.DD"
  | .squD _ => "SQU.D"
  | .squfD _ => "SQUF.D"
  | .recipS _ => "RECIP.S"
  | .recipD _ => "RECIP.D"
  | .divDD _ => "DIV.DD"
  | .sqrtD _ => "SQRT.D"

/-- The `<kind>[x<L>]` part of the assembler spelling of R69: `x<L>` is left out for one lane. -/
def Shape.spelling (sh : Shape) : String :=
  (match sh.kind with | .f32 => "f32" | .f64 => "f64") ++
  (match sh.lanes with | .x1 => "" | .x2 => "x2" | .x4 => "x4" | .x8 => "x8" | .x16 => "x16")

/-- `<MNEMONIC>.<kind>[x<L>]` (R69). Operands and destination are host value names and have no encoding. -/
def Instr.spelling (i : Instr) : String := i.mnemonic ++ "." ++ i.shape.spelling

/-- The operand formats of R64. -/
inductive Format where
  | u
  | d
  | ss
  | ds
  | sd
  | dd
  deriving DecidableEq, Repr

/-- The result classes of R64: doubled, plain, lane mask. -/
inductive ResultClass where
  | doubled
  | plain
  | mask
  deriving DecidableEq, Repr

/-- The operand format of each command (R65, third column). -/
def Instr.format : Instr → Format
  | .upper _ => .u
  | .widen _ => .u
  | .narrow _ => .d
  | .pack _ => .ss
  | .neg _ => .d
  | .abs _ => .d
  | .norm _ => .d
  | .scale _ => .ds
  | .isinf _ => .u
  | .isnan _ => .u
  | .isnfin _ => .u
  | .addSS _ => .ss
  | .addDS _ => .ds
  | .addSD _ => .sd
  | .addDD _ => .dd
  | .subDS _ => .ds
  | .subDD _ => .dd
  | .addcSS _ => .ss
  | .addcDS _ => .ds
  | .addcSD _ => .sd
  | .addcDD _ => .dd
  | .subcDS _ => .ds
  | .subcDD _ => .dd
  | .mulSS _ => .ss
  | .mulDS _ => .ds
  | .mulDD _ => .dd
  | .mulfDD _ => .dd
  | .squD _ => .d
  | .squfD _ => .d
  | .recipS _ => .u
  | .recipD _ => .d
  | .divDD _ => .dd
  | .sqrtD _ => .d

/-- The result class of each command (R65, fourth column). -/
def Instr.resultClass : Instr → ResultClass
  | .upper _ => .plain
  | .widen _ => .doubled
  | .narrow _ => .plain
  | .pack _ => .doubled
  | .neg _ => .doubled
  | .abs _ => .doubled
  | .norm _ => .doubled
  | .scale _ => .doubled
  | .isinf _ => .mask
  | .isnan _ => .mask
  | .isnfin _ => .mask
  | .addSS _ => .doubled
  | .addDS _ => .doubled
  | .addSD _ => .doubled
  | .addDD _ => .doubled
  | .subDS _ => .doubled
  | .subDD _ => .doubled
  | .addcSS _ => .doubled
  | .addcDS _ => .doubled
  | .addcSD _ => .doubled
  | .addcDD _ => .doubled
  | .subcDS _ => .doubled
  | .subcDD _ => .doubled
  | .mulSS _ => .doubled
  | .mulDS _ => .doubled
  | .mulDD _ => .doubled
  | .mulfDD _ => .plain
  | .squD _ => .doubled
  | .squfD _ => .plain
  | .recipS _ => .doubled
  | .recipD _ => .doubled
  | .divDD _ => .doubled
  | .sqrtD _ => .doubled

/-- The six checked commands (R220, R272). -/
def Instr.isChecked : Instr → Bool
  | .upper _ => false
  | .widen _ => false
  | .narrow _ => false
  | .pack _ => false
  | .neg _ => false
  | .abs _ => false
  | .norm _ => false
  | .scale _ => false
  | .isinf _ => false
  | .isnan _ => false
  | .isnfin _ => false
  | .addSS _ => false
  | .addDS _ => false
  | .addSD _ => false
  | .addDD _ => false
  | .subDS _ => false
  | .subDD _ => false
  | .addcSS _ => true
  | .addcDS _ => true
  | .addcSD _ => true
  | .addcDD _ => true
  | .subcDS _ => true
  | .subcDD _ => true
  | .mulSS _ => false
  | .mulDS _ => false
  | .mulDD _ => false
  | .mulfDD _ => false
  | .squD _ => false
  | .squfD _ => false
  | .recipS _ => false
  | .recipD _ => false
  | .divDD _ => false
  | .sqrtD _ => false

/-- The ten commands whose rule has a split path and an FMA path (R255). -/
def Instr.usesFma : Instr → Bool
  | .upper _ => false
  | .widen _ => false
  | .narrow _ => false
  | .pack _ => false
  | .neg _ => false
  | .abs _ => false
  | .norm _ => false
  | .scale _ => false
  | .isinf _ => false
  | .isnan _ => false
  | .isnfin _ => false
  | .addSS _ => false
  | .addDS _ => false
  | .addSD _ => false
  | .addDD _ => false
  | .subDS _ => false
  | .subDD _ => false
  | .addcSS _ => false
  | .addcDS _ => false
  | .addcSD _ => false
  | .addcDD _ => false
  | .subcDS _ => false
  | .subcDD _ => false
  | .mulSS _ => true
  | .mulDS _ => true
  | .mulDD _ => true
  | .mulfDD _ => true
  | .squD _ => true
  | .squfD _ => true
  | .recipS _ => true
  | .recipD _ => true
  | .divDD _ => true
  | .sqrtD _ => true

end Sys2Proof
end

