-- ==== Sys2Proof/WellFormed.lean ====
section
/-! DEFINITION. Which command terms stand for a command: the legal shapes of 30_encoding.md R63 and
46_lanes_and_fma.md R252. -/

namespace Sys2Proof

/-- `f32` with every lane count, `f64` with every one but sixteen (R63, R67 (d), R252). -/
def Shape.legal (sh : Shape) : Bool :=
  match sh.kind, sh.lanes with
  | .f64, .x16 => false
  | _, _ => true

/-- A command term that a command word encodes: its shape is legal. -/
def Instr.wellFormed (i : Instr) : Bool := i.shape.legal

end Sys2Proof
end

