-- ==== Sys2Proof/Decode.lean ====
section
/-! DEFINITION. The decoder of 30_encoding.md R60 to R68, total on every 16-bit word and refusing by name, and
after it the encoder. The engine never sees bytes (20_memory.md R41): the command word is one 16-bit value. -/

namespace Sys2Proof

/-! ## Fields (R60, R61) -/

/-- `opc = cw[5:0]`. -/
def opcField (cw : BitVec 16) : BitVec 6 := cw.extractLsb' 0 6

/-- `ek = cw[6]`. -/
def ekField (cw : BitVec 16) : BitVec 1 := cw.extractLsb' 6 1

/-- `lw = cw[9:7]`. -/
def lwField (cw : BitVec 16) : BitVec 3 := cw.extractLsb' 7 3

/-- `rsv = cw[15:10]`. -/
def rsvField (cw : BitVec 16) : BitVec 6 := cw.extractLsb' 10 6

/-! ## The decoder -/

/-- Why a command word is illegal: the four cases of R67. -/
inductive Illegal where
  /-- (a) `rsv != 0`. -/
  | reservedBits
  /-- (b) `opc` is none of the 33 assigned values. -/
  | unassignedOpcode
  /-- (c) `lw` is 5, 6 or 7. -/
  | reservedLaneCode
  /-- (d) `ek = 1` and `lw = 4`: sixteen lanes of `f64`. -/
  | f64SixteenLanes
  deriving DecidableEq, Repr

/-- What `decode` answers (R68). -/
inductive Decoded where
  | legal (i : Instr)
  | illegal (why : Illegal)
  deriving DecidableEq, Repr

/-- The operation of an `opc` value (R65); every other value is unassigned. -/
def decodeOpc (opc : BitVec 6) : Option (Shape → Instr) :=
  match opc.toNat with
  | 0x01 => some .upper
  | 0x02 => some .widen
  | 0x03 => some .narrow
  | 0x04 => some .pack
  | 0x05 => some .neg
  | 0x06 => some .abs
  | 0x07 => some .norm
  | 0x08 => some .scale
  | 0x09 => some .isinf
  | 0x0A => some .isnan
  | 0x0B => some .isnfin
  | 0x10 => some .addSS
  | 0x11 => some .addDS
  | 0x12 => some .addSD
  | 0x13 => some .addDD
  | 0x15 => some .subDS
  | 0x17 => some .subDD
  | 0x18 => some .addcSS
  | 0x19 => some .addcDS
  | 0x1A => some .addcSD
  | 0x1B => some .addcDD
  | 0x1D => some .subcDS
  | 0x1F => some .subcDD
  | 0x20 => some .mulSS
  | 0x21 => some .mulDS
  | 0x23 => some .mulDD
  | 0x27 => some .mulfDD
  | 0x28 => some .squD
  | 0x29 => some .squfD
  | 0x2C => some .recipS
  | 0x2D => some .recipD
  | 0x2F => some .divDD
  | 0x31 => some .sqrtD
  | _ => none

/-- The element kind of `ek` (R62). -/
def decodeKind (ek : BitVec 1) : Kind := if ek = 1#1 then .f64 else .f32

/-- The lane count of `lw` (R63); 5, 6 and 7 are reserved. -/
def decodeLanes (lw : BitVec 3) : Option Lanes :=
  match lw.toNat with
  | 0 => some .x1
  | 1 => some .x2
  | 2 => some .x4
  | 3 => some .x8
  | 4 => some .x16
  | _ => none

/-- `decode(cw)` (R68), testing the cases of R67 in the order it lists them. -/
def decode (cw : BitVec 16) : Decoded :=
  if rsvField cw ≠ 0#6 then .illegal .reservedBits
  else match decodeOpc (opcField cw) with
    | none => .illegal .unassignedOpcode
    | some op =>
      match decodeLanes (lwField cw) with
      | none => .illegal .reservedLaneCode
      | some lanes =>
        let sh : Shape := ⟨decodeKind (ekField cw), lanes⟩
        if sh.legal then .legal (op sh) else .illegal .f64SixteenLanes

/-- The host's question: what the decoder reads from the `nbits` bits `w` of an opcode-table row. Every row
has 16 bits, one word; bits above `nbits` are 0. -/
def decodeTableWord (nbits w : Nat) : Option Instr :=
  match decode (BitVec.ofNat 16 (w % 2 ^ nbits)) with
  | .legal i => some i
  | .illegal _ => none

/-! ## The encoder -/

/-- The `opc` value of each command (R65). -/
def opcodeOf : Instr → BitVec 6
  | .upper _ => 0x01#6
  | .widen _ => 0x02#6
  | .narrow _ => 0x03#6
  | .pack _ => 0x04#6
  | .neg _ => 0x05#6
  | .abs _ => 0x06#6
  | .norm _ => 0x07#6
  | .scale _ => 0x08#6
  | .isinf _ => 0x09#6
  | .isnan _ => 0x0A#6
  | .isnfin _ => 0x0B#6
  | .addSS _ => 0x10#6
  | .addDS _ => 0x11#6
  | .addSD _ => 0x12#6
  | .addDD _ => 0x13#6
  | .subDS _ => 0x15#6
  | .subDD _ => 0x17#6
  | .addcSS _ => 0x18#6
  | .addcDS _ => 0x19#6
  | .addcSD _ => 0x1A#6
  | .addcDD _ => 0x1B#6
  | .subcDS _ => 0x1D#6
  | .subcDD _ => 0x1F#6
  | .mulSS _ => 0x20#6
  | .mulDS _ => 0x21#6
  | .mulDD _ => 0x23#6
  | .mulfDD _ => 0x27#6
  | .squD _ => 0x28#6
  | .squfD _ => 0x29#6
  | .recipS _ => 0x2C#6
  | .recipD _ => 0x2D#6
  | .divDD _ => 0x2F#6
  | .sqrtD _ => 0x31#6

/-- The `ek` value of a kind (R62). -/
def encodeKind : Kind → BitVec 1
  | .f32 => 0#1
  | .f64 => 1#1

/-- The `lw` value of a lane count (R63). -/
def encodeLanes : Lanes → BitVec 3
  | .x1 => 0#3
  | .x2 => 1#3
  | .x4 => 2#3
  | .x8 => 3#3
  | .x16 => 4#3

/-- The command word of a command: `rsv = 0`, then `lw`, `ek`, `opc` (R60). -/
def encode (i : Instr) : BitVec 16 :=
  0#6 ++ encodeLanes i.shape.lanes ++ encodeKind i.shape.kind ++ opcodeOf i

end Sys2Proof
end

