-- ==== Sys2Proof/Machine/Float.lean ====
section
/-! DEFINITION. Formats and primitive operators: 40_primitives_and_split.md R100 to R110. Every rounded
operator computes its exact result in ℚ and rounds once. -/

namespace Sys2Proof.Machine

/-! ## Formats (R100) -/

/-- `p`, the precision. -/
def prec : Kind → Nat
  | .f32 => 24
  | .f64 => 53

/-- The width of the biased exponent field. -/
def expBits : Kind → Nat
  | .f32 => 8
  | .f64 => 11

/-- The exponent bias. -/
def bias : Kind → Int
  | .f32 => 127
  | .f64 => 1023

/-- The least exponent of a normal number. -/
def emin : Kind → Int
  | .f32 => -126
  | .f64 => -1022

/-- The greatest exponent of a finite number. -/
def emax : Kind → Int
  | .f32 => 127
  | .f64 => 1023

/-- The all-ones biased exponent, of infinities and NaNs. -/
def expOnes (k : Kind) : Nat := 2 ^ expBits k - 1

/-- The word with sign `neg`, biased exponent `e` and trailing significand `t`. -/
def ofFields (k : Kind) (neg : Bool) (e t : Nat) : Word k :=
  BitVec.ofNat k.width ((if neg then 2 ^ (k.width - 1) else 0) + e * 2 ^ (prec k - 1) + t)

/-- `INF_F` with a sign (R100). -/
def infinity (k : Kind) (neg : Bool) : Word k := ofFields k neg (expOnes k) 0

/-- The zero of a sign (R100); `PZERO_F` of R14 is `zero k false`. -/
def zero (k : Kind) (neg : Bool) : Word k := ofFields k neg 0 0

/-- `SIGN_F` (R100). -/
def signMask (k : Kind) : Word k := BitVec.ofNat k.width (2 ^ (k.width - 1))

/-- `QNAN_F` (R103). -/
def qnan : (k : Kind) → Word k
  | .f32 => 0x7FC00000#32
  | .f64 => 0x7FF8000000000000#64

/-- `ONE_F` (R14). -/
def one : (k : Kind) → Word k
  | .f32 => 0x3F800000#32
  | .f64 => 0x3FF0000000000000#64

/-- `HALF_F` (R14). -/
def half : (k : Kind) → Word k
  | .f32 => 0x3F000000#32
  | .f64 => 0x3FE0000000000000#64

variable {k : Kind}

/-- The sign, bit `W-1`. -/
def signBit (c : Word k) : Bool := c.msb

/-- `E`, the biased exponent field. -/
def biasedExp (c : Word k) : Nat := (c.extractLsb' (prec k - 1) (expBits k)).toNat

/-- `T`, the trailing significand field. -/
def trailing (c : Word k) : Nat := (c.extractLsb' 0 (prec k - 1)).toNat

/-! ## Classes and values (R100, R101) -/

/-- A zero: `E = 0, T = 0`. -/
def isZero (c : Word k) : Bool := biasedExp c == 0 && trailing c == 0

/-- A finite word: zero, subnormal or normal. -/
def isFinite (c : Word k) : Bool := biasedExp c != expOnes k

/-- An infinity: `E` all ones, `T = 0`. -/
def isInfinity (c : Word k) : Bool := biasedExp c == expOnes k && trailing c == 0

/-- A NaN: `E` all ones, `T != 0`. -/
def isNan (c : Word k) : Bool := biasedExp c == expOnes k && trailing c != 0

/-- The integer significand of a finite word: `T`, or `2^(p-1) + T` when `E > 0` (R101). -/
def significand (c : Word k) : Nat :=
  if biasedExp c = 0 then trailing c else 2 ^ (prec k - 1) + trailing c

/-- The exponent of the unit in the last place of a finite word (R101). -/
def unitExp (c : Word k) : Int :=
  if biasedExp c = 0 then emin k - ((prec k : Int) - 1)
  else (biasedExp c : Int) - bias k - ((prec k : Int) - 1)

/-- `value(c)` of a finite word (R101), an exact rational; of no meaning for infinities and NaNs, for which no
rule uses it. -/
def value (c : Word k) : ℚ :=
  (if signBit c then -1 else 1) * (significand c : ℚ) * (2 : ℚ) ^ unitExp c

/-! ## Rounding (R102) -/

/-- `floor(log2 m)` of a positive rational: the difference of the bit lengths, or one less. -/
def floorLog2 (m : ℚ) : Int :=
  let c : Int := (m.num.natAbs.log2 : Int) - (m.den.log2 : Int)
  if (2 : ℚ) ^ c ≤ m then c else c - 1

/-- The nearest integer to a nonnegative rational, ties to even: `n = floor x`, incremented when `rem > 1/2`, or
when `rem = 1/2` and `n` is odd. -/
def roundEven (x : ℚ) : Nat :=
  let n := x.floor.toNat
  let rem := x - (n : ℚ)
  if rem > 1 / 2 ∨ (rem = 1 / 2 ∧ n % 2 = 1) then n + 1 else n

/-- `g`, the exponent of the unit in the last place at magnitude `m`, with gradual underflow. -/
def ulpExp (k : Kind) (m : ℚ) : Int := max (floorLog2 m) (emin k) - ((prec k : Int) - 1)

/-- The word of sign `neg` and magnitude `n * 2^g`, where `n ≤ 2^p` and, when `n ≥ 2^(p-1)`, `g` is the unit
exponent: infinity from `2^(emax+1)` on, subnormal or zero below `2^(p-1)`, else normal, `n = 2^p` first
renormalised to `2^(p-1)` with `g + 1`. -/
def encodeMagnitude (k : Kind) (neg : Bool) (n : Nat) (g : Int) : Word k :=
  if (n : ℚ) * (2 : ℚ) ^ g ≥ (2 : ℚ) ^ (emax k + 1) then infinity k neg
  else if n < 2 ^ (prec k - 1) then ofFields k neg 0 n
  else if n = 2 ^ prec k then ofFields k neg (g + 1 + ((prec k : Int) - 1) + bias k).toNat 0
  else ofFields k neg (g + ((prec k : Int) - 1) + bias k).toNat (n - 2 ^ (prec k - 1))

/-- `rn_F(q)` of a nonzero rational: roundTiesToEven with gradual underflow and overflow to infinity (R102). -/
def rn (k : Kind) (q : ℚ) : Word k :=
  let m := |q|
  let g := ulpExp k m
  encodeMagnitude k (decide (q < 0)) (roundEven (m / (2 : ℚ) ^ g)) g

/-! ## Bit operators (R110) -/

/-- `fneg_F(a) = a ^ SIGN_F` (R110). -/
def fneg (a : Word k) : Word k := a ^^^ signMask k

/-- `fabs_F(a) = a & ~SIGN_F` (R110). -/
def fabs (a : Word k) : Word k := a &&& ~~~(signMask k)

/-! ## Rounded operators (R103 to R109) -/

/-- `fadd_F(a, b)` (R104). -/
def fadd (a b : Word k) : Word k :=
  if isNan a || isNan b then qnan k
  else if isInfinity a then
    if isInfinity b && signBit a != signBit b then qnan k else a
  else if isInfinity b then b
  else
    let q := value a + value b
    if q ≠ 0 then rn k q
    else if isZero a && isZero b && signBit a == signBit b then a
    else zero k false

/-- `fsub_F(a, b)` (R105). -/
def fsub (a b : Word k) : Word k :=
  if isNan a || isNan b then qnan k else fadd a (fneg b)

/-- `fmul_F(a, b)` (R106). -/
def fmul (a b : Word k) : Word k :=
  if isNan a || isNan b then qnan k
  else
    let s := signBit a ^^ signBit b
    if isInfinity a || isInfinity b then
      if isZero a || isZero b then qnan k else infinity k s
    else
      let q := value a * value b
      if q = 0 then zero k s else rn k q

/-- `fdiv_F(a, b)` (R107). Division by zero is no fault. -/
def fdiv (a b : Word k) : Word k :=
  if isNan a || isNan b then qnan k
  else
    let s := signBit a ^^ signBit b
    if isInfinity a then
      if isInfinity b then qnan k else infinity k s
    else if isInfinity b then zero k s
    else if isZero b then
      if isZero a then qnan k else infinity k s
    else if isZero a then zero k s
    else rn k (value a / value b)

/-- The integer square root of `n < 4^bits`, one bit a step from the top: the greatest `r` with `r * r ≤ n`. -/
def isqrtFrom : (bits n r : Nat) → Nat
  | 0, _, r => r
  | b + 1, n, r =>
    let r' := r + 2 ^ b
    isqrtFrom b n (if r' * r' ≤ n then r' else r)

/-- A rational that `rn` rounds as it would round `sqrt(m * 2^e)`, for a positive integer `m < 2^p`: with `e`
made even, `s = floor(sqrt(m * 4^c))` has more bits than a significand and its rounding bit, and where the root
is not exact the midpoint of `s` and `s + 1` stands for it (a boundary of rounding is never between them).
DEDUCED, log entry 10. -/
def sqrtProxy (k : Kind) (m : Nat) (e : Int) : ℚ :=
  let odd := e % 2 = 1
  let m' := if odd then 2 * m else m
  let e' := if odd then e - 1 else e
  let c := prec k + 2
  let n := m' * 4 ^ c
  let s := isqrtFrom (2 * prec k + 4) n 0
  let x : ℚ := if s * s = n then (s : ℚ) else (s : ℚ) + 1 / 2
  x * (2 : ℚ) ^ (e' / 2 - (c : Int))

/-- `fsqrt_F(a)` (R108): the source's hardware scalar square root. -/
def fsqrt (a : Word k) : Word k :=
  if isNan a then qnan k
  else if isZero a then a
  else if signBit a then qnan k
  else if isInfinity a then a
  else rn k (sqrtProxy k (significand a) (unitExp a))

/-- `fma_F(a, b, c)`: `a * b + c` with one rounding (R109). Only FMA paths use it. -/
def fma (a b c : Word k) : Word k :=
  if isNan a || isNan b || isNan c then qnan k
  else
    let sp := signBit a ^^ signBit b
    if isInfinity a || isInfinity b then
      if isZero a || isZero b || (isInfinity c && signBit c != sp) then qnan k else infinity k sp
    else if isInfinity c then c
    else
      let q := value a * value b + value c
      if q ≠ 0 then rn k q
      else if (isZero a || isZero b) && isZero c && sp == signBit c then c
      else zero k false

end Sys2Proof.Machine
end

