-- ==== Sys2Proof/Machine/Flags.lean ====
section
/-! DEFINITION. Comparisons and predicates. The engine has no condition codes and no exception flags
(10_state.md R29, 40_primitives_and_split.md R112): a predicate's result is data. Here stand the quiet
comparisons of R111, the classifiers of 45_classify.md and the ordering predicate of 44_checked_addition.md R222. -/

namespace Sys2Proof.Machine

variable {k : Kind}

/-- `fle_F(a, b)` (R111): quiet, false on a NaN, `-infinity` below and `+infinity` above every finite value. -/
def fle (a b : Word k) : Bool :=
  !isNan a && !isNan b &&
    (if isInfinity a then signBit a || (isInfinity b && !signBit b)
     else if isInfinity b then !signBit b
     else decide (value a ≤ value b))

/-- `flt_F(a, b)` (R111). -/
def flt (a b : Word k) : Bool := !isNan a && !isNan b && !fle b a

/-- `fge_F(a, b)` (R111). -/
def fge (a b : Word k) : Bool := fle b a

/-- `feq_F(a, b)` (R111): `+0` and `-0` compare equal. -/
def feq (a b : Word k) : Bool := fle a b && fle b a

/-- `isinf_F(a)` (R240): the word without its sign bit is that of `INF_F`. -/
def isinfF (a : Word k) : Bool := fabs a == infinity k false

/-- `isnan_F(a)` (R241): self-inequality. -/
def isnanF (a : Word k) : Bool := !feq a a

/-- `nonfinite_F(a)` (R242). -/
def nonfinite (a : Word k) : Bool := isinfF a || isnanF a

/-- The near-cancellation exemption of R222, for `f64` only: the rounded sum's magnitude is within both
operands' magnitudes. -/
def sumCollapses : (k : Kind) → Word k → Word k → Bool
  | .f32, _, _ => false
  | .f64, a, b =>
    let s := fabs (fadd a b)
    fle s (fabs a) && fle s (fabs b)

/-- `order_ok_F(a, b)` (R222). -/
def orderOk (a b : Word k) : Bool :=
  nonfinite a || nonfinite b || fge (fabs a) (fabs b) || sumCollapses k a b

/-- `ONES_F` when the predicate holds and 0 when it does not: one lane of a mask (45_classify.md). -/
def maskWord (k : Kind) (p : Bool) : Word k := if p then BitVec.allOnes k.width else 0#k.width

end Sys2Proof.Machine
end

