-- ==== Sys2Proof/Config.lean ====
section
/-! DEFINITION. What a build of the engine fixes: the two open parameters of 92_eei_decisions.md section 1
that some rule reads (00_scope.md R2, R8, R9). -/

namespace Sys2Proof

/-- One of the four build variants (R2, R259). -/
structure Build where
  /-- `HAS_FMA` (R8): true selects the FMA path of every multiply-based rule, false the split path. -/
  hasFma : Bool
  /-- `CHECK_ORDER` (R9): true when the ordering check unit exists. -/
  checkOrder : Bool
  deriving DecidableEq, Repr

/-- `HAS_FMA` of the engine at hand. OPEN in the spec (R8), so it has no body: nothing can be proved of its
value. Log entry 1. -/
opaque Config.hasFma : Bool

/-- `CHECK_ORDER` of the engine at hand. OPEN in the spec (R9), so it has no body. Log entry 1. -/
opaque Config.checkOrder : Bool

/-- The build of the engine at hand. -/
def Config.build : Build := ⟨Config.hasFma, Config.checkOrder⟩

end Sys2Proof
end

