-- ==== Sys2Proof/Machine/State.lean ====
section
/-! DEFINITION. The state of the DRS engine (10_state.md R20 to R32) as plain data, with the transaction
interface (R21, R22) and the host's coming actions, and the state after reset (R32, R300). -/

namespace Sys2Proof.Machine

/-- The two faults of 60_exceptions.md R270. `raise` of Machine/Ops.lean puts one into the response and its code
into `FAULT_CODE`. The spec describes that entry whole (R273), so a fault is a NEXT state: no step ends in
`Host.Outcome.fault`. -/
inductive Fault where
  /-- `IllegalCommand`, code 1 (R271). Raised by `step` for a command word the decoder refuses, and by a meaning
  given a shape that no command word encodes. Safe: the spec raises it in the same case. -/
  | illegalCommand
  /-- `OrderViolation`, code 2 (R272). Raised by the six checked commands when the order check runs and fails.
  Safe: the spec raises it in the same case. -/
  | orderViolation
  deriving DecidableEq, Repr

/-- Why the model refuses to go on. -/
inductive Refusal where
  /-- An instruction without a meaning. Raised by an arm of `exec` only; no arm of this model does. Safe. -/
  | notModelled (mnemonic : String)
  deriving DecidableEq, Repr

/-- A command `(cw, A.hi, A.lo, B.hi, B.lo)` (R21), its five words sampled together at acceptance (20_memory.md
R43). -/
structure Command where
  cw : BitVec 16
  aHi : Port
  aLo : Port
  bHi : Port
  bLo : Port
  deriving DecidableEq, Repr

/-- A response `(status, R.hi, R.lo)` (R22). A fault response carries the fault and no data (R273: a model
"must not invent result words"). Log entry 3. -/
inductive Response where
  | ok (rHi rLo : Port)
  | fault (f : Fault)
  deriving DecidableEq, Repr

/-- What the host, as platform, can do to the engine; one event a step. -/
inductive HostEvent where
  /-- The host presents a command (R21, R23). -/
  | command (c : Command)
  /-- The platform applies `reset` (R300). -/
  | reset
  /-- A command is presented and `reset` arrives after its acceptance and before its answer: R300 discards it.
  Log entry 5. -/
  | resetCatching (c : Command)
  deriving DecidableEq, Repr

/-- The machine. `halted`, `faultCode` and `inFlight` are the engine's state (R28, R31); `responses` and `host`
are what crosses its interface; `build` is the argument of R8 and R9. -/
structure State where
  /-- `HALTED` (R28). -/
  halted : Bool
  /-- `FAULT_CODE` (R28). -/
  faultCode : BitVec 2
  /-- The command accepted and not yet answered, if there is one (R31, at most one by R23). -/
  inFlight : Option Command
  /-- The responses delivered, oldest first (R22, R23). -/
  responses : List Response
  /-- The host's coming actions, next first: the step's input (R27). The model's own field, log entry 4. -/
  host : List HostEvent
  /-- `HAS_FMA` and `CHECK_ORDER` (R8, R9): no operation writes it (R2, R301). Log entry 1. -/
  build : Build
  deriving DecidableEq, Repr

/-- After reset (R32, R300): not halted, no fault code, no command in flight, no response yet, and no host
action pending (log entry 4). The build is the engine's own, whatever it is. -/
def State.reset : State where
  halted := false
  faultCode := 0#2
  inFlight := none
  responses := []
  host := []
  build := Config.build

end Sys2Proof.Machine
end

