-- ==== Sys2Proof/Machine/Operands.lean ====
section
/-! DEFINITION. Lanes and operand formats: 46_lanes_and_fma.md R250, R251; 30_encoding.md R64; 10_state.md R25. -/

namespace Sys2Proof.Machine

/-- Lane `j` of a port, `P[W*j + W - 1 : W*j]` (R250). -/
def lane (k : Kind) (p : Port) (j : Nat) : Word k := p.extractLsb' (k.width * j) k.width

/-- A result port with lane `j` holding `f j` for `j < n` and every bit above those lanes zero (R25, R250). -/
def packLanes (k : Kind) : (n : Nat) → (Nat → Word k) → Port
  | 0, _ => 0
  | n + 1, f => packLanes k n f ||| ((f n).setWidth vlen <<< (k.width * n))

/-- The ports of no command: all bits zero. -/
def blankCommand : Command := ⟨0#16, 0, 0, 0, 0⟩

/-- The command whose ports a meaning reads: the one accepted and not yet answered (R21, R43). `step` runs no
meaning without one; for such a state the ports read as zero, log entry 2. -/
def current (s : State) : Command := s.inFlight.getD blankCommand

/-- The plain first operand of formats `U`, `SS`, `SD`: `a = A.hi<j>` (R64). -/
def plainA (k : Kind) (s : State) (j : Nat) : Word k := lane k (current s).aHi j

/-- The plain second operand of formats `SS`, `DS`: `b = B.hi<j>` (R64). -/
def plainB (k : Kind) (s : State) (j : Nat) : Word k := lane k (current s).bHi j

/-- The doubled first operand of formats `D`, `DS`, `DD`: `x = (A.hi<j>, A.lo<j>)` (R64). -/
def doubledA (k : Kind) (s : State) (j : Nat) : Doubled k :=
  ⟨lane k (current s).aHi j, lane k (current s).aLo j⟩

/-- The doubled second operand of formats `SD`, `DD`: `y = (B.hi<j>, B.lo<j>)` (R64). -/
def doubledB (k : Kind) (s : State) (j : Nat) : Doubled k :=
  ⟨lane k (current s).bHi j, lane k (current s).bLo j⟩

/-- The response of result class `d` (R64): both components of every lane. -/
def doubledResponse (sh : Shape) (f : Nat → Doubled sh.kind) : Response :=
  .ok (packLanes sh.kind sh.lanes.count fun j => (f j).hi)
    (packLanes sh.kind sh.lanes.count fun j => (f j).lo)

/-- The response of result class `p` (R64): `R.lo` is zero (R25). A mask (class `m`) is a plain result whose
lanes are mask words. -/
def plainResponse (sh : Shape) (f : Nat → Word sh.kind) : Response :=
  .ok (packLanes sh.kind sh.lanes.count f) 0

end Sys2Proof.Machine
end

