-- ==== Sys2Proof/Machine/Ops.lean ====
section
/-! DEFINITION. The shared operations over the state: accepting a command, answering it, taking a fault
(60_exceptions.md R273), reset (70_reset_and_hazards.md R300), completing a command, and what a step finds to do. -/

namespace Sys2Proof.Machine

/-! ## Responses and faults -/

/-- The status and `FAULT_CODE` value of a fault (R270). -/
def faultCodeOf : Fault → BitVec 2
  | .illegalCommand => 1#2
  | .orderViolation => 2#2

/-- `status` of a response (R22). -/
def statusOf : Response → BitVec 2
  | .ok _ _ => 0#2
  | .fault f => faultCodeOf f

/-- The result ports of a response; none of a faulting one (R22, R273). -/
def resultPorts : Response → Option (Port × Port)
  | .ok rHi rLo => some (rHi, rLo)
  | .fault _ => none

/-- Deliver the response to the command in flight. The engine keeps nothing of the command (R24). -/
def answer (r : Response) (s : State) : State :=
  { s with inFlight := none, responses := s.responses ++ [r] }

/-- `raise F` (R273), the one way a fault is taken: the response carries the code and no data, `HALTED <- 1`,
`FAULT_CODE <- c`, nothing else. There is no handler and no return (R278, R279): only `applyReset` leaves the
halted state. -/
def raise (f : Fault) (s : State) : State :=
  answer (.fault f) { s with halted := true, faultCode := faultCodeOf f }

/-- `reset` (R300), complete: `HALTED <- 0`, `FAULT_CODE <- 0`, a command accepted and not yet answered is
discarded without a response. Recovery from a fault is this and nothing else (R279). -/
def applyReset (s : State) : State :=
  { s with halted := false, faultCode := 0#2, inFlight := none }

/-- The host presents a command: taken unless the engine is halted (R274), its five words sampled together (R43). -/
def accept (c : Command) (s : State) : State :=
  if s.halted then s else { s with inFlight := some c }

/-! ## Completing a command -/

/-- Complete a command of shape `sh` with the response `r`. A shape that no command word has is an illegal
command (R252). Log entry 9. -/
def complete (sh : Shape) (r : Response) (s : State) : State :=
  if sh.legal then answer r s else raise .illegalCommand s

/-- Complete a command of result class `d` from its per-lane rule (R251). -/
def completeDoubled (sh : Shape) (f : Nat → Doubled sh.kind) (s : State) : State :=
  complete sh (doubledResponse sh f) s

/-- Complete a command of result class `p` from its per-lane rule (R251). -/
def completePlain (sh : Shape) (f : Nat → Word sh.kind) (s : State) : State :=
  complete sh (plainResponse sh f) s

/-- Complete a command of result class `m` from its per-lane predicate (45_classify.md). -/
def completeMask (sh : Shape) (p : Nat → Bool) (s : State) : State :=
  complete sh (plainResponse sh fun j => maskWord sh.kind (p j)) s

/-- When the order check of a checked command runs (R223): the build has it and the command is scalar. -/
def checkRuns (sh : Shape) (s : State) : Bool := sh.lanes == .x1 && s.build.checkOrder

/-- Complete a checked command (R224): if the check runs on the compared words `a`, `b` of lane 0 and fails,
`raise OrderViolation`; otherwise the result of the per-lane rule. -/
def completeChecked (sh : Shape) (a b : Word sh.kind) (f : Nat → Doubled sh.kind) (s : State) : State :=
  if !orderOk a b && checkRuns sh s then raise .orderViolation s else completeDoubled sh f s

/-! ## What a step finds to do -/

/-- What a step finds to do. -/
inductive Fetched where
  /-- No command is executed: the state after the host's action, if there was one. -/
  | quiet (s : State)
  /-- The command in flight is to be executed. -/
  | execute (s : State)
  deriving DecidableEq, Repr

/-- The host's next action, taken. A reset acts at any time (R300). A halted engine takes no command and
answers none (R274): the presentation passes. A command in flight is finished before the next is accepted (R23).
With nothing presented the engine idles. Log entries 4 to 7. -/
def fetch (s : State) : Fetched :=
  match s.host with
  | .reset :: rest => .quiet (applyReset { s with host := rest })
  | .resetCatching c :: rest => .quiet (applyReset (accept c { s with host := rest }))
  | [] => if s.halted || s.inFlight.isNone then .quiet s else .execute s
  | .command c :: rest =>
    if s.halted then .quiet { s with host := rest }
    else if s.inFlight.isSome then .execute s
    else .execute (accept c { s with host := rest })

/-- `s` with a command of word `cw` presented next and none in flight; its ports are those of the command that
was in flight (zero if there was none). -/
def presentWord (s : State) (cw : BitVec 16) : State :=
  { s with inFlight := none, host := .command { current s with cw := cw } :: s.host }

end Sys2Proof.Machine
end

