-- ==== Sys2Proof/Machine/Transforms.lean ====
section
/-! DEFINITION. The per-lane rules that several commands share: the bit-splitter and the split
(40_primitives_and_split.md R120, R121), the error-free transforms (41_error_free_transforms.md R140 to R143) and
the fast two-sum (44_checked_addition.md R225). -/

namespace Sys2Proof.Machine

variable {k : Kind}

/-- `SPLIT_F` (R7): the low significand bits that the bit-splitter clears. -/
def splitBits : Kind → Nat
  | .f32 => 12
  | .f64 => 27

/-- `UPPER_MASK_F` (R7): all ones with the low `SPLIT` bits zero. -/
def upperMask (k : Kind) : Word k := BitVec.allOnes k.width <<< splitBits k

/-- `upper_F(a)` (R120): no rounding, no canonicalisation. -/
def upper (a : Word k) : Word k := a &&& upperMask k

/-- `split_F(a) = (ah, al)` (R121). -/
def split (a : Word k) : Doubled k :=
  let ah := upper a
  ⟨ah, fsub a ah⟩

/-- `two_sum_F(a, b)` (R140), Knuth's six operations. -/
def twoSum (a b : Word k) : Doubled k :=
  let r := fadd a b
  let v := fsub r a
  let t1 := fsub r v
  let t2 := fsub a t1
  let t3 := fsub b v
  let e := fadd t2 t3
  ⟨r, e⟩

/-- `fast_two_sum_F(a, b)` (R225), three operations. -/
def fastTwoSum (a b : Word k) : Doubled k :=
  let r := fadd a b
  let e := fadd (fsub a r) b
  ⟨r, e⟩

/-- `(ah *. bh) -. r + al *. bh + ah *. bl + al *. bl`, left to right: the split-path error of `r = a *. b`
(R141), which R190 and R191 go on from. -/
def productError (a b r : Word k) : Word k :=
  let sa := split a
  let sb := split b
  let t := fsub (fmul sa.hi sb.hi) r
  let t := fadd t (fmul sa.lo sb.hi)
  let t := fadd t (fmul sa.hi sb.lo)
  fadd t (fmul sa.lo sb.lo)

/-- `two_prod_F(a, b)` (R141) on the path of `HAS_FMA`. -/
def twoProd (hasFma : Bool) (a b : Word k) : Doubled k :=
  let r := fmul a b
  if hasFma then ⟨r, fma a b (fneg r)⟩ else ⟨r, productError a b r⟩

/-- `1 - d * t` by splitting, the four subtractions left to right (R142, R195, R196). -/
def splitResidual (d t : Word k) : Word k :=
  let sd := split d
  let st := split t
  let u := fsub (one k) (fmul sd.hi st.hi)
  let u := fsub u (fmul sd.hi st.lo)
  let u := fsub u (fmul sd.lo st.hi)
  fsub u (fmul sd.lo st.lo)

/-- The reciprocal seed `t = ONE_F /. d`, the correctly rounded quotient (R143). -/
def recipSeed (d : Word k) : Word k := fdiv (one k) d

/-- `recip_s_F(d)` (R142) on the path of `HAS_FMA`. -/
def recipS (hasFma : Bool) (d : Word k) : Doubled k :=
  let t := recipSeed d
  let u := if hasFma then fma (fneg d) t (one k) else splitResidual d t
  ⟨t, fmul t u⟩

/-- `NEG` of a doubled value (R163); `SUB.DD` and `SUBC.DD` negate their second operand with it (R174, R231). -/
def negDoubled (x : Doubled k) : Doubled k := ⟨fneg x.hi, fneg x.lo⟩

/-- `ADD.DS` of a doubled and a plain value (R170). -/
def addDS (x : Doubled k) (b : Word k) : Doubled k :=
  let se := twoSum x.hi b
  ⟨se.hi, fadd se.lo x.lo⟩

/-- `ADD.SD` of a plain and a doubled value (R171). -/
def addSD (a : Word k) (y : Doubled k) : Doubled k :=
  let se := twoSum a y.hi
  ⟨se.hi, fadd se.lo y.lo⟩

/-- `ADD.DD` of two doubled values (R172): the trailing components are added to each other first. -/
def addDD (x y : Doubled k) : Doubled k :=
  let se := twoSum x.hi y.hi
  let w := fadd x.lo y.lo
  ⟨se.hi, fadd se.lo w⟩

/-- `ADDC.DS` of a doubled and a plain value (R227), the result without the check. -/
def addcDS (x : Doubled k) (b : Word k) : Doubled k :=
  let s := fadd x.hi b
  let e := fadd (fsub x.hi s) b
  let e := fadd e x.lo
  ⟨s, e⟩

/-- `ADDC.SD` of a plain and a doubled value (R228), the result without the check. -/
def addcSD (a : Word k) (y : Doubled k) : Doubled k :=
  let s := fadd a y.hi
  let e := fadd (fsub a s) y.hi
  let e := fadd e y.lo
  ⟨s, e⟩

/-- `ADDC.DD` of two doubled values (R229), the result without the check: `x.lo` is added first, then `y.lo`. -/
def addcDD (x y : Doubled k) : Doubled k :=
  let s := fadd x.hi y.hi
  let e := fadd (fsub x.hi s) y.hi
  let e := fadd e x.lo
  let e := fadd e y.lo
  ⟨s, e⟩

/-- `MUL.DD` of two doubled values (R191) on the path of `HAS_FMA`. The paths add the two products with a
trailing component in opposite orders. -/
def mulDD (hasFma : Bool) (x y : Doubled k) : Doubled k :=
  let p := fmul x.hi y.hi
  if hasFma then
    let t := fma x.hi y.hi (fneg p)
    let t := fma x.lo y.hi t
    let t := fma x.hi y.lo t
    ⟨p, t⟩
  else
    let t := productError x.hi y.hi p
    let t := fadd t (fmul x.hi y.lo)
    let t := fadd t (fmul x.lo y.hi)
    ⟨p, t⟩

/-- `SCALE` of a doubled value by a plain one (R166): two independent multiplications. -/
def scaleDoubled (x : Doubled k) (b : Word k) : Doubled k := ⟨fmul x.hi b, fmul x.lo b⟩

end Sys2Proof.Machine
end

