-- ==== Sys2Proof/Machine/AddSub.lean ====
section
/-! DEFINITION. Unchecked addition and subtraction: 41_error_free_transforms.md R140 and 42_doubled_addsub.md
R170 to R174. -/

namespace Sys2Proof.Machine

/-- `ADD.SS` (R140). -/
def execAddSS (sh : Shape) (s : State) : Host.Outcome State Fault Refusal :=
  .next (completeDoubled sh (fun j => twoSum (plainA sh.kind s j) (plainB sh.kind s j)) s)

/-- `ADD.DS` (R170). -/
def execAddDS (sh : Shape) (s : State) : Host.Outcome State Fault Refusal :=
  .next (completeDoubled sh (fun j => addDS (doubledA sh.kind s j) (plainB sh.kind s j)) s)

/-- `ADD.SD` (R171). -/
def execAddSD (sh : Shape) (s : State) : Host.Outcome State Fault Refusal :=
  .next (completeDoubled sh (fun j => addSD (plainA sh.kind s j) (doubledB sh.kind s j)) s)

/-- `ADD.DD` (R172). -/
def execAddDD (sh : Shape) (s : State) : Host.Outcome State Fault Refusal :=
  .next (completeDoubled sh (fun j => addDD (doubledA sh.kind s j) (doubledB sh.kind s j)) s)

/-- `SUB.DS` (R173): `ADD.DS(x, fneg(b))`. -/
def execSubDS (sh : Shape) (s : State) : Host.Outcome State Fault Refusal :=
  .next (completeDoubled sh (fun j => addDS (doubledA sh.kind s j) (fneg (plainB sh.kind s j))) s)

/-- `SUB.DD` (R174): `ADD.DD(x, NEG(y))`. -/
def execSubDD (sh : Shape) (s : State) : Host.Outcome State Fault Refusal :=
  .next (completeDoubled sh
    (fun j => addDD (doubledA sh.kind s j) (negDoubled (doubledB sh.kind s j))) s)

end Sys2Proof.Machine
end

