-- ==== Sys2Proof/Machine/Checked.lean ====
section
/-! DEFINITION. Checked addition and subtraction: 44_checked_addition.md R220 to R232. The compared words are
those of R221. -/

namespace Sys2Proof.Machine

/-- `ADDC.SS` (R226). -/
def execAddcSS (sh : Shape) (s : State) : Host.Outcome State Fault Refusal :=
  .next (completeChecked sh (plainA sh.kind s 0) (plainB sh.kind s 0)
    (fun j => fastTwoSum (plainA sh.kind s j) (plainB sh.kind s j)) s)

/-- `ADDC.DS` (R227). -/
def execAddcDS (sh : Shape) (s : State) : Host.Outcome State Fault Refusal :=
  .next (completeChecked sh (doubledA sh.kind s 0).hi (plainB sh.kind s 0)
    (fun j => addcDS (doubledA sh.kind s j) (plainB sh.kind s j)) s)

/-- `ADDC.SD` (R228). -/
def execAddcSD (sh : Shape) (s : State) : Host.Outcome State Fault Refusal :=
  .next (completeChecked sh (plainA sh.kind s 0) (doubledB sh.kind s 0).hi
    (fun j => addcSD (plainA sh.kind s j) (doubledB sh.kind s j)) s)

/-- `ADDC.DD` (R229). -/
def execAddcDD (sh : Shape) (s : State) : Host.Outcome State Fault Refusal :=
  .next (completeChecked sh (doubledA sh.kind s 0).hi (doubledB sh.kind s 0).hi
    (fun j => addcDD (doubledA sh.kind s j) (doubledB sh.kind s j)) s)

/-- `SUBC.DS` (R230): `ADDC.DS(x, fneg(b))`, check included. -/
def execSubcDS (sh : Shape) (s : State) : Host.Outcome State Fault Refusal :=
  .next (completeChecked sh (doubledA sh.kind s 0).hi (fneg (plainB sh.kind s 0))
    (fun j => addcDS (doubledA sh.kind s j) (fneg (plainB sh.kind s j))) s)

/-- `SUBC.DD` (R231): `ADDC.DD(x, NEG(y))`, check included. -/
def execSubcDD (sh : Shape) (s : State) : Host.Outcome State Fault Refusal :=
  .next (completeChecked sh (doubledA sh.kind s 0).hi (negDoubled (doubledB sh.kind s 0)).hi
    (fun j => addcDD (doubledA sh.kind s j) (negDoubled (doubledB sh.kind s j))) s)

end Sys2Proof.Machine
end

