-- ==== Sys2Proof/Machine/Classify.lean ====
section
/-! DEFINITION. Special-value classification: 45_classify.md R240 to R242. -/

namespace Sys2Proof.Machine

/-- `ISINF` (R240). -/
def execIsinf (sh : Shape) (s : State) : Host.Outcome State Fault Refusal :=
  .next (completeMask sh (fun j => isinfF (plainA sh.kind s j)) s)

/-- `ISNAN` (R241). -/
def execIsnan (sh : Shape) (s : State) : Host.Outcome State Fault Refusal :=
  .next (completeMask sh (fun j => isnanF (plainA sh.kind s j)) s)

/-- `ISNFIN` (R242). -/
def execIsnfin (sh : Shape) (s : State) : Host.Outcome State Fault Refusal :=
  .next (completeMask sh (fun j => nonfinite (plainA sh.kind s j)) s)

end Sys2Proof.Machine
end

