-- ==== Sys2Proof/Machine/Convert.lean ====
section
/-! DEFINITION. The bit-splitter, conversions, sign operations, normalize and scale: 40_primitives_and_split.md
R120 and 42_doubled_addsub.md R160 to R166. -/

namespace Sys2Proof.Machine

/-- `UPPER` (R120). -/
def execUpper (sh : Shape) (s : State) : Host.Outcome State Fault Refusal :=
  .next (completePlain sh (fun j => upper (plainA sh.kind s j)) s)

/-- `WIDEN` (R160): the word unchanged, and +0. -/
def execWiden (sh : Shape) (s : State) : Host.Outcome State Fault Refusal :=
  .next (completeDoubled sh (fun j => ⟨plainA sh.kind s j, zero sh.kind false⟩) s)

/-- `NARROW` (R161): one rounded addition. -/
def execNarrow (sh : Shape) (s : State) : Host.Outcome State Fault Refusal :=
  .next (completePlain sh
    (fun j => let x := doubledA sh.kind s j; fadd x.hi x.lo) s)

/-- `PACK` (R162): a copy of bits. -/
def execPack (sh : Shape) (s : State) : Host.Outcome State Fault Refusal :=
  .next (completeDoubled sh (fun j => ⟨plainA sh.kind s j, plainB sh.kind s j⟩) s)

/-- `NEG` (R163). -/
def execNeg (sh : Shape) (s : State) : Host.Outcome State Fault Refusal :=
  .next (completeDoubled sh (fun j => negDoubled (doubledA sh.kind s j)) s)

/-- The rule of `ABS` (R164): the leading sign bit is XORed into both components. -/
def absDoubled {k : Kind} (x : Doubled k) : Doubled k :=
  let s := x.hi &&& signMask k
  ⟨x.hi ^^^ s, x.lo ^^^ s⟩

/-- `ABS` (R164). -/
def execAbs (sh : Shape) (s : State) : Host.Outcome State Fault Refusal :=
  .next (completeDoubled sh (fun j => absDoubled (doubledA sh.kind s j)) s)

/-- `NORM` (R165): the full two-sum of the components. -/
def execNorm (sh : Shape) (s : State) : Host.Outcome State Fault Refusal :=
  .next (completeDoubled sh
    (fun j => let x := doubledA sh.kind s j; twoSum x.hi x.lo) s)

/-- `SCALE` (R166). -/
def execScale (sh : Shape) (s : State) : Host.Outcome State Fault Refusal :=
  .next (completeDoubled sh (fun j => scaleDoubled (doubledA sh.kind s j) (plainB sh.kind s j)) s)

end Sys2Proof.Machine
end

