-- ==== Sys2Proof/Machine/Divide.lean ====
section
/-! DEFINITION. Reciprocal, divide and square root, each on the path of `HAS_FMA`: 41_error_free_transforms.md
R142, R143 and 43_doubled_muldiv.md R195 to R197. -/

namespace Sys2Proof.Machine

variable {k : Kind}

/-- The rule of `RECIP.D` (R195). -/
def recipD (hasFma : Bool) (d : Doubled k) : Doubled k :=
  let t := recipSeed d.hi
  let u :=
    if hasFma then
      let u := fma (fneg d.hi) t (one k)
      fma (fneg d.lo) t u
    else
      fsub (splitResidual d.hi t) (fmul d.lo t)
  ⟨t, fmul t u⟩

/-- `n.hi * t - q` by splitting, plus `q *. w` (R196, split path). -/
def quotientError (nHi t q w : Word k) : Word k :=
  let sn := split nHi
  let st := split t
  let u := fadd (fneg q) (fmul sn.hi st.hi)
  let u := fadd u (fmul sn.hi st.lo)
  let u := fadd u (fmul sn.lo st.hi)
  let u := fadd u (fmul sn.lo st.lo)
  fadd u (fmul q w)

/-- The rule of `DIV.DD` (R196), `n / d`. -/
def divDD (hasFma : Bool) (n d : Doubled k) : Doubled k :=
  let t := recipSeed d.hi
  let q := fmul n.hi t
  if hasFma then
    let u := fma t n.hi (fneg q)
    let w := fma (fneg d.hi) t (one k)
    let w := fma (fneg d.lo) t w
    let e := fma n.lo t u
    let e := fma q w e
    ⟨q, e⟩
  else
    let w := splitResidual d.hi t
    let u := quotientError n.hi t q w
    let e := fadd (fmul t (fsub n.lo (fmul q d.lo))) u
    ⟨q, e⟩

/-- The rule of `SQRT.D` (R197), a composition of earlier rules on the command's own path. -/
def sqrtD (hasFma : Bool) (x : Doubled k) : Doubled k :=
  let t := fsqrt (fadd x.hi x.lo)
  let p := twoProd hasFma t t
  let s := addDD x p
  let c := recipS hasFma t
  let m := mulDD hasFma s c
  scaleDoubled m (half k)

/-- `RECIP.S` (R142). -/
def execRecipS (sh : Shape) (s : State) : Host.Outcome State Fault Refusal :=
  .next (completeDoubled sh (fun j => recipS s.build.hasFma (plainA sh.kind s j)) s)

/-- `RECIP.D` (R195). -/
def execRecipD (sh : Shape) (s : State) : Host.Outcome State Fault Refusal :=
  .next (completeDoubled sh (fun j => recipD s.build.hasFma (doubledA sh.kind s j)) s)

/-- `DIV.DD` (R196). -/
def execDivDD (sh : Shape) (s : State) : Host.Outcome State Fault Refusal :=
  .next (completeDoubled sh
    (fun j => divDD s.build.hasFma (doubledA sh.kind s j) (doubledB sh.kind s j)) s)

/-- `SQRT.D` (R197). -/
def execSqrtD (sh : Shape) (s : State) : Host.Outcome State Fault Refusal :=
  .next (completeDoubled sh (fun j => sqrtD s.build.hasFma (doubledA sh.kind s j)) s)

end Sys2Proof.Machine
end

