-- ==== Sys2Proof/Machine/Multiply.lean ====
section
/-! DEFINITION. The multiply family, each on the path of `HAS_FMA`: 41_error_free_transforms.md R141 and
43_doubled_muldiv.md R190 to R194. -/

namespace Sys2Proof.Machine

variable {k : Kind}

/-- The rule of `MUL.DS` (R190). -/
def mulDS (hasFma : Bool) (x : Doubled k) (b : Word k) : Doubled k :=
  let p := fmul x.hi b
  if hasFma then
    let t := fma x.hi b (fneg p)
    let t := fma x.lo b t
    ⟨p, t⟩
  else
    let t := productError x.hi b p
    let t := fadd t (fmul x.lo b)
    ⟨p, t⟩

/-- The rule of `MULF.DD` (R192): smallest terms first. The split path multiplies the trailing components by
the upper halves of the other operand's leading component. -/
def mulfDD (hasFma : Bool) (x y : Doubled k) : Word k :=
  if hasFma then
    let t := fmul x.hi y.lo
    let t := fma x.lo y.hi t
    fma x.hi y.hi t
  else
    let sx := split x.hi
    let sy := split y.hi
    let t := fadd (fmul x.lo sy.hi) (fmul sx.hi y.lo)
    let t := fadd t (fmul sx.lo sy.lo)
    let t := fadd t (fmul sx.hi sy.lo)
    let t := fadd t (fmul sx.lo sy.hi)
    fadd t (fmul sx.hi sy.hi)

/-- The rule of `SQU.D` (R193). -/
def squD (hasFma : Bool) (x : Doubled k) : Doubled k :=
  let p := fmul x.hi x.hi
  if hasFma then
    let t := fma x.hi x.hi (fneg p)
    let t := fma (fadd x.hi x.hi) x.lo t
    ⟨p, t⟩
  else
    let sx := split x.hi
    let t := fsub (fmul sx.hi sx.hi) p
    let t := fadd t (fmul (fadd sx.hi sx.hi) sx.lo)
    let t := fadd t (fmul sx.lo sx.lo)
    let t := fadd t (fmul x.hi (fadd x.lo x.lo))
    ⟨p, t⟩

/-- The rule of `SQUF.D` (R194). -/
def squfD (hasFma : Bool) (x : Doubled k) : Word k :=
  if hasFma then
    let w := fadd (fmul x.hi x.lo) (fmul x.hi x.lo)
    fma x.hi x.hi w
  else
    let sx := split x.hi
    let t := fadd (fmul sx.hi x.lo) (fmul sx.hi x.lo)
    let t := fadd t (fmul sx.lo sx.lo)
    let t := fadd t (fadd (fmul sx.hi sx.lo) (fmul sx.hi sx.lo))
    fadd t (fmul sx.hi sx.hi)

/-- `MUL.SS` (R141). -/
def execMulSS (sh : Shape) (s : State) : Host.Outcome State Fault Refusal :=
  .next (completeDoubled sh
    (fun j => twoProd s.build.hasFma (plainA sh.kind s j) (plainB sh.kind s j)) s)

/-- `MUL.DS` (R190). -/
def execMulDS (sh : Shape) (s : State) : Host.Outcome State Fault Refusal :=
  .next (completeDoubled sh
    (fun j => mulDS s.build.hasFma (doubledA sh.kind s j) (plainB sh.kind s j)) s)

/-- `MUL.DD` (R191). -/
def execMulDD (sh : Shape) (s : State) : Host.Outcome State Fault Refusal :=
  .next (completeDoubled sh
    (fun j => mulDD s.build.hasFma (doubledA sh.kind s j) (doubledB sh.kind s j)) s)

/-- `MULF.DD` (R192). -/
def execMulfDD (sh : Shape) (s : State) : Host.Outcome State Fault Refusal :=
  .next (completePlain sh
    (fun j => mulfDD s.build.hasFma (doubledA sh.kind s j) (doubledB sh.kind s j)) s)

/-- `SQU.D` (R193). -/
def execSquD (sh : Shape) (s : State) : Host.Outcome State Fault Refusal :=
  .next (completeDoubled sh (fun j => squD s.build.hasFma (doubledA sh.kind s j)) s)

/-- `SQUF.D` (R194). -/
def execSqufD (sh : Shape) (s : State) : Host.Outcome State Fault Refusal :=
  .next (completePlain sh (fun j => squfD s.build.hasFma (doubledA sh.kind s j)) s)

end Sys2Proof.Machine
end

