-- ==== Sys2Proof/Machine/Dispatch.lean ====
section
/-! DEFINITION. One arm per command of the opcode map (30_encoding.md R65), each one call of its meaning. -/

namespace Sys2Proof.Machine

def exec (i : Instr) (s : State) : Host.Outcome State Fault Refusal :=
  match i with
  | .upper sh => Sys2Proof.Machine.execUpper sh s
  | .widen sh => Sys2Proof.Machine.execWiden sh s
  | .narrow sh => Sys2Proof.Machine.execNarrow sh s
  | .pack sh => Sys2Proof.Machine.execPack sh s
  | .neg sh => Sys2Proof.Machine.execNeg sh s
  | .abs sh => Sys2Proof.Machine.execAbs sh s
  | .norm sh => Sys2Proof.Machine.execNorm sh s
  | .scale sh => Sys2Proof.Machine.execScale sh s
  | .isinf sh => Sys2Proof.Machine.execIsinf sh s
  | .isnan sh => Sys2Proof.Machine.execIsnan sh s
  | .isnfin sh => Sys2Proof.Machine.execIsnfin sh s
  | .addSS sh => Sys2Proof.Machine.execAddSS sh s
  | .addDS sh => Sys2Proof.Machine.execAddDS sh s
  | .addSD sh => Sys2Proof.Machine.execAddSD sh s
  | .addDD sh => Sys2Proof.Machine.execAddDD sh s
  | .subDS sh => Sys2Proof.Machine.execSubDS sh s
  | .subDD sh => Sys2Proof.Machine.execSubDD sh s
  | .addcSS sh => Sys2Proof.Machine.execAddcSS sh s
  | .addcDS sh => Sys2Proof.Machine.execAddcDS sh s
  | .addcSD sh => Sys2Proof.Machine.execAddcSD sh s
  | .addcDD sh => Sys2Proof.Machine.execAddcDD sh s
  | .subcDS sh => Sys2Proof.Machine.execSubcDS sh s
  | .subcDD sh => Sys2Proof.Machine.execSubcDD sh s
  | .mulSS sh => Sys2Proof.Machine.execMulSS sh s
  | .mulDS sh => Sys2Proof.Machine.execMulDS sh s
  | .mulDD sh => Sys2Proof.Machine.execMulDD sh s
  | .mulfDD sh => Sys2Proof.Machine.execMulfDD sh s
  | .squD sh => Sys2Proof.Machine.execSquD sh s
  | .squfD sh => Sys2Proof.Machine.execSqufD sh s
  | .recipS sh => Sys2Proof.Machine.execRecipS sh s
  | .recipD sh => Sys2Proof.Machine.execRecipD sh s
  | .divDD sh => Sys2Proof.Machine.execDivDD sh s
  | .sqrtD sh => Sys2Proof.Machine.execSqrtD sh s

end Sys2Proof.Machine
end

