-- ==== Sys2Proof/Machine/Step.lean ====
section
/-! DEFINITION. One step: one host event, or one command executed and answered (10_state.md R23, 60_exceptions.md
R275, 70_reset_and_hazards.md R311). -/

namespace Sys2Proof.Machine

/-- One step, in the order of R275: the `HALTED` test (in `fetch`), decode and perhaps `IllegalCommand`, then the
command's own meaning with its order check and result. -/
def step (s : State) : Host.Outcome State Fault Refusal :=
  match fetch s with
  | .quiet t => .next t
  | .execute t =>
    match decode (current t).cw with
    | .legal i => exec i t
    | .illegal _ => .next (raise .illegalCommand t)

/-- The host's question: `s` with the command word of the `nbits` bits `w` presented next. Log entry 4. -/
def State.withFetchWord (s : State) (nbits w : Nat) : State :=
  presentWord s (BitVec.ofNat 16 (w % 2 ^ nbits))

end Sys2Proof.Machine
end

