-- ==== Sys2Proof/Machine/Session.lean ====
section
/-! DEFINITION. The host's side: commands made from host values, the response the engine gives to one command, and
the pseudo-instructions of 30_encoding.md R70, which the host expands into the 33 commands. -/

namespace Sys2Proof.Machine

/-- A host value: the two ports of a doubled operand. A plain value uses `hi` (R16, R69). -/
structure HostValue where
  hi : Port
  lo : Port
  deriving DecidableEq, Repr

/-- The command that presents a command word with two operands (R21, R69). -/
def commandOf (i : Instr) (a b : HostValue) : Command := ⟨encode i, a.hi, a.lo, b.hi, b.lo⟩

/-- An engine of build `b`, just after reset, that the host presents `c` to. -/
def presented (b : Build) (c : Command) : State :=
  { State.reset with host := [.command c], build := b }

/-- The response of an engine of build `b` to the command `c` (R24: "a function of that command and of the build
parameters"). -/
def responseTo (b : Build) (c : Command) : Option Response :=
  match step (presented b c) with
  | .next t => t.responses.head?
  | .fault _ => none
  | .refused _ => none

/-- The second operand of a command that has none: its ports are not read (R25). -/
def noValue : HostValue := ⟨0, 0⟩

/-- Flip bit `W-1` of lanes `0` to `n-1` of a port, as the host does for `SUB.SS` (R70). -/
def negatePort (k : Kind) : (n : Nat) → Port → Port
  | 0, p => p
  | n + 1, p => negatePort k n p ^^^ ((signMask k).setWidth vlen <<< (k.width * n))

/-- The pseudo-instructions of R70. `MOV` has no command and stands for the empty expansion. -/
inductive Pseudo where
  /-- `x += y`, doubled `y`. -/
  | addAssignDD (x y : HostValue)
  /-- `x += b`, plain `b`. -/
  | addAssignDS (x b : HostValue)
  /-- `x *= y`, doubled `y`. -/
  | mulAssignDD (x y : HostValue)
  /-- `x *= b`, plain `b`. -/
  | mulAssignDS (x b : HostValue)
  /-- `MUL.SD a, y`. -/
  | mulSD (a y : HostValue)
  /-- `DIV.DS x, b`. -/
  | divDS (x b : HostValue)
  /-- `SUB.SD a, y`. -/
  | subSD (a y : HostValue)
  /-- `SUB.SS a, b`. -/
  | subSS (a b : HostValue)
  /-- `RECIP x` of a doubled `x`. -/
  | recip (x : HostValue)
  /-- `MOV`. -/
  | mov (x : HostValue)
  deriving DecidableEq, Repr

/-- An operand of a command of an expansion: a host value, or `t`, the result of the command before it. -/
inductive Source where
  | value (v : HostValue)
  | previous
  deriving DecidableEq, Repr

/-- One command of an expansion. -/
structure PseudoCommand where
  instr : Instr
  a : Source
  b : Source
  deriving DecidableEq, Repr

/-- The expansions of R70, at one shape. -/
def Pseudo.expand (sh : Shape) : Pseudo → List PseudoCommand
  | .addAssignDD x y => [⟨.addDD sh, .value x, .value y⟩]
  | .addAssignDS x b => [⟨.addDS sh, .value x, .value b⟩]
  | .mulAssignDD x y => [⟨.mulDD sh, .value x, .value y⟩]
  | .mulAssignDS x b => [⟨.mulDS sh, .value x, .value b⟩]
  | .mulSD a y => [⟨.mulDS sh, .value y, .value a⟩]
  | .divDS x b => [⟨.widen sh, .value b, .value noValue⟩, ⟨.divDD sh, .value x, .previous⟩]
  | .subSD a y => [⟨.neg sh, .value y, .value noValue⟩, ⟨.addSD sh, .value a, .previous⟩]
  | .subSS a b =>
    [⟨.addSS sh, .value a, .value ⟨negatePort sh.kind sh.lanes.count b.hi, b.lo⟩⟩]
  | .recip x => [⟨.recipD sh, .value x, .value noValue⟩]
  | .mov _ => []

/-- The value of a source, `t` being the result of the command before. -/
def Source.get (t : HostValue) : Source → HostValue
  | .value v => v
  | .previous => t

/-- The host value that issuing an expansion's commands to an engine of build `b` leaves, each after the response of
the one before has arrived (R303); none if a response carries no data. -/
def runExpansion (b : Build) : HostValue → List PseudoCommand → Option HostValue
  | t, [] => some t
  | t, c :: rest =>
    match responseTo b (commandOf c.instr (c.a.get t) (c.b.get t)) with
    | some (.ok rHi rLo) => runExpansion b ⟨rHi, rLo⟩ rest
    | some (.fault _) => none
    | none => none

/-- The value a pseudo-instruction leaves under its destination's name (R70): the last command's result, or the
operand itself for `MOV`. -/
def Pseudo.run (b : Build) (sh : Shape) (p : Pseudo) : Option HostValue :=
  match p with
  | .mov x => some x
  | p => runExpansion b noValue (p.expand sh)

end Sys2Proof.Machine
end

