-- ==== Sys2Proof/Safety.lean ====
section
/-! DEFINITION. The terms that claims about the engine use: what a command leaves, what a port holds, which operand
bits a command reads, and the invariant of the fault latch. -/

namespace Sys2Proof.Machine

/-- `s` after its command in flight is answered by `r`: nothing else changes (R24). -/
def answeredWith (s : State) (r : Response) : State :=
  { s with inFlight := none, responses := s.responses ++ [r] }

/-- `s` after its command in flight raises `f` of code `code` (R273): nothing else changes. -/
def faultedWith (s : State) (f : Fault) (code : BitVec 2) : State :=
  { s with halted := true, faultCode := code, inFlight := none, responses := s.responses ++ [.fault f] }

/-- A result port holds `f j` in every lane `j < L` and zeros above the lanes (R25, R250). -/
def HoldsLanes (sh : Shape) (p : Port) (f : Nat → Word sh.kind) : Prop :=
  (∀ j, j < sh.lanes.count → lane sh.kind p j = f j) ∧
    ∀ b, sh.kind.width * sh.lanes.count ≤ b → p.getLsbD b = false

/-- The command `i`, of shape `sh`, completes in `s`: its response is `OK`, `R.hi` and `R.lo` hold the components of
`f j` in their lanes, and nothing else of the state changes. -/
def CompletesDoubled (i : Instr) (s : State) (sh : Shape) (f : Nat → Doubled sh.kind) : Prop :=
  ∃ rHi rLo, exec i s = .next (answeredWith s (.ok rHi rLo)) ∧
    HoldsLanes sh rHi (fun j => (f j).hi) ∧ HoldsLanes sh rLo (fun j => (f j).lo)

/-- The same of a command whose result is plain or a mask: `R.lo` is zero (R25). -/
def CompletesPlain (i : Instr) (s : State) (sh : Shape) (f : Nat → Word sh.kind) : Prop :=
  ∃ rHi, exec i s = .next (answeredWith s (.ok rHi 0)) ∧ HoldsLanes sh rHi f

/-- `HALTED` and `FAULT_CODE` go together (R28, R274): a running engine has code 0; a halted one holds no command, and
its code is that of the fault its last response reports. -/
def FaultLatch (s : State) : Prop :=
  (s.halted = false → s.faultCode = 0#2) ∧
  (s.halted = true → s.inFlight = none ∧
    ∃ f, s.responses.getLast? = some (.fault f) ∧ s.faultCode = faultCodeOf f)

/-- Two ports agree in the bits of the lanes of `sh`. -/
def AgreeOnLanes (sh : Shape) (p q : Port) : Prop :=
  ∀ b, b < sh.kind.width * sh.lanes.count → p.getLsbD b = q.getLsbD b

/-- Two commands agree in the operand bits that `i` reads (R25, R64). -/
def AgreeOnRead (i : Instr) (c d : Command) : Prop :=
  match i.format with
  | .u => AgreeOnLanes i.shape c.aHi d.aHi
  | .d => AgreeOnLanes i.shape c.aHi d.aHi ∧ AgreeOnLanes i.shape c.aLo d.aLo
  | .ss => AgreeOnLanes i.shape c.aHi d.aHi ∧ AgreeOnLanes i.shape c.bHi d.bHi
  | .ds => AgreeOnLanes i.shape c.aHi d.aHi ∧ AgreeOnLanes i.shape c.aLo d.aLo ∧
      AgreeOnLanes i.shape c.bHi d.bHi
  | .sd => AgreeOnLanes i.shape c.aHi d.aHi ∧ AgreeOnLanes i.shape c.bHi d.bHi ∧
      AgreeOnLanes i.shape c.bLo d.bLo
  | .dd => AgreeOnLanes i.shape c.aHi d.aHi ∧ AgreeOnLanes i.shape c.aLo d.aLo ∧
      AgreeOnLanes i.shape c.bHi d.bHi ∧ AgreeOnLanes i.shape c.bLo d.bLo

/-- The scalar command of the same operation and element kind (R251). -/
def scalarOf : Instr → Instr
  | .upper sh => .upper ⟨sh.kind, .x1⟩
  | .widen sh => .widen ⟨sh.kind, .x1⟩
  | .narrow sh => .narrow ⟨sh.kind, .x1⟩
  | .pack sh => .pack ⟨sh.kind, .x1⟩
  | .neg sh => .neg ⟨sh.kind, .x1⟩
  | .abs sh => .abs ⟨sh.kind, .x1⟩
  | .norm sh => .norm ⟨sh.kind, .x1⟩
  | .scale sh => .scale ⟨sh.kind, .x1⟩
  | .isinf sh => .isinf ⟨sh.kind, .x1⟩
  | .isnan sh => .isnan ⟨sh.kind, .x1⟩
  | .isnfin sh => .isnfin ⟨sh.kind, .x1⟩
  | .addSS sh => .addSS ⟨sh.kind, .x1⟩
  | .addDS sh => .addDS ⟨sh.kind, .x1⟩
  | .addSD sh => .addSD ⟨sh.kind, .x1⟩
  | .addDD sh => .addDD ⟨sh.kind, .x1⟩
  | .subDS sh => .subDS ⟨sh.kind, .x1⟩
  | .subDD sh => .subDD ⟨sh.kind, .x1⟩
  | .addcSS sh => .addcSS ⟨sh.kind, .x1⟩
  | .addcDS sh => .addcDS ⟨sh.kind, .x1⟩
  | .addcSD sh => .addcSD ⟨sh.kind, .x1⟩
  | .addcDD sh => .addcDD ⟨sh.kind, .x1⟩
  | .subcDS sh => .subcDS ⟨sh.kind, .x1⟩
  | .subcDD sh => .subcDD ⟨sh.kind, .x1⟩
  | .mulSS sh => .mulSS ⟨sh.kind, .x1⟩
  | .mulDS sh => .mulDS ⟨sh.kind, .x1⟩
  | .mulDD sh => .mulDD ⟨sh.kind, .x1⟩
  | .mulfDD sh => .mulfDD ⟨sh.kind, .x1⟩
  | .squD sh => .squD ⟨sh.kind, .x1⟩
  | .squfD sh => .squfD ⟨sh.kind, .x1⟩
  | .recipS sh => .recipS ⟨sh.kind, .x1⟩
  | .recipD sh => .recipD ⟨sh.kind, .x1⟩
  | .divDD sh => .divDD ⟨sh.kind, .x1⟩
  | .sqrtD sh => .sqrtD ⟨sh.kind, .x1⟩

/-- The operands of lane `j` of a command, as a scalar command has them (R251). -/
def laneOperands (k : Kind) (c : Command) (j : Nat) : Command :=
  { c with
    aHi := (lane k c.aHi j).setWidth vlen
    aLo := (lane k c.aLo j).setWidth vlen
    bHi := (lane k c.bHi j).setWidth vlen
    bLo := (lane k c.bLo j).setWidth vlen }

/-- Whether a response carries a result. -/
def Response.isOk : Response → Bool
  | .ok _ _ => true
  | .fault _ => false

/-- The four quiet comparisons of R111 on two words, as the words stand to each other. -/
def ComparesAs {k : Kind} (o : Ordering) (a b : Word k) : Prop :=
  feq a b = (o == .eq) ∧ flt a b = (o == .lt) ∧ fle a b = (o != .gt) ∧ fge a b = (o != .lt)

/-- The greatest finite magnitude of a kind: `(2^p - 1) * 2^(emax - (p-1))` (R100, R101). -/
def maxFinite (k : Kind) : ℚ := ((2 : ℚ) ^ prec k - 1) * (2 : ℚ) ^ (emax k - ((prec k : Int) - 1))

end Sys2Proof.Machine
end

