-- ==== Sys2Proof/Certificates/Slice0/Obligations.lean ====
section
/-! DEFINITION. The statements for the provers. `c` is the command in flight; its operands are read lane by lane
(46_lanes_and_fma.md R250). Each docstring names the rules of spec/ a statement formalises. -/

open Sys2Proof Sys2Proof.Machine

/-- Decoding the word of any well-formed command gives the command back. 30_encoding.md R60, 30_encoding.md R65,
30_encoding.md R68. -/
def Obligations.DecodeEncodeRoundTrip : Prop :=
  ∀ i : Instr, i.wellFormed = true → decode (encode i) = .legal i

/-- A legal word is the encoding of the well-formed command it decodes to. 30_encoding.md R60, 30_encoding.md R65,
30_encoding.md R67, 30_encoding.md R68. -/
def Obligations.DecodedWordIsItsEncoding : Prop :=
  ∀ (cw : BitVec 16) (i : Instr), decode cw = .legal i → i.wellFormed = true ∧ encode i = cw

/-- The fields of a command word and its numeric value. R61. -/
def Obligations.CommandWordFields : Prop :=
  ∀ cw : BitVec 16,
    (opcField cw).toNat = cw.toNat % 64 ∧ (ekField cw).toNat = cw.toNat / 64 % 2 ∧
    (lwField cw).toNat = cw.toNat / 128 % 8 ∧ (rsvField cw).toNat = cw.toNat / 1024 ∧
    (rsvField cw = 0#6 →
      cw.toNat = (opcField cw).toNat + 64 * (ekField cw).toNat + 128 * (lwField cw).toNat)

/-- Exactly the words of R67 are illegal, and each raises IllegalCommand. R67, R271. -/
def Obligations.IllegalWordsRaiseIllegalCommand : Prop :=
  (∀ cw : BitVec 16, (∃ why, decode cw = .illegal why) ↔
      (rsvField cw ≠ 0#6 ∨
        (opcField cw).toNat ∉ [0x01, 0x02, 0x03, 0x04, 0x05, 0x06, 0x07, 0x08, 0x09, 0x0A, 0x0B, 0x10, 0x11, 0x12,
          0x13, 0x15, 0x17, 0x18, 0x19, 0x1A, 0x1B, 0x1D, 0x1F, 0x20, 0x21, 0x23, 0x27, 0x28, 0x29, 0x2C, 0x2D,
          0x2F, 0x31] ∨
        5 ≤ (lwField cw).toNat ∨ (ekField cw = 1#1 ∧ (lwField cw).toNat = 4))) ∧
    ∀ (s : State) (c : Command) (rest : List HostEvent) (why : Illegal),
      s.halted = false → s.inFlight = none → s.host = .command c :: rest → decode c.cw = .illegal why →
      step s = .next (faultedWith { s with host := rest } .illegalCommand 1#2)

/-- Words of the spec's encoding table decode as it says. 96_test_vectors_part2.md section 2.12, 30_encoding.md
R65, 30_encoding.md R69. -/
def Obligations.SampleWordsDecode : Prop :=
  decode 0x0001#16 = .legal (.upper ⟨.f32, .x1⟩) ∧ decode 0x0010#16 = .legal (.addSS ⟨.f32, .x1⟩) ∧
    decode 0x0053#16 = .legal (.addDD ⟨.f64, .x1⟩) ∧ decode 0x0071#16 = .legal (.sqrtD ⟨.f64, .x1⟩) ∧
    decode 0x0098#16 = .legal (.addcSS ⟨.f32, .x2⟩) ∧ decode 0x0110#16 = .legal (.addSS ⟨.f32, .x4⟩) ∧
    decode 0x01D3#16 = .legal (.addDD ⟨.f64, .x8⟩) ∧ decode 0x0231#16 = .legal (.sqrtD ⟨.f32, .x16⟩) ∧
    decode 0x010B#16 = .legal (.isnfin ⟨.f32, .x4⟩) ∧ decode 0x0061#16 = .legal (.mulDS ⟨.f64, .x1⟩) ∧
    decode 0x0047#16 = .legal (.norm ⟨.f64, .x1⟩)

/-- A step runs the decoded command. 60_exceptions.md R275, 10_state.md R23, 70_reset_and_hazards.md R311. -/
def Obligations.StepRunsDecodedCommand : Prop :=
  (∀ (s : State) (c : Command) (rest : List HostEvent) (i : Instr),
      s.halted = false → s.inFlight = none → s.host = .command c :: rest → decode c.cw = .legal i →
      step s = exec i { s with host := rest, inFlight := some c }) ∧
    ∀ (s : State) (c : Command) (i : Instr),
      s.halted = false → s.inFlight = some c → (s.host = [] ∨ ∃ d rest, s.host = .command d :: rest) →
      decode c.cw = .legal i → step s = exec i s

/-- Every step from every state gives a next state. 60_exceptions.md R273, 60_exceptions.md R276, 30_encoding.md
R68. That a fault's entry is a next state is the model's reading, log entry 3. -/
def Obligations.EveryStepGivesANextState : Prop :=
  ∀ s : State, ∃ t, step s = .next t

/-- A halted engine takes and answers nothing until reset. 60_exceptions.md R274. That the presented command leaves
`host` is the model's reading, log entry 6. -/
def Obligations.HaltedUntilReset : Prop :=
  (∀ s : State, s.halted = true → s.host = [] → step s = .next s) ∧
    (∀ (s : State) (c : Command) (rest : List HostEvent), s.halted = true → s.host = .command c :: rest →
      step s = .next { s with host := rest }) ∧
    ∀ s t : State, s.halted = true → step s = .next t → t.halted = false →
      ∃ rest, s.host = .reset :: rest ∨ ∃ c, s.host = .resetCatching c :: rest

/-- The whole effect of reset. 70_reset_and_hazards.md R300. The event `resetCatching` is the model's reading of "at
any time relative to commands", log entry 5. -/
def Obligations.ResetEventEffect : Prop :=
  ∀ (s : State) (rest : List HostEvent),
    (s.host = .reset :: rest ∨ ∃ c, s.host = .resetCatching c :: rest) →
    step s = .next { s with halted := false, faultCode := 0#2, inFlight := none, host := rest }

/-- What the state after reset holds. 10_state.md R32, 70_reset_and_hazards.md R301. -/
def Obligations.ResetStateFields : Prop :=
  State.reset.halted = false ∧ State.reset.faultCode = 0#2 ∧ State.reset.inFlight = none ∧
    State.reset.responses = [] ∧ ∀ s : State, (applyReset s).build = s.build

/-- Every step keeps the fault latch consistent. 10_state.md R28, 60_exceptions.md R273, 60_exceptions.md R274,
70_reset_and_hazards.md R300. -/
def Obligations.FaultLatchKeptByEveryStep : Prop :=
  ∀ s t : State, FaultLatch s → step s = .next t → FaultLatch t

/-- The fault latch is consistent after reset. 10_state.md R32, 10_state.md R28. -/
def Obligations.FaultLatchAtReset : Prop :=
  FaultLatch State.reset

/-- No command is left in flight by a step. 10_state.md R23, 10_state.md R24, 10_state.md R31. -/
def Obligations.NothingHeldBetweenCommands : Prop :=
  ∀ s t : State, s.inFlight = none → step s = .next t → t.inFlight = none

/-- Each accepted command gets exactly one response, a function of the command and the build. 10_state.md R23,
10_state.md R24, 60_exceptions.md R273. -/
def Obligations.OneResponsePerAcceptedCommand : Prop :=
  ∀ (s : State) (c : Command) (rest : List HostEvent),
    s.halted = false → s.inFlight = none → s.host = .command c :: rest →
    ∃ r, responseTo s.build c = some r ∧
      step s = .next { s with
        host := rest
        responses := s.responses ++ [r]
        halted := !r.isOk
        faultCode := if r.isOk then s.faultCode else statusOf r }

/-- A stream of commands is answered in order, each as if alone. 20_memory.md R46, 10_state.md R23, 10_state.md
R24, 60_exceptions.md R283. -/
def Obligations.CommandStreamAnsweredInOrder : Prop :=
  ∀ (cs : List Command) (rs : List Response) (later : List HostEvent) (s : State),
    s.halted = false → s.inFlight = none → s.host = cs.map .command ++ later →
    cs.map (responseTo s.build) = rs.map some → (∀ r ∈ rs, r.isOk = true) →
    Sys2Proof.core.run cs.length s = .next { s with host := later, responses := s.responses ++ rs }

/-- A fault is precise: earlier commands are answered, later ones are not executed. 60_exceptions.md R273,
60_exceptions.md R274, 10_state.md R23. That the later commands leave `host` is the model's reading, log entry 6. -/
def Obligations.FaultIsPreciseAndFinal : Prop :=
  ∀ (cs after : List Command) (rs : List Response) (c : Command) (f : Fault) (later : List HostEvent)
    (s : State),
    s.halted = false → s.inFlight = none →
    s.host = cs.map .command ++ .command c :: (after.map .command ++ later) →
    cs.map (responseTo s.build) = rs.map some → (∀ r ∈ rs, r.isOk = true) →
    responseTo s.build c = some (.fault f) →
    Sys2Proof.core.run (cs.length + 1 + after.length) s =
      .next { s with
        host := later
        responses := s.responses ++ rs ++ [.fault f]
        halted := true
        faultCode := faultCodeOf f }

/-- Operand bits a command does not read cannot affect anything. 10_state.md R25, 30_encoding.md R64. -/
def Obligations.UnreadOperandBitsIgnored : Prop :=
  ∀ (i : Instr) (s : State) (c d : Command), AgreeOnRead i c d →
    exec i { s with inFlight := some c } = exec i { s with inFlight := some d }

/-- Result bits above the lanes, and R.lo of a plain or mask result, are zero. 10_state.md R25,
46_lanes_and_fma.md R250. -/
def Obligations.UnusedResultBitsAreZero : Prop :=
  ∀ (i : Instr) (s : State) (rHi rLo : Port), exec i s = .next (answeredWith s (.ok rHi rLo)) →
    (∀ b, i.shape.kind.width * i.shape.lanes.count ≤ b → rHi.getLsbD b = false ∧ rLo.getLsbD b = false) ∧
    (i.resultClass ≠ .doubled → rLo = 0)

/-- Every lane computes what the scalar command computes on its operands. 46_lanes_and_fma.md R251,
46_lanes_and_fma.md R256. -/
def Obligations.LanesAreIndependent : Prop :=
  ∀ (i : Instr) (s : State) (c : Command) (rHi rLo : Port) (j : Nat),
    s.inFlight = some c → exec i s = .next (answeredWith s (.ok rHi rLo)) → j < i.shape.lanes.count →
    ∃ qHi qLo,
      exec (scalarOf i) { s with
          inFlight := some (laneOperands i.shape.kind c j), build := ⟨s.build.hasFma, false⟩ } =
        .next (answeredWith { s with build := ⟨s.build.hasFma, false⟩ } (.ok qHi qLo)) ∧
      lane i.shape.kind rHi j = lane i.shape.kind qHi 0 ∧ lane i.shape.kind rLo j = lane i.shape.kind qLo 0

/-- A legal command of two or more lanes never faults. 46_lanes_and_fma.md R256, 46_lanes_and_fma.md R257,
44_checked_addition.md R223. -/
def Obligations.VectorCommandsNeverFault : Prop :=
  ∀ (i : Instr) (s : State), i.wellFormed = true → i.shape.lanes ≠ .x1 →
    ∃ rHi rLo, exec i s = .next (answeredWith s (.ok rHi rLo))

/-- When a checked command raises OrderViolation. R221, R223, R272. -/
def Obligations.OrderViolationExactly : Prop :=
  ∀ (sh : Shape) (s : State) (c : Command), s.inFlight = some c →
    ∀ i ∈ [Instr.addcSS sh, .addcDS sh, .addcSD sh, .addcDD sh, .subcDS sh, .subcDD sh],
      exec i s = .next (faultedWith s .orderViolation 2#2) ↔
        (s.build.checkOrder = true ∧ sh.lanes = .x1 ∧
          orderOk (lane sh.kind c.aHi 0)
            (if i = .subcDS sh ∨ i = .subcDD sh then fneg (lane sh.kind c.bHi 0) else lane sh.kind c.bHi 0) =
            false)

/-- The 23 commands that do not multiply do the same on both HAS_FMA builds. 46_lanes_and_fma.md R255. -/
def Obligations.FmaParameterUnused : Prop :=
  ∀ (i : Instr) (s t : State) (b : Bool), i.usesFma = false → exec i s = .next t →
    exec i { s with build := ⟨b, s.build.checkOrder⟩ } = .next { t with build := ⟨b, s.build.checkOrder⟩ }

/-- CHECK_ORDER matters to scalar checked commands only. 46_lanes_and_fma.md R259, 44_checked_addition.md R223. -/
def Obligations.CheckOrderParameterUnused : Prop :=
  ∀ (i : Instr) (s t : State) (b : Bool), (i.isChecked = false ∨ i.shape.lanes ≠ .x1) → exec i s = .next t →
    exec i { s with build := ⟨s.build.hasFma, b⟩ } = .next { t with build := ⟨s.build.hasFma, b⟩ }

/-- No step changes a build parameter. 00_scope.md R2, 70_reset_and_hazards.md R301. -/
def Obligations.BuildParametersAreFixed : Prop :=
  ∀ s t : State, step s = .next t → t.build = s.build

/-- UPPER clears the low significand bits of every lane. R120. -/
def Obligations.UpperCompletes : Prop :=
  (∀ (l : Lanes) (s : State) (c : Command), Shape.legal ⟨.f32, l⟩ = true → s.inFlight = some c →
      CompletesPlain (.upper ⟨.f32, l⟩) s ⟨.f32, l⟩ (fun j => lane .f32 c.aHi j &&& 0xFFFFF000#32)) ∧
    ∀ (l : Lanes) (s : State) (c : Command), Shape.legal ⟨.f64, l⟩ = true → s.inFlight = some c →
      CompletesPlain (.upper ⟨.f64, l⟩) s ⟨.f64, l⟩ (fun j => lane .f64 c.aHi j &&& 0xFFFFFFFFF8000000#64)

/-- WIDEN, NARROW and PACK: results in every lane. R160, R161, R162. -/
def Obligations.WidenNarrowPackComplete : Prop :=
  ∀ (sh : Shape) (s : State) (c : Command), sh.legal = true → s.inFlight = some c →
    CompletesDoubled (.widen sh) s sh (fun j =>
      let a := lane sh.kind c.aHi j
      ⟨a, 0#sh.kind.width⟩) ∧
    CompletesPlain (.narrow sh) s sh (fun j =>
      let xHi := lane sh.kind c.aHi j
      let xLo := lane sh.kind c.aLo j
      fadd xHi xLo) ∧
    CompletesDoubled (.pack sh) s sh (fun j =>
      let a := lane sh.kind c.aHi j
      let b := lane sh.kind c.bHi j
      ⟨a, b⟩)

/-- NEG and ABS: results in every lane. R163, R164. -/
def Obligations.NegAbsComplete : Prop :=
  ∀ (sh : Shape) (s : State) (c : Command), sh.legal = true → s.inFlight = some c →
    CompletesDoubled (.neg sh) s sh (fun j =>
      let xHi := lane sh.kind c.aHi j
      let xLo := lane sh.kind c.aLo j
      ⟨xHi ^^^ BitVec.ofNat _ (2 ^ (sh.kind.width - 1)), xLo ^^^ BitVec.ofNat _ (2 ^ (sh.kind.width - 1))⟩) ∧
    CompletesDoubled (.abs sh) s sh (fun j =>
      let xHi := lane sh.kind c.aHi j
      let xLo := lane sh.kind c.aLo j
      if xHi.getLsbD (sh.kind.width - 1) then
        ⟨xHi ^^^ BitVec.ofNat _ (2 ^ (sh.kind.width - 1)), xLo ^^^ BitVec.ofNat _ (2 ^ (sh.kind.width - 1))⟩
      else ⟨xHi, xLo⟩)

/-- NORM and SCALE: results in every lane. 42_doubled_addsub.md R165, 42_doubled_addsub.md R166. -/
def Obligations.NormScaleComplete : Prop :=
  ∀ (sh : Shape) (s : State) (c : Command), sh.legal = true → s.inFlight = some c →
    CompletesDoubled (.norm sh) s sh (fun j =>
      let a := lane sh.kind c.aHi j
      let b := lane sh.kind c.aLo j
      let r := fadd a b
      let v := fsub r a
      let t1 := fsub r v
      let t2 := fsub a t1
      let t3 := fsub b v
      let e := fadd t2 t3
      ⟨r, e⟩) ∧
    CompletesDoubled (.scale sh) s sh (fun j =>
      let xHi := lane sh.kind c.aHi j
      let xLo := lane sh.kind c.aLo j
      let b := lane sh.kind c.bHi j
      ⟨fmul xHi b, fmul xLo b⟩)

/-- ISINF, ISNAN and ISNFIN: masks in every lane. R240, R241, R242. -/
def Obligations.ClassifyComplete : Prop :=
  ∀ (sh : Shape) (s : State) (c : Command), sh.legal = true → s.inFlight = some c →
    CompletesPlain (.isinf sh) s sh (fun j =>
      let a := lane sh.kind c.aHi j
      if a.toNat % 2 ^ (sh.kind.width - 1) = (match sh.kind with | .f32 => 0x7F800000 | .f64 => 0x7FF0000000000000)
      then BitVec.allOnes sh.kind.width else 0#sh.kind.width) ∧
    CompletesPlain (.isnan sh) s sh (fun j =>
      let a := lane sh.kind c.aHi j
      if a.toNat % 2 ^ (sh.kind.width - 1) > (match sh.kind with | .f32 => 0x7F800000 | .f64 => 0x7FF0000000000000)
      then BitVec.allOnes sh.kind.width else 0#sh.kind.width) ∧
    CompletesPlain (.isnfin sh) s sh (fun j =>
      let a := lane sh.kind c.aHi j
      if a.toNat % 2 ^ (sh.kind.width - 1) ≥ (match sh.kind with | .f32 => 0x7F800000 | .f64 => 0x7FF0000000000000)
      then BitVec.allOnes sh.kind.width else 0#sh.kind.width)

/-- ADD.SS is Knuth's two-sum in every lane. R140. -/
def Obligations.AddSSCompletes : Prop :=
  ∀ (sh : Shape) (s : State) (c : Command), sh.legal = true → s.inFlight = some c →
    CompletesDoubled (.addSS sh) s sh (fun j =>
      let a := lane sh.kind c.aHi j
      let b := lane sh.kind c.bHi j
      let r := fadd a b
      let v := fsub r a
      let t1 := fsub r v
      let t2 := fsub a t1
      let t3 := fsub b v
      let e := fadd t2 t3
      ⟨r, e⟩)

/-- ADD.DS, ADD.SD and ADD.DD: results in every lane. R170, R171, R172. -/
def Obligations.AddDoubledComplete : Prop :=
  ∀ (sh : Shape) (s : State) (c : Command), sh.legal = true → s.inFlight = some c →
    CompletesDoubled (.addDS sh) s sh (fun j =>
      let xHi := lane sh.kind c.aHi j
      let xLo := lane sh.kind c.aLo j
      let b := lane sh.kind c.bHi j
      let r := fadd xHi b
      let v := fsub r xHi
      let t1 := fsub r v
      let t2 := fsub xHi t1
      let t3 := fsub b v
      let e := fadd t2 t3
      ⟨r, fadd e xLo⟩) ∧
    CompletesDoubled (.addSD sh) s sh (fun j =>
      let a := lane sh.kind c.aHi j
      let yHi := lane sh.kind c.bHi j
      let yLo := lane sh.kind c.bLo j
      let r := fadd a yHi
      let v := fsub r a
      let t1 := fsub r v
      let t2 := fsub a t1
      let t3 := fsub yHi v
      let e := fadd t2 t3
      ⟨r, fadd e yLo⟩) ∧
    CompletesDoubled (.addDD sh) s sh (fun j =>
      let xHi := lane sh.kind c.aHi j
      let xLo := lane sh.kind c.aLo j
      let yHi := lane sh.kind c.bHi j
      let yLo := lane sh.kind c.bLo j
      let r := fadd xHi yHi
      let v := fsub r xHi
      let t1 := fsub r v
      let t2 := fsub xHi t1
      let t3 := fsub yHi v
      let e := fadd t2 t3
      let w := fadd xLo yLo
      ⟨r, fadd e w⟩)

/-- SUB.DS and SUB.DD: results in every lane. R173, R174. -/
def Obligations.SubDoubledComplete : Prop :=
  ∀ (sh : Shape) (s : State) (c : Command), sh.legal = true → s.inFlight = some c →
    CompletesDoubled (.subDS sh) s sh (fun j =>
      let xHi := lane sh.kind c.aHi j
      let xLo := lane sh.kind c.aLo j
      let b := fneg (lane sh.kind c.bHi j)
      let r := fadd xHi b
      let v := fsub r xHi
      let t1 := fsub r v
      let t2 := fsub xHi t1
      let t3 := fsub b v
      let e := fadd t2 t3
      ⟨r, fadd e xLo⟩) ∧
    CompletesDoubled (.subDD sh) s sh (fun j =>
      let xHi := lane sh.kind c.aHi j
      let xLo := lane sh.kind c.aLo j
      let yHi := fneg (lane sh.kind c.bHi j)
      let yLo := fneg (lane sh.kind c.bLo j)
      let r := fadd xHi yHi
      let v := fsub r xHi
      let t1 := fsub r v
      let t2 := fsub xHi t1
      let t3 := fsub yHi v
      let e := fadd t2 t3
      let w := fadd xLo yLo
      ⟨r, fadd e w⟩)

/-- The checked additions complete when the check does not fail. 44_checked_addition.md R226,
44_checked_addition.md R227, 44_checked_addition.md R228, 44_checked_addition.md R229, 44_checked_addition.md
R224. -/
def Obligations.AddcComplete : Prop :=
  ∀ (sh : Shape) (s : State) (c : Command), sh.legal = true → s.inFlight = some c →
    (s.build.checkOrder = false ∨ sh.lanes ≠ .x1 ∨ orderOk (lane sh.kind c.aHi 0) (lane sh.kind c.bHi 0) = true) →
    CompletesDoubled (.addcSS sh) s sh (fun j =>
      let a := lane sh.kind c.aHi j
      let b := lane sh.kind c.bHi j
      let r := fadd a b
      ⟨r, fadd (fsub a r) b⟩) ∧
    CompletesDoubled (.addcDS sh) s sh (fun j =>
      let xHi := lane sh.kind c.aHi j
      let xLo := lane sh.kind c.aLo j
      let b := lane sh.kind c.bHi j
      let r := fadd xHi b
      let e := fadd (fsub xHi r) b
      ⟨r, fadd e xLo⟩) ∧
    CompletesDoubled (.addcSD sh) s sh (fun j =>
      let a := lane sh.kind c.aHi j
      let yHi := lane sh.kind c.bHi j
      let yLo := lane sh.kind c.bLo j
      let r := fadd a yHi
      let e := fadd (fsub a r) yHi
      ⟨r, fadd e yLo⟩) ∧
    CompletesDoubled (.addcDD sh) s sh (fun j =>
      let xHi := lane sh.kind c.aHi j
      let xLo := lane sh.kind c.aLo j
      let yHi := lane sh.kind c.bHi j
      let yLo := lane sh.kind c.bLo j
      let r := fadd xHi yHi
      let e := fadd (fsub xHi r) yHi
      ⟨r, fadd (fadd e xLo) yLo⟩)

/-- The checked subtractions complete when the check does not fail. 44_checked_addition.md R230,
44_checked_addition.md R231, 44_checked_addition.md R224. -/
def Obligations.SubcComplete : Prop :=
  ∀ (sh : Shape) (s : State) (c : Command), sh.legal = true → s.inFlight = some c →
    (s.build.checkOrder = false ∨ sh.lanes ≠ .x1 ∨ orderOk (lane sh.kind c.aHi 0) (fneg (lane sh.kind c.bHi 0)) = true) →
    CompletesDoubled (.subcDS sh) s sh (fun j =>
      let xHi := lane sh.kind c.aHi j
      let xLo := lane sh.kind c.aLo j
      let b := lane sh.kind c.bHi j
      let r := fsub xHi b
      let e := fsub (fsub xHi r) b
      ⟨r, fadd e xLo⟩) ∧
    CompletesDoubled (.subcDD sh) s sh (fun j =>
      let xHi := lane sh.kind c.aHi j
      let xLo := lane sh.kind c.aLo j
      let yHi := lane sh.kind c.bHi j
      let yLo := lane sh.kind c.bLo j
      let r := fsub xHi yHi
      let e := fsub (fsub xHi r) yHi
      ⟨r, fsub (fadd e xLo) yLo⟩)

/-- MUL.SS is the two-product of its path in every lane. R141. -/
def Obligations.MulSSCompletes : Prop :=
  ∀ (sh : Shape) (s : State) (c : Command), sh.legal = true → s.inFlight = some c →
    CompletesDoubled (.mulSS sh) s sh (fun j =>
      let a := lane sh.kind c.aHi j
      let b := lane sh.kind c.bHi j
      let r := fmul a b
      if s.build.hasFma then ⟨r, fma a b (fneg r)⟩
      else
        let ah := upper (a)
        let al := fsub (a) ah
        let bh := upper (b)
        let bl := fsub (b) bh
        let t := fsub (fmul ah bh) r
        let t := fadd t (fmul al bh)
        let t := fadd t (fmul ah bl)
        let t := fadd t (fmul al bl)
        ⟨r, t⟩)

/-- MUL.DS and MUL.DD: results in every lane on both paths. R190, R191. -/
def Obligations.MulDoubledComplete : Prop :=
  ∀ (sh : Shape) (s : State) (c : Command), sh.legal = true → s.inFlight = some c →
    CompletesDoubled (.mulDS sh) s sh (fun j =>
      let xHi := lane sh.kind c.aHi j
      let xLo := lane sh.kind c.aLo j
      let b := lane sh.kind c.bHi j
      let p := fmul xHi b
      if s.build.hasFma then ⟨p, fma xLo b (fma xHi b (fneg p))⟩
      else
        let xh := upper (xHi)
        let xl := fsub (xHi) xh
        let bh := upper (b)
        let bl := fsub (b) bh
        let t := fsub (fmul xh bh) p
        let t := fadd t (fmul xl bh)
        let t := fadd t (fmul xh bl)
        let t := fadd t (fmul xl bl)
        let t := fadd t (fmul xLo b)
        ⟨p, t⟩) ∧
    CompletesDoubled (.mulDD sh) s sh (fun j =>
      let xHi := lane sh.kind c.aHi j
      let xLo := lane sh.kind c.aLo j
      let yHi := lane sh.kind c.bHi j
      let yLo := lane sh.kind c.bLo j
      let p := fmul xHi yHi
      if s.build.hasFma then ⟨p, fma xHi yLo (fma xLo yHi (fma xHi yHi (fneg p)))⟩
      else
        let xh := upper (xHi)
        let xl := fsub (xHi) xh
        let yh := upper (yHi)
        let yl := fsub (yHi) yh
        let t := fsub (fmul xh yh) p
        let t := fadd t (fmul xl yh)
        let t := fadd t (fmul xh yl)
        let t := fadd t (fmul xl yl)
        let t := fadd t (fmul xHi yLo)
        let t := fadd t (fmul xLo yHi)
        ⟨p, t⟩)

/-- MULF.DD and SQUF.D: plain results in every lane on both paths. R192, R194. -/
def Obligations.PlainProductsComplete : Prop :=
  ∀ (sh : Shape) (s : State) (c : Command), sh.legal = true → s.inFlight = some c →
    CompletesPlain (.mulfDD sh) s sh (fun j =>
      let xHi := lane sh.kind c.aHi j
      let xLo := lane sh.kind c.aLo j
      let yHi := lane sh.kind c.bHi j
      let yLo := lane sh.kind c.bLo j
      if s.build.hasFma then fma xHi yHi (fma xLo yHi (fmul xHi yLo))
      else
        let xh := upper (xHi)
        let xl := fsub (xHi) xh
        let yh := upper (yHi)
        let yl := fsub (yHi) yh
        let t := fadd (fmul xLo yh) (fmul xh yLo)
        let t := fadd t (fmul xl yl)
        let t := fadd t (fmul xh yl)
        let t := fadd t (fmul xl yh)
        fadd t (fmul xh yh)) ∧
    CompletesPlain (.squfD sh) s sh (fun j =>
      let xHi := lane sh.kind c.aHi j
      let xLo := lane sh.kind c.aLo j
      if s.build.hasFma then fma xHi xHi (fadd (fmul xHi xLo) (fmul xHi xLo))
      else
        let xh := upper (xHi)
        let xl := fsub (xHi) xh
        let t := fadd (fmul xh xLo) (fmul xh xLo)
        let t := fadd t (fmul xl xl)
        let t := fadd t (fadd (fmul xh xl) (fmul xh xl))
        fadd t (fmul xh xh))

/-- SQU.D: result in every lane on both paths. R193. -/
def Obligations.SquDCompletes : Prop :=
  ∀ (sh : Shape) (s : State) (c : Command), sh.legal = true → s.inFlight = some c →
    CompletesDoubled (.squD sh) s sh (fun j =>
      let xHi := lane sh.kind c.aHi j
      let xLo := lane sh.kind c.aLo j
      let p := fmul xHi xHi
      if s.build.hasFma then ⟨p, fma (fadd xHi xHi) xLo (fma xHi xHi (fneg p))⟩
      else
        let xh := upper (xHi)
        let xl := fsub (xHi) xh
        let t := fsub (fmul xh xh) p
        let t := fadd t (fmul (fadd xh xh) xl)
        let t := fadd t (fmul xl xl)
        let t := fadd t (fmul xHi (fadd xLo xLo))
        ⟨p, t⟩)

/-- RECIP.S and RECIP.D: results in every lane on both paths. R142, R143, R195. -/
def Obligations.RecipComplete : Prop :=
  ∀ (sh : Shape) (s : State) (c : Command), sh.legal = true → s.inFlight = some c →
    CompletesDoubled (.recipS sh) s sh (fun j =>
      let d := lane sh.kind c.aHi j
      let t := fdiv (one sh.kind) d
      if s.build.hasFma then ⟨t, fmul t (fma (fneg d) t (one sh.kind))⟩
      else
        let dh := upper (d)
        let dl := fsub (d) dh
        let th := upper (t)
        let tl := fsub (t) th
        let u := fsub (one sh.kind) (fmul dh th)
        let u := fsub u (fmul dh tl)
        let u := fsub u (fmul dl th)
        let u := fsub u (fmul dl tl)
        ⟨t, fmul t u⟩) ∧
    CompletesDoubled (.recipD sh) s sh (fun j =>
      let dHi := lane sh.kind c.aHi j
      let dLo := lane sh.kind c.aLo j
      let t := fdiv (one sh.kind) dHi
      if s.build.hasFma then ⟨t, fmul t (fma (fneg dLo) t (fma (fneg dHi) t (one sh.kind)))⟩
      else
        let dh := upper (dHi)
        let dl := fsub (dHi) dh
        let th := upper (t)
        let tl := fsub (t) th
        let u := fsub (one sh.kind) (fmul dh th)
        let u := fsub u (fmul dh tl)
        let u := fsub u (fmul dl th)
        let u := fsub u (fmul dl tl)
        let u := fsub u (fmul dLo t)
        ⟨t, fmul t u⟩)

/-- DIV.DD: result in every lane on both paths. R196. -/
def Obligations.DivDDCompletes : Prop :=
  ∀ (sh : Shape) (s : State) (c : Command), sh.legal = true → s.inFlight = some c →
    CompletesDoubled (.divDD sh) s sh (fun j =>
      let nHi := lane sh.kind c.aHi j
      let nLo := lane sh.kind c.aLo j
      let dHi := lane sh.kind c.bHi j
      let dLo := lane sh.kind c.bLo j
      let t := fdiv (one sh.kind) dHi
      let q := fmul nHi t
      if s.build.hasFma then
        let u := fma t nHi (fneg q)
        let w := fma (fneg dHi) t (one sh.kind)
        let w := fma (fneg dLo) t w
        let e := fma nLo t u
        ⟨q, fma q w e⟩
      else
        let dh := upper (dHi)
        let dl := fsub (dHi) dh
        let th := upper (t)
        let tl := fsub (t) th
        let nh := upper (nHi)
        let nl := fsub (nHi) nh
        let w := fsub (one sh.kind) (fmul dh th)
        let w := fsub w (fmul dh tl)
        let w := fsub w (fmul dl th)
        let w := fsub w (fmul dl tl)
        let u := fadd (fneg q) (fmul nh th)
        let u := fadd u (fmul nh tl)
        let u := fadd u (fmul nl th)
        let u := fadd u (fmul nl tl)
        let u := fadd u (fmul q w)
        ⟨q, fadd (fmul t (fsub nLo (fmul q dLo))) u⟩)

/-- SQRT.D: the Newton step in every lane on both paths. R197. -/
def Obligations.SqrtDCompletes : Prop :=
  ∀ (sh : Shape) (s : State) (c : Command), sh.legal = true → s.inFlight = some c →
    CompletesDoubled (.sqrtD sh) s sh (fun j =>
      let xHi := lane sh.kind c.aHi j
      let xLo := lane sh.kind c.aLo j
      let t := fsqrt (fadd xHi xLo)
      let p := twoProd s.build.hasFma t t
      let r := fadd xHi p.hi
      let v := fsub r xHi
      let e := fadd (fsub xHi (fsub r v)) (fsub p.hi v)
      let q := recipS s.build.hasFma t
      let m := mulDD s.build.hasFma ⟨r, fadd e (fadd xLo p.lo)⟩ q
      ⟨fmul m.hi (half sh.kind), fmul m.lo (half sh.kind)⟩)

/-- Rounding the value of a finite nonzero word gives the word. 40_primitives_and_split.md R101,
40_primitives_and_split.md R102. -/
def Obligations.RoundingFixesRepresentable : Prop :=
  ∀ (k : Kind) (a : Word k), isFinite a = true → isZero a = false → rn k (value a) = a

/-- Rounding is to a nearest word, ties to the even significand, with overflow to infinity: the sign, the value and the
class of `rn k q` for every nonzero `q`. 40_primitives_and_split.md R102. -/
def Obligations.RoundingIsNearest : Prop :=
  ∀ (k : Kind) (q : ℚ), q ≠ 0 →
    signBit (rn k q) = decide (q < 0) ∧
    (isFinite (rn k q) = true →
      ∀ w : Word k, isFinite w = true → |value (rn k q) - q| ≤ |value w - q| ∧
        (|value (rn k q) - q| = |value w - q| → value w ≠ value (rn k q) → significand (rn k q) % 2 = 0)) ∧
    (isFinite (rn k q) = false ↔
      ((2 : ℚ) ^ prec k - 1 / 2) * (2 : ℚ) ^ (emax k - ((prec k : Int) - 1)) ≤ |q|) ∧
    (isFinite (rn k q) = false → rn k q = infinity k (decide (q < 0)))

/-- The square root is a finite word nearest to the exact square root. 40_primitives_and_split.md R108. -/
def Obligations.SquareRootIsNearest : Prop :=
  ∀ (k : Kind) (a : Word k), isFinite a = true → isZero a = false → signBit a = false →
    isFinite (fsqrt a) = true ∧ signBit (fsqrt a) = false ∧
    ∀ w : Word k, isFinite w = true →
      |((value (fsqrt a) : ℚ) : ℝ) - Real.sqrt ((value a : ℚ) : ℝ)| ≤
        |((value w : ℚ) : ℝ) - Real.sqrt ((value a : ℚ) : ℝ)|

/-- The split of a finite word is exact. 40_primitives_and_split.md R121. -/
def Obligations.SplitIsExact : Prop :=
  ∀ (k : Kind) (a : Word k), isFinite a = true →
    isFinite (upper a) = true ∧ isFinite (fsub a (upper a)) = true ∧
    value (upper a) + value (fsub a (upper a)) = value a

/-- Knuth's two-sum is exact. 41_error_free_transforms.md R144 (a), 41_error_free_transforms.md R140,
70_reset_and_hazards.md R306. The premise on `b` is not the spec's: log entry 11. -/
def Obligations.TwoSumIsExact : Prop :=
  ∀ (k : Kind) (a b : Word k), isFinite a = true → isFinite b = true → isFinite (fadd a b) = true →
    |value b| < maxFinite k →
    (twoSum a b).hi = fadd a b ∧ isFinite (twoSum a b).lo = true ∧
    value (twoSum a b).hi + value (twoSum a b).lo = value a + value b

/-- R144 (a) as the spec words it, which the pseudocode of R140 does not meet: expected to be refuted, log entry 11.
41_error_free_transforms.md R144 (a), 70_reset_and_hazards.md R306. -/
def Obligations.TwoSumIsExactForAllFiniteOperands : Prop :=
  ∀ (k : Kind) (a b : Word k), isFinite a = true → isFinite b = true → isFinite (fadd a b) = true →
    isFinite (twoSum a b).lo = true ∧
    value (twoSum a b).hi + value (twoSum a b).lo = value a + value b

/-- The two-sum of every pair of finite words: a NaN error term where `r` or `r -. a` overflows, the latter only for `b`
of the largest finite magnitude; else the error term is exact and at most half a unit in the last place of `r`. The
clause of `r -. a` is the model's reading of R140 where R144 (a) leaves it out: log entry 11.
41_error_free_transforms.md R140, 41_error_free_transforms.md R144 (a), 41_error_free_transforms.md R144 (b),
00_scope.md R19. -/
def Obligations.TwoSumOfFiniteOperands : Prop :=
  ∀ (k : Kind) (a b : Word k), isFinite a = true → isFinite b = true →
    let r := fadd a b
    let v := fsub r a
    (twoSum a b).hi = r ∧
    (isFinite r = false → isInfinity r = true ∧ (twoSum a b).lo = qnan k) ∧
    (isFinite r = true → isFinite v = false → |value b| = maxFinite k ∧ (twoSum a b).lo = qnan k) ∧
    (isFinite r = true → isFinite v = true →
      isFinite (twoSum a b).lo = true ∧ value r + value (twoSum a b).lo = value a + value b ∧
      |value (twoSum a b).lo| ≤ (2 : ℚ) ^ unitExp r / 2)

/-- The fast two-sum is exact when the first operand is not smaller. 44_checked_addition.md R225,
44_checked_addition.md R232. -/
def Obligations.FastTwoSumIsExact : Prop :=
  ∀ (k : Kind) (a b : Word k), isFinite a = true → isFinite b = true → |value b| ≤ |value a| →
    isFinite (fadd a b) = true →
    isFinite (fastTwoSum a b).lo = true ∧
    value (fastTwoSum a b).hi + value (fastTwoSum a b).lo = value a + value b

/-- The FMA path of the two-product is exact when the error is representable. 41_error_free_transforms.md R146
(a). -/
def Obligations.FusedProductErrorIsExact : Prop :=
  ∀ (k : Kind) (a b w : Word k), isFinite a = true → isFinite b = true → isFinite (fmul a b) = true →
    isFinite w = true → value w = value a * value b - value (fmul a b) →
    isFinite (twoProd true a b).lo = true ∧
    value (twoProd true a b).hi + value (twoProd true a b).lo = value a * value b

/-- The two-sum of NaNs, infinities, opposites and zeros. 41_error_free_transforms.md R144 (c),
41_error_free_transforms.md R144 (d), 41_error_free_transforms.md R144 (e). -/
def Obligations.TwoSumSpecialOperands : Prop :=
  ∀ (k : Kind) (a b : Word k),
    (isNan a = true ∨ isNan b = true → twoSum a b = ⟨qnan k, qnan k⟩) ∧
    (isInfinity a = true → isFinite b = true → twoSum a b = ⟨a, qnan k⟩) ∧
    (isFinite a = true → isInfinity b = true → twoSum a b = ⟨b, qnan k⟩) ∧
    (isInfinity a = true → twoSum a a = ⟨a, qnan k⟩ ∧ twoSum a (fneg a) = ⟨qnan k, qnan k⟩) ∧
    (isFinite a = true → isZero a = false → twoSum a (fneg a) = ⟨zero k false, zero k false⟩) ∧
    ∀ m n : Bool, twoSum (zero k m) (zero k n) = ⟨zero k (m && n), zero k false⟩

/-- NARROW of WIDEN gives the operand back, up to the sign of zero. R167. -/
def Obligations.WidenNarrowRoundTrip : Prop :=
  ∀ (bld : Build) (sh : Shape) (a b : HostValue), sh.legal = true →
    ∃ wHi wLo nHi, responseTo bld (commandOf (.widen sh) a b) = some (.ok wHi wLo) ∧
      responseTo bld (commandOf (.narrow sh) ⟨wHi, wLo⟩ b) = some (.ok nHi 0) ∧
      HoldsLanes sh nHi (fun j =>
        let w := lane sh.kind a.hi j
        if isNan w then qnan sh.kind else if isZero w then zero sh.kind false else w)

/-- RECIP.D of a pair with trailing +0 is RECIP.S of its leading component, unless the seed of a nonzero divisor
overflows on the FMA path. 43_doubled_muldiv.md R195, whose derived remark leaves that case out: log entry 11. -/
def Obligations.RecipDOfPlainValueIsRecipS : Prop :=
  ∀ (k : Kind) (hasFma : Bool) (d : Word k),
    hasFma = false ∨ isZero d = true ∨ isInfinity (recipSeed d) = false →
    recipD hasFma ⟨d, zero k false⟩ = recipS hasFma d

/-- SUB.DD x, x and SUBC.DD x, x are (+0, +0) for finite x, and the latter never faults. 42_doubled_addsub.md
R174, 44_checked_addition.md R231. -/
def Obligations.DifferenceWithItselfIsZero : Prop :=
  ∀ (sh : Shape) (s : State) (c : Command), sh.legal = true → s.inFlight = some c →
    c.bHi = c.aHi → c.bLo = c.aLo →
    (∀ j, j < sh.lanes.count → isFinite (lane sh.kind c.aHi j) = true ∧ isFinite (lane sh.kind c.aLo j) = true) →
    exec (.subDD sh) s = .next (answeredWith s (.ok 0 0)) ∧
    exec (.subcDD sh) s = .next (answeredWith s (.ok 0 0))

/-- What order_ok means, in values. R222. -/
def Obligations.OrderPredicateMeaning : Prop :=
  (∀ a b : Word .f32, orderOk a b = true ↔
      (isFinite a = false ∨ isFinite b = false ∨ |value b| ≤ |value a|)) ∧
    ∀ a b : Word .f64, orderOk a b = true ↔
      (isFinite a = false ∨ isFinite b = false ∨ |value b| ≤ |value a| ∨
        (isFinite (fadd a b) = true ∧ |value (fadd a b)| ≤ |value a| ∧ |value (fadd a b)| ≤ |value b|))

/-- What the quiet comparisons mean, on every pair of words. R111. -/
def Obligations.QuietComparisonsMeaning : Prop :=
  ∀ (k : Kind) (a b : Word k),
    (isNan a = true ∨ isNan b = true → feq a b = false ∧ flt a b = false ∧ fle a b = false ∧ fge a b = false) ∧
    (isFinite a = true → isFinite b = true →
      (feq a b = true ↔ value a = value b) ∧ (flt a b = true ↔ value a < value b) ∧
      (fle a b = true ↔ value a ≤ value b) ∧ (fge a b = true ↔ value a ≥ value b)) ∧
    (isFinite a = true →
      ComparesAs .lt (infinity k true) a ∧ ComparesAs .gt a (infinity k true) ∧
      ComparesAs .gt (infinity k false) a ∧ ComparesAs .lt a (infinity k false)) ∧
    ComparesAs .lt (infinity k true) (infinity k false) ∧ ComparesAs .gt (infinity k false) (infinity k true) ∧
    (∀ n, ComparesAs .eq (infinity k n) (infinity k n)) ∧
    (∀ m n, ComparesAs .eq (zero k m) (zero k n)) ∧
    (feq a a = false ↔ isNan a = true)

/-- An f64 lane is two f32 lanes. 20_memory.md R41, 46_lanes_and_fma.md R250. -/
def Obligations.MixedWidthView : Prop :=
  ∀ (p : Port) (j : Nat), lane .f64 p j = (lane .f32 p (2 * j + 1) ++ lane .f32 p (2 * j) : BitVec 64)

/-- What the pseudo-instructions that expand to more than a renamed command leave. 30_encoding.md R70. -/
def Obligations.PseudoInstructionsExpand : Prop :=
  ∀ (bld : Build) (sh : Shape) (x y : HostValue), sh.legal = true →
    (∃ v, (Pseudo.divDS x y).run bld sh = some v ∧
      (∀ j, j < sh.lanes.count → (⟨lane sh.kind v.hi j, lane sh.kind v.lo j⟩ : Doubled sh.kind) =
        divDD bld.hasFma ⟨lane sh.kind x.hi j, lane sh.kind x.lo j⟩ ⟨lane sh.kind y.hi j, zero sh.kind false⟩)) ∧
    (∃ v, (Pseudo.subSD x y).run bld sh = some v ∧
      (∀ j, j < sh.lanes.count → (⟨lane sh.kind v.hi j, lane sh.kind v.lo j⟩ : Doubled sh.kind) =
        addSD (lane sh.kind x.hi j) ⟨fneg (lane sh.kind y.hi j), fneg (lane sh.kind y.lo j)⟩)) ∧
    (∃ v, (Pseudo.subSS x y).run bld sh = some v ∧
      (∀ j, j < sh.lanes.count → (⟨lane sh.kind v.hi j, lane sh.kind v.lo j⟩ : Doubled sh.kind) =
        twoSum (lane sh.kind x.hi j) (fneg (lane sh.kind y.hi j)))) ∧
    ∃ v, (Pseudo.mulSD x y).run bld sh = some v ∧
      ∀ j, j < sh.lanes.count → (⟨lane sh.kind v.hi j, lane sh.kind v.lo j⟩ : Doubled sh.kind) =
        mulDS bld.hasFma ⟨lane sh.kind y.hi j, lane sh.kind y.lo j⟩ (lane sh.kind x.hi j)
end

