-- ==== Sys2Proof/Laws/Decode.lean ====
section
/-! SUPPORT. The fields of a command word (30_encoding.md R60, R61) and what the decoder does with them (R67, R68). -/

namespace Sys2Proof

/-- The bits of a word put together from its fields. -/
theorem getLsbD_word (r : BitVec 6) (l : BitVec 3) (e : BitVec 1) (o : BitVec 6) (b : Nat) :
    BitVec.getLsbD (w := 16) (r ++ l ++ e ++ o) b =
      if b < 6 then o.getLsbD b
      else if b - 6 < 1 then e.getLsbD (b - 6)
      else if b - 6 - 1 < 3 then l.getLsbD (b - 6 - 1)
      else r.getLsbD (b - 6 - 1 - 3) := by
  have h3 := BitVec.getLsbD_append (x := r ++ l ++ e) (y := o) (i := b)
  have h2 := BitVec.getLsbD_append (x := r ++ l) (y := e) (i := b - 6)
  have h1 := BitVec.getLsbD_append (x := r) (y := l) (i := b - 6 - 1)
  rw [h1] at h2
  rw [h2] at h3
  simpa using h3

theorem opcField_append (r : BitVec 6) (l : BitVec 3) (e : BitVec 1) (o : BitVec 6) :
    opcField (r ++ l ++ e ++ o) = o := by
  apply BitVec.eq_of_getLsbD_eq
  intro b hb
  simp [opcField, getLsbD_word, hb]

theorem ekField_append (r : BitVec 6) (l : BitVec 3) (e : BitVec 1) (o : BitVec 6) :
    ekField (r ++ l ++ e ++ o) = e := by
  apply BitVec.eq_of_getLsbD_eq
  intro b hb
  obtain rfl : b = 0 := by omega
  simp only [ekField, BitVec.getLsbD_extractLsb', getLsbD_word]
  rfl

theorem lwField_append (r : BitVec 6) (l : BitVec 3) (e : BitVec 1) (o : BitVec 6) :
    lwField (r ++ l ++ e ++ o) = l := by
  apply BitVec.eq_of_getLsbD_eq
  intro b hb
  have h1 : ¬ (7 + b < 6) := by omega
  have h2 : ¬ (7 + b - 6 < 1) := by omega
  have h3 : 7 + b - 6 - 1 = b := by omega
  simp only [lwField, BitVec.getLsbD_extractLsb', getLsbD_word, h1, h2, h3, hb, if_true, if_false]
  simp

theorem rsvField_append (r : BitVec 6) (l : BitVec 3) (e : BitVec 1) (o : BitVec 6) :
    rsvField (r ++ l ++ e ++ o) = r := by
  apply BitVec.eq_of_getLsbD_eq
  intro b hb
  have h1 : ¬ (10 + b < 6) := by omega
  have h2 : ¬ (10 + b - 6 < 1) := by omega
  have h3 : ¬ (10 + b - 6 - 1 < 3) := by omega
  have h4 : 10 + b - 6 - 1 - 3 = b := by omega
  simp only [rsvField, BitVec.getLsbD_extractLsb', getLsbD_word, h1, h2, h3, h4, hb, if_false]
  simp

/-- A command word is its four fields (R60). -/
theorem word_eq_fields (cw : BitVec 16) :
    rsvField cw ++ lwField cw ++ ekField cw ++ opcField cw = cw := by
  apply BitVec.eq_of_getLsbD_eq
  intro b hb
  rw [getLsbD_word]
  simp only [rsvField, lwField, ekField, opcField, BitVec.getLsbD_extractLsb']
  split
  · simp_all
  · split
    · rename_i h1 h2
      have : 6 + (b - 6) = b := by omega
      simp [this, h2]
    · split
      · rename_i h1 h2 h3
        have : 7 + (b - 6 - 1) = b := by omega
        simp [this, h3]
      · rename_i h1 h2 h3
        have h4 : 10 + (b - 6 - 1 - 3) = b := by omega
        have h5 : b - 6 - 1 - 3 < 6 := by omega
        simp [h4, h5]

/-- Everything `decode` can do, case by case of R67. -/
theorem decode_cases (cw : BitVec 16) :
    (rsvField cw ≠ 0#6 ∧ decode cw = .illegal .reservedBits) ∨
    (rsvField cw = 0#6 ∧ decodeOpc (opcField cw) = none ∧ decode cw = .illegal .unassignedOpcode) ∨
    (∃ op, rsvField cw = 0#6 ∧ decodeOpc (opcField cw) = some op ∧ decodeLanes (lwField cw) = none ∧
      decode cw = .illegal .reservedLaneCode) ∨
    (∃ op l, rsvField cw = 0#6 ∧ decodeOpc (opcField cw) = some op ∧ decodeLanes (lwField cw) = some l ∧
      Shape.legal ⟨decodeKind (ekField cw), l⟩ = false ∧ decode cw = .illegal .f64SixteenLanes) ∨
    (∃ op l, rsvField cw = 0#6 ∧ decodeOpc (opcField cw) = some op ∧ decodeLanes (lwField cw) = some l ∧
      Shape.legal ⟨decodeKind (ekField cw), l⟩ = true ∧
      decode cw = .legal (op ⟨decodeKind (ekField cw), l⟩)) := by
  by_cases hr : rsvField cw = 0#6
  · rcases ho : decodeOpc (opcField cw) with _ | op
    · simp [decode, hr, ho]
    · rcases hl : decodeLanes (lwField cw) with _ | l
      · simp [decode, hr, ho, hl]
      · rcases hs : Shape.legal ⟨decodeKind (ekField cw), l⟩ with _ | _ <;> simp [decode, hr, ho, hl, hs]
  · simp [decode, hr]

@[simp] theorem decodeKind_encodeKind (k : Kind) : decodeKind (encodeKind k) = k := by cases k <;> rfl

@[simp] theorem decodeLanes_encodeLanes (l : Lanes) : decodeLanes (encodeLanes l) = some l := by cases l <;> rfl

theorem encodeKind_decodeKind (e : BitVec 1) : encodeKind (decodeKind e) = e := by
  revert e; decide

theorem encodeLanes_of_decodeLanes {w : BitVec 3} {l : Lanes} (h : decodeLanes w = some l) :
    encodeLanes l = w := by
  revert w l
  decide +revert

/-- The opcode table forwards: the `opc` value of a command decodes to its constructor. -/
theorem decodeOpc_opcodeOf (i : Instr) : ∃ op, decodeOpc (opcodeOf i) = some op ∧ op i.shape = i := by
  cases i <;> exact ⟨_, rfl, rfl⟩

end Sys2Proof
end

