-- ==== Sys2Proof/Laws/Float.lean ====
section
/-! SUPPORT. Lemmas of the number formats and of the rounding helpers: the fields of a word, `fneg` and `fabs`, the
classes, and what `floorLog2`, `roundEven` and `isqrtFrom` compute (40_primitives_and_split.md R100 to R102, R108, R110). -/

namespace Sys2Proof.Machine

variable {k : Kind}

/-- The three fields of a word, as numbers (R100). -/
theorem fields_toNat (c : Word k) :
    (signBit c = decide (2 ^ (k.width - 1) ≤ c.toNat)) ∧
    biasedExp c = c.toNat / 2 ^ (prec k - 1) % 2 ^ expBits k ∧ trailing c = c.toNat % 2 ^ (prec k - 1) := by
  refine ⟨BitVec.msb_eq_decide c, ?_, ?_⟩
  · rw [biasedExp, BitVec.extractLsb'_toNat, Nat.shiftRight_eq_div_pow]
  · rw [trailing, BitVec.extractLsb'_toNat, Nat.shiftRight_eq_div_pow, pow_zero, Nat.div_one]

theorem toNat_eq_fields (c : Word k) :
    c.toNat = (if signBit c then 2 ^ (k.width - 1) else 0) + biasedExp c * 2 ^ (prec k - 1) + trailing c := by
  obtain ⟨h1, h2, h3⟩ := fields_toNat c
  have h : c.toNat < 2 ^ k.width := c.isLt
  rw [h1, h2, h3]
  generalize c.toNat = n at *
  clear h1 h2 h3 c
  cases k <;> simp only [Kind.width, prec, expBits, decide_eq_true_eq] at * <;> norm_num at * <;>
    split <;> omega

theorem ofFields_fields (c : Word k) : ofFields k (signBit c) (biasedExp c) (trailing c) = c := by
  rw [ofFields, ← toNat_eq_fields, BitVec.ofNat_toNat, BitVec.setWidth_eq]

/-- The fields of a word made from fields. -/
theorem toNat_ofFields {neg : Bool} {e t : Nat} (he : e < 2 ^ expBits k) (ht : t < 2 ^ (prec k - 1)) :
    (ofFields k neg e t).toNat = (if neg then 2 ^ (k.width - 1) else 0) + e * 2 ^ (prec k - 1) + t := by
  rw [ofFields, BitVec.toNat_ofNat, Nat.mod_eq_of_lt]
  cases k <;> cases neg <;> simp only [Kind.width, expBits, prec] at * <;> norm_num at * <;> omega

theorem fields_ofFields {neg : Bool} {e t : Nat} (he : e < 2 ^ expBits k) (ht : t < 2 ^ (prec k - 1)) :
    signBit (ofFields k neg e t) = neg ∧ biasedExp (ofFields k neg e t) = e ∧
      trailing (ofFields k neg e t) = t := by
  obtain ⟨h1, h2, h3⟩ := fields_toNat (ofFields k neg e t)
  rw [h1, h2, h3, toNat_ofFields he ht]
  clear h1 h2 h3
  cases k <;> cases neg <;> simp only [Kind.width, prec, expBits] at * <;> norm_num at * <;> omega

/-- Two words with the same fields are the same word. -/
theorem eq_of_fields {a b : Word k} (hs : signBit a = signBit b) (he : biasedExp a = biasedExp b)
    (ht : trailing a = trailing b) : a = b := by
  rw [← ofFields_fields a, ← ofFields_fields b, hs, he, ht]

/-- What `fneg` does to the fields (R110). -/
theorem fields_fneg (a : Word k) :
    signBit (fneg a) = !signBit a ∧ biasedExp (fneg a) = biasedExp a ∧ trailing (fneg a) = trailing a := by
  have hm : (signMask k).msb = true := by cases k <;> decide
  have he : (signMask k).extractLsb' (prec k - 1) (expBits k) = 0#_ := by cases k <;> decide
  have ht : (signMask k).extractLsb' 0 (prec k - 1) = 0#_ := by cases k <;> decide
  refine ⟨?_, ?_, ?_⟩
  · rw [signBit, fneg, BitVec.msb_xor, hm, Bool.xor_true]; rfl
  · rw [biasedExp, fneg, BitVec.extractLsb'_xor, he, BitVec.xor_zero]; rfl
  · rw [trailing, fneg, BitVec.extractLsb'_xor, ht, BitVec.xor_zero]; rfl

@[simp] theorem signBit_fneg (a : Word k) : signBit (fneg a) = !signBit a := (fields_fneg a).1

@[simp] theorem biasedExp_fneg (a : Word k) : biasedExp (fneg a) = biasedExp a := (fields_fneg a).2.1

@[simp] theorem trailing_fneg (a : Word k) : trailing (fneg a) = trailing a := (fields_fneg a).2.2

@[simp] theorem fneg_fneg (a : Word k) : fneg (fneg a) = a := by
  rw [fneg, fneg, BitVec.xor_assoc, BitVec.xor_self, BitVec.xor_zero]

@[simp] theorem isNan_fneg (a : Word k) : isNan (fneg a) = isNan a := by simp only [isNan, biasedExp_fneg, trailing_fneg]

@[simp] theorem isInfinity_fneg (a : Word k) : isInfinity (fneg a) = isInfinity a := by
  simp only [isInfinity, biasedExp_fneg, trailing_fneg]

@[simp] theorem isFinite_fneg (a : Word k) : isFinite (fneg a) = isFinite a := by
  simp only [isFinite, biasedExp_fneg]

@[simp] theorem isZero_fneg (a : Word k) : isZero (fneg a) = isZero a := by
  simp only [isZero, biasedExp_fneg, trailing_fneg]

@[simp] theorem value_fneg (a : Word k) : value (fneg a) = -value a := by
  have h1 : significand (fneg a) = significand a := by simp only [significand, biasedExp_fneg, trailing_fneg]
  have h2 : unitExp (fneg a) = unitExp a := by simp only [unitExp, biasedExp_fneg]
  rw [value, value, h1, h2, signBit_fneg]
  cases signBit a <;> simp

/-- What `fabs` does to the fields (R110). -/
theorem fields_fabs (a : Word k) :
    signBit (fabs a) = false ∧ biasedExp (fabs a) = biasedExp a ∧ trailing (fabs a) = trailing a := by
  have hm : (~~~signMask k).msb = false := by cases k <;> decide
  have he : (~~~signMask k).extractLsb' (prec k - 1) (expBits k) = BitVec.allOnes _ := by cases k <;> decide
  have ht : (~~~signMask k).extractLsb' 0 (prec k - 1) = BitVec.allOnes _ := by cases k <;> decide
  refine ⟨?_, ?_, ?_⟩
  · rw [signBit, fabs, BitVec.msb_and, hm, Bool.and_false]
  · rw [biasedExp, fabs, BitVec.extractLsb'_and, he, BitVec.and_allOnes]; rfl
  · rw [trailing, fabs, BitVec.extractLsb'_and, ht, BitVec.and_allOnes]; rfl

/-- `fabs` is `fneg` or nothing, by the sign bit. -/
theorem fabs_eq (a : Word k) : fabs a = if signBit a then fneg a else a := by
  obtain ⟨h1, h2, h3⟩ := fields_fabs a
  cases h : signBit a
  · exact eq_of_fields (h1.trans h.symm) h2 h3
  · exact eq_of_fields (by simp [h1, h]) (by simpa using h2) (by simpa using h3)

theorem significand_nonneg_value (a : Word k) : 0 ≤ (significand a : ℚ) * (2 : ℚ) ^ unitExp a := by positivity

/-- The magnitude of a finite word's value. -/
theorem abs_value (a : Word k) : |value a| = (significand a : ℚ) * (2 : ℚ) ^ unitExp a := by
  rw [value, mul_assoc, abs_mul, abs_of_nonneg (significand_nonneg_value a)]
  cases signBit a <;> simp

@[simp] theorem value_fabs (a : Word k) : value (fabs a) = |value a| := by
  obtain ⟨h1, h2, h3⟩ := fields_fabs a
  rw [abs_value]
  simp only [value, significand, unitExp, h1, h2, h3]
  simp

/-- A word is of exactly one of the classes finite, infinite, NaN (R100). -/
theorem class_cases (a : Word k) :
    (isFinite a = true ∧ isInfinity a = false ∧ isNan a = false) ∨
    (isFinite a = false ∧ isInfinity a = true ∧ isNan a = false) ∨
    (isFinite a = false ∧ isInfinity a = false ∧ isNan a = true) := by
  by_cases h : biasedExp a = expOnes k <;> by_cases h' : trailing a = 0 <;>
    simp [isFinite, isInfinity, isNan, h, h']

theorem expOnes_pos (k : Kind) : 0 < expOnes k := by cases k <;> decide

/-- A word's value is 0 exactly when it is a zero. -/
theorem value_eq_zero_iff (a : Word k) : value a = 0 ↔ isZero a = true := by
  have h2 : (2 : ℚ) ^ unitExp a ≠ 0 := zpow_ne_zero _ two_ne_zero
  have hz : isZero a = true ↔ significand a = 0 := by
    by_cases h : biasedExp a = 0 <;> simp [isZero, significand, h]
  rw [hz, ← abs_eq_zero, abs_value, mul_eq_zero, or_iff_left h2, Nat.cast_eq_zero]

theorem isFinite_of_isZero {a : Word k} (h : isZero a = true) : isFinite a = true := by
  have h' : biasedExp a = 0 ∧ trailing a = 0 := by simpa [isZero] using h
  simp [isFinite, h'.1, (expOnes_pos k).ne]

/-- A zero is the zero of its sign. -/
theorem eq_zero_of_isZero {a : Word k} (h : isZero a = true) : a = zero k (signBit a) := by
  have h' : biasedExp a = 0 ∧ trailing a = 0 := by simpa [isZero] using h
  rw [zero]
  simpa only [h'.1, h'.2] using (ofFields_fields a).symm

/-- An infinity is the infinity of its sign. -/
theorem eq_infinity_of_isInfinity {a : Word k} (h : isInfinity a = true) : a = infinity k (signBit a) := by
  have h' : biasedExp a = expOnes k ∧ trailing a = 0 := by simpa [isInfinity] using h
  rw [infinity]
  simpa only [h'.1, h'.2] using (ofFields_fields a).symm

/-- `floorLog2` is the floor of the binary logarithm. -/
theorem floorLog2_spec {m : ℚ} (h : 0 < m) : (2 : ℚ) ^ floorLog2 m ≤ m ∧ m < (2 : ℚ) ^ (floorLog2 m + 1) := by
  have hn : m.num.natAbs ≠ 0 := by have := Rat.num_pos.mpr h; omega
  have hd : m.den ≠ 0 := m.den_nz
  have e : m = (m.num.natAbs : ℚ) / (m.den : ℚ) := by
    have h1 : ((m.num.natAbs : ℤ) : ℚ) = (m.num : ℚ) := by
      rw [Int.natAbs_of_nonneg (Rat.num_pos.mpr h).le]
    conv => lhs; rw [← Rat.num_div_den m]
    rw [← h1, Int.cast_natCast]
  have a1 : (2 : ℚ) ^ (m.num.natAbs.log2 : ℤ) ≤ m.num.natAbs := by
    rw [zpow_natCast]; exact_mod_cast Nat.log2_self_le hn
  have a2 : (m.num.natAbs : ℚ) < (2 : ℚ) ^ ((m.num.natAbs.log2 : ℤ) + 1) := by
    exact_mod_cast (Nat.lt_log2_self (n := m.num.natAbs))
  have b1 : (2 : ℚ) ^ (m.den.log2 : ℤ) ≤ m.den := by
    rw [zpow_natCast]; exact_mod_cast Nat.log2_self_le hd
  have b2 : (m.den : ℚ) < (2 : ℚ) ^ ((m.den.log2 : ℤ) + 1) := by
    exact_mod_cast (Nat.lt_log2_self (n := m.den))
  have hdp : (0 : ℚ) < m.den := by exact_mod_cast Nat.pos_of_ne_zero hd
  set x : ℤ := (m.num.natAbs.log2 : ℤ) with hx
  set y : ℤ := (m.den.log2 : ℤ) with hy
  have hi : m < (2 : ℚ) ^ (x - y + 1) := by
    rw [e, div_lt_iff₀ hdp]
    calc (m.num.natAbs : ℚ) < (2 : ℚ) ^ (x + 1) := a2
      _ = (2 : ℚ) ^ (x - y + 1) * (2 : ℚ) ^ y := by rw [← zpow_add₀ two_ne_zero]; congr 1; ring
      _ ≤ _ := by gcongr
  have lo : (2 : ℚ) ^ (x - y - 1) ≤ m := by
    rw [e, le_div_iff₀ hdp]
    calc (2 : ℚ) ^ (x - y - 1) * m.den ≤ (2 : ℚ) ^ (x - y - 1) * (2 : ℚ) ^ (y + 1) := by gcongr
      _ = (2 : ℚ) ^ x := by rw [← zpow_add₀ two_ne_zero]; congr 1; ring
      _ ≤ _ := a1
  rw [floorLog2]
  split
  · exact ⟨‹_›, hi⟩
  · rename_i hc
    refine ⟨lo, ?_⟩
    rw [sub_add_cancel]
    exact not_le.mp hc

/-- `roundEven` of a nonnegative rational is a nearest natural number, the even one of two. -/
theorem roundEven_spec {x : ℚ} (h : 0 ≤ x) :
    |(roundEven x : ℚ) - x| ≤ 1 / 2 ∧ (|(roundEven x : ℚ) - x| = 1 / 2 → roundEven x % 2 = 0) := by
  have f0 : 0 ≤ x.floor := Rat.le_floor_iff.mpr (by simpa using h)
  have fn : ((x.floor.toNat : ℕ) : ℚ) = (x.floor : ℚ) := by
    exact_mod_cast congrArg (Int.cast : ℤ → ℚ) (Int.toNat_of_nonneg f0)
  have l : ((x.floor.toNat : ℕ) : ℚ) ≤ x := by rw [fn]; exact Rat.floor_le x
  have u : x < ((x.floor.toNat : ℕ) : ℚ) + 1 := by rw [fn]; exact_mod_cast Rat.lt_floor_add_one x
  rw [roundEven]
  generalize x.floor.toNat = n at *
  split
  · rename_i hc
    have e : |((n + 1 : ℕ) : ℚ) - x| = (n : ℚ) + 1 - x := by
      push_cast; rw [abs_of_nonneg]; linarith
    rw [e]
    rcases hc with hc | ⟨hc, ho⟩
    · exact ⟨by linarith, fun h' => by linarith⟩
    · exact ⟨by linarith, fun _ => by omega⟩
  · rename_i hc
    have e : |(n : ℚ) - x| = x - n := by rw [abs_of_nonpos] <;> linarith
    rw [e]
    push Not at hc
    exact ⟨hc.1, fun h' => by have := hc.2 h'; omega⟩

/-- `isqrtFrom` goes on from a lower bound `r` to the integer square root, if it is less than `2^bits` away. -/
theorem isqrtFrom_spec : ∀ (bits n r : Nat), r * r ≤ n → n < (r + 2 ^ bits) * (r + 2 ^ bits) →
    isqrtFrom bits n r * isqrtFrom bits n r ≤ n ∧ n < (isqrtFrom bits n r + 1) * (isqrtFrom bits n r + 1)
  | 0, n, r, h1, h2 => ⟨h1, by simpa only [pow_zero, isqrtFrom] using h2⟩
  | b + 1, n, r, h1, h2 => by
    rw [isqrtFrom]
    have e : r + 2 ^ (b + 1) = r + 2 ^ b + 2 ^ b := by rw [pow_succ]; ring
    by_cases h : (r + 2 ^ b) * (r + 2 ^ b) ≤ n
    · simp only [h, if_true]
      exact isqrtFrom_spec b n _ h (by rwa [e] at h2)
    · simp only [h, if_false]
      exact isqrtFrom_spec b n r h1 (by omega)

/-- The infinity of a sign: its sign and its class (R100). -/
theorem infinity_spec (k : Kind) (n : Bool) :
    signBit (infinity k n) = n ∧ isInfinity (infinity k n) = true ∧ isFinite (infinity k n) = false ∧
      isNan (infinity k n) = false := by
  cases k <;> cases n <;> decide

/-- The zero of a sign: its sign and its class (R100). -/
theorem zero_spec (k : Kind) (n : Bool) :
    signBit (zero k n) = n ∧ isZero (zero k n) = true ∧ isFinite (zero k n) = true ∧
      isInfinity (zero k n) = false ∧ isNan (zero k n) = false := by
  cases k <;> cases n <;> decide

end Sys2Proof.Machine
end

