-- ==== Sys2Proof/Laws/Lanes.lean ====
section
/-! SUPPORT. Packing and reading lanes (46_lanes_and_fma.md R250): a packed port gives each lane back and has
zeros above the last lane. -/

namespace Sys2Proof.Machine

variable {k : Kind}

theorem width_pos (k : Kind) : 0 < k.width := by cases k <;> decide

/-- The bits of a lane are bits of the port (R250). -/
theorem getLsbD_lane (p : Port) (j b : Nat) :
    (lane k p j).getLsbD b = (decide (b < k.width) && p.getLsbD (k.width * j + b)) := by
  simp [lane]

/-- Bits at and above lane `n` of `packLanes k n f` are zero (R25). -/
theorem getLsbD_packLanes_high (f : Nat → Word k) (n b : Nat) (h : k.width * n ≤ b) :
    (packLanes k n f).getLsbD b = false := by
  induction n with
  | zero => simp [packLanes]
  | succ n ih =>
    have hn : k.width * (n + 1) = k.width * n + k.width := Nat.mul_succ ..
    have hlow := ih (by omega)
    have hbit : (f n).getLsbD (b - k.width * n) = false := BitVec.getLsbD_of_ge _ _ (by omega)
    simp [packLanes, hlow, BitVec.getLsbD_shiftLeft, BitVec.getLsbD_setWidth, hbit]

/-- The bits of lane `j < n` of `packLanes k n f` are those of `f j` (R250). -/
theorem getLsbD_packLanes (f : Nat → Word k) (n j b : Nat) (hj : j < n) (hb : b < k.width)
    (hv : k.width * j + b < vlen) :
    (packLanes k n f).getLsbD (k.width * j + b) = (f j).getLsbD b := by
  induction n with
  | zero => omega
  | succ n ih =>
    rcases Nat.lt_succ_iff_lt_or_eq.mp hj with hlt | rfl
    · have hle : k.width * (j + 1) ≤ k.width * n := Nat.mul_le_mul_left _ hlt
      have hs : k.width * (j + 1) = k.width * j + k.width := Nat.mul_succ ..
      have hshift : ¬ (k.width * n ≤ k.width * j + b) := by omega
      have hshift' : k.width * j + b < k.width * n := by omega
      simp [packLanes, ih hlt, BitVec.getLsbD_shiftLeft, hshift']
    · have h1 := getLsbD_packLanes_high f j (k.width * j + b) (by omega)
      have h2 : b < vlen := by omega
      simp only [packLanes, BitVec.getLsbD_or, h1, BitVec.getLsbD_shiftLeft, BitVec.getLsbD_setWidth,
        Bool.false_or, Nat.add_sub_cancel_left]
      simp [hv, h2]

/-- Lane `j` of a port packed from `f` is `f j`, when all the lanes fit. -/
theorem lane_packLanes (f : Nat → Word k) (n j : Nat) (hj : j < n) (hfit : k.width * n ≤ vlen) :
    lane k (packLanes k n f) j = f j := by
  apply BitVec.eq_of_getLsbD_eq
  intro b hb
  have hle : k.width * (j + 1) ≤ k.width * n := Nat.mul_le_mul_left _ hj
  have hs : k.width * (j + 1) = k.width * j + k.width := Nat.mul_succ ..
  rw [getLsbD_lane, getLsbD_packLanes f n j b hj hb (by omega)]
  simp [hb]

/-- A packed port depends on its lanes only. -/
theorem packLanes_congr {f g : Nat → Word k} {n : Nat} (h : ∀ j, j < n → f j = g j) :
    packLanes k n f = packLanes k n g := by
  induction n with
  | zero => rfl
  | succ n ih => simp [packLanes, ih fun j hj => h j (by omega), h n (by omega)]

/-- The lanes of a legal shape fit a port (R250: the widest "fill the port exactly"). -/
theorem lanes_fit {sh : Shape} (h : sh.legal = true) : sh.kind.width * sh.lanes.count ≤ vlen := by
  rcases sh with ⟨k, l⟩
  cases k <;> cases l <;> first | decide | simp [Shape.legal] at h

theorem lanes_count_pos (l : Lanes) : 0 < l.count := by cases l <;> decide

end Sys2Proof.Machine
end

