-- ==== Sys2Proof/Laws/State.lean ====
section
/-! SUPPORT. One lemma per field for every update of the state, so that no later proof unfolds a record update. -/

namespace Sys2Proof.Machine

variable (r : Response) (f : Fault) (c : Command) (s : State) (cw : BitVec 16)

/-! `answer` -/

@[simp] theorem answer_halted : (answer r s).halted = s.halted := rfl
@[simp] theorem answer_faultCode : (answer r s).faultCode = s.faultCode := rfl
@[simp] theorem answer_inFlight : (answer r s).inFlight = none := rfl
@[simp] theorem answer_responses : (answer r s).responses = s.responses ++ [r] := rfl
@[simp] theorem answer_host : (answer r s).host = s.host := rfl
@[simp] theorem answer_build : (answer r s).build = s.build := rfl

/-! `raise` -/

@[simp] theorem raise_halted : (raise f s).halted = true := rfl
@[simp] theorem raise_faultCode : (raise f s).faultCode = faultCodeOf f := rfl
@[simp] theorem raise_inFlight : (raise f s).inFlight = none := rfl
@[simp] theorem raise_responses : (raise f s).responses = s.responses ++ [.fault f] := rfl
@[simp] theorem raise_host : (raise f s).host = s.host := rfl
@[simp] theorem raise_build : (raise f s).build = s.build := rfl

/-! `applyReset` -/

@[simp] theorem applyReset_halted : (applyReset s).halted = false := rfl
@[simp] theorem applyReset_faultCode : (applyReset s).faultCode = 0#2 := rfl
@[simp] theorem applyReset_inFlight : (applyReset s).inFlight = none := rfl
@[simp] theorem applyReset_responses : (applyReset s).responses = s.responses := rfl
@[simp] theorem applyReset_host : (applyReset s).host = s.host := rfl
@[simp] theorem applyReset_build : (applyReset s).build = s.build := rfl

/-! `accept`: of a running engine and of a halted one. -/

@[simp] theorem accept_halted : (accept c s).halted = s.halted := by unfold accept; split <;> rfl
@[simp] theorem accept_faultCode : (accept c s).faultCode = s.faultCode := by unfold accept; split <;> rfl
theorem accept_inFlight (h : s.halted = false) : (accept c s).inFlight = some c := by simp [accept, h]
@[simp] theorem accept_responses : (accept c s).responses = s.responses := by unfold accept; split <;> rfl
@[simp] theorem accept_host : (accept c s).host = s.host := by unfold accept; split <;> rfl
@[simp] theorem accept_build : (accept c s).build = s.build := by unfold accept; split <;> rfl
theorem accept_of_halted (h : s.halted = true) : accept c s = s := by simp [accept, h]

/-! `presentWord` -/

@[simp] theorem presentWord_halted : (presentWord s cw).halted = s.halted := rfl
@[simp] theorem presentWord_faultCode : (presentWord s cw).faultCode = s.faultCode := rfl
@[simp] theorem presentWord_inFlight : (presentWord s cw).inFlight = none := rfl
@[simp] theorem presentWord_responses : (presentWord s cw).responses = s.responses := rfl
@[simp] theorem presentWord_host : (presentWord s cw).host = .command { current s with cw := cw } :: s.host := rfl
@[simp] theorem presentWord_build : (presentWord s cw).build = s.build := rfl

/-! Reading the command in flight. -/

theorem current_of_inFlight {s : State} {c : Command} (h : s.inFlight = some c) : current s = c := by
  simp [current, h]

@[simp] theorem current_with (c : Command) (s : State) : current { s with inFlight := some c } = c := rfl

@[simp] theorem faultCodeOf_ne_zero (f : Fault) : faultCodeOf f ≠ 0#2 := by cases f <;> decide

@[simp] theorem faultCodeOf_ne_three (f : Fault) : faultCodeOf f ≠ 3#2 := by cases f <;> decide

end Sys2Proof.Machine
end

