-- ==== Sys2Proof/Laws/Ops.lean ====
section
/-! SUPPORT. One lemma per shared operation that says once everything it can do: the provers cite these instead of
unfolding the operations. -/

namespace Sys2Proof.Machine

/-- Everything `complete` can do. -/
theorem complete_cases (sh : Shape) (r : Response) (s : State) :
    (sh.legal = true ∧ complete sh r s = answer r s) ∨
    (sh.legal = false ∧ complete sh r s = raise .illegalCommand s) := by
  cases h : sh.legal <;> simp [complete, h]

theorem complete_legal {sh : Shape} (h : sh.legal = true) (r : Response) (s : State) :
    complete sh r s = answer r s := by simp [complete, h]

theorem completeDoubled_legal {sh : Shape} (h : sh.legal = true) (f : Nat → Doubled sh.kind) (s : State) :
    completeDoubled sh f s = answer (doubledResponse sh f) s := complete_legal h _ _

theorem completePlain_legal {sh : Shape} (h : sh.legal = true) (f : Nat → Word sh.kind) (s : State) :
    completePlain sh f s = answer (plainResponse sh f) s := complete_legal h _ _

theorem completeMask_legal {sh : Shape} (h : sh.legal = true) (p : Nat → Bool) (s : State) :
    completeMask sh p s = answer (plainResponse sh fun j => maskWord sh.kind (p j)) s := complete_legal h _ _

/-- A scalar shape is legal. -/
theorem legal_of_x1 {sh : Shape} (h : sh.lanes = .x1) : sh.legal = true := by
  rcases sh with ⟨k, l⟩
  subst h
  cases k <;> rfl

theorem checkRuns_iff (sh : Shape) (s : State) :
    checkRuns sh s = true ↔ sh.lanes = .x1 ∧ s.build.checkOrder = true := by simp [checkRuns]

/-- Everything `completeChecked` can do (R224). -/
theorem completeChecked_cases (sh : Shape) (a b : Word sh.kind) (f : Nat → Doubled sh.kind) (s : State) :
    (orderOk a b = false ∧ sh.lanes = .x1 ∧ s.build.checkOrder = true ∧
      completeChecked sh a b f s = raise .orderViolation s) ∨
    ((orderOk a b = true ∨ sh.lanes ≠ .x1 ∨ s.build.checkOrder = false) ∧
      completeChecked sh a b f s = completeDoubled sh f s) := by
  by_cases ho : orderOk a b = true
  · right; simp [completeChecked, ho]
  · by_cases hr : checkRuns sh s = true
    · left
      obtain ⟨h1, h2⟩ := (checkRuns_iff sh s).mp hr
      simp [completeChecked, ho, hr, h1, h2]
    · right
      refine ⟨?_, by simp [completeChecked, hr]⟩
      have := mt (checkRuns_iff sh s).mpr hr
      by_cases hl : sh.lanes = .x1
      · right; right; simpa [hl] using this
      · exact .inr (.inl hl)

/-- The ports of a doubled response of a legal shape hold the lanes, and zeros above them. -/
theorem doubledResponse_spec {sh : Shape} (h : sh.legal = true) (f : Nat → Doubled sh.kind) :
    ∃ rHi rLo, doubledResponse sh f = .ok rHi rLo ∧
      (∀ j, j < sh.lanes.count → lane sh.kind rHi j = (f j).hi ∧ lane sh.kind rLo j = (f j).lo) ∧
      (∀ b, sh.kind.width * sh.lanes.count ≤ b → rHi.getLsbD b = false ∧ rLo.getLsbD b = false) :=
  ⟨_, _, rfl,
    fun j hj => ⟨lane_packLanes _ _ j hj (lanes_fit h), lane_packLanes _ _ j hj (lanes_fit h)⟩,
    fun b hb => ⟨getLsbD_packLanes_high _ _ b hb, getLsbD_packLanes_high _ _ b hb⟩⟩

/-- The same of a plain response; its `R.lo` is zero. -/
theorem plainResponse_spec {sh : Shape} (h : sh.legal = true) (f : Nat → Word sh.kind) :
    ∃ rHi, plainResponse sh f = .ok rHi 0 ∧
      (∀ j, j < sh.lanes.count → lane sh.kind rHi j = f j) ∧
      (∀ b, sh.kind.width * sh.lanes.count ≤ b → rHi.getLsbD b = false) :=
  ⟨_, rfl, fun j hj => lane_packLanes _ _ j hj (lanes_fit h), fun b hb => getLsbD_packLanes_high _ _ b hb⟩

/-! ## Fetching and stepping -/

/-- Everything `fetch` can do. -/
theorem fetch_cases (s : State) :
    (∃ rest, s.host = .reset :: rest ∧ fetch s = .quiet (applyReset { s with host := rest })) ∨
    (∃ c rest, s.host = .resetCatching c :: rest ∧
      fetch s = .quiet (applyReset (accept c { s with host := rest }))) ∨
    (∃ c rest, s.host = .command c :: rest ∧ s.halted = true ∧ fetch s = .quiet { s with host := rest }) ∨
    (s.host = [] ∧ (s.halted = true ∨ s.inFlight = none) ∧ fetch s = .quiet s) ∨
    ((s.host = [] ∨ ∃ c rest, s.host = .command c :: rest) ∧ s.halted = false ∧ s.inFlight.isSome = true ∧
      fetch s = .execute s) ∨
    (∃ c rest, s.host = .command c :: rest ∧ s.halted = false ∧ s.inFlight = none ∧
      fetch s = .execute { s with host := rest, inFlight := some c }) := by
  rcases hh : s.host with _ | ⟨_ | _ | _, rest⟩
  · by_cases h1 : s.halted = true
    · simp [fetch, hh, h1]
    · cases h2 : s.inFlight <;> simp [fetch, hh, h1, h2]
  · cases h1 : s.halted <;> cases h2 : s.inFlight <;> simp [fetch, hh, h1, h2, accept]
  · simp [fetch, hh]
  · simp [fetch, hh]

/-- Everything a meaning can do: answer the command with a result, or take one of the two faults. -/
theorem exec_cases (i : Instr) (s : State) :
    (∃ rHi rLo, i.wellFormed = true ∧ exec i s = .next (answer (.ok rHi rLo) s)) ∨
    (i.wellFormed = false ∧ exec i s = .next (raise .illegalCommand s)) ∨
    (i.isChecked = true ∧ i.shape.lanes = .x1 ∧ s.build.checkOrder = true ∧
      exec i s = .next (raise .orderViolation s)) := by
  have plain : ∀ (sh : Shape) (f : Nat → Word sh.kind),
      (∃ rHi rLo, sh.legal = true ∧ completePlain sh f s = answer (.ok rHi rLo) s) ∨
      (sh.legal = false ∧ completePlain sh f s = raise .illegalCommand s) := by
    intro sh f
    rcases complete_cases sh (plainResponse sh f) s with ⟨h, e⟩ | ⟨h, e⟩
    · exact .inl ⟨_, _, h, e⟩
    · exact .inr ⟨h, e⟩
  have doubled : ∀ (sh : Shape) (f : Nat → Doubled sh.kind),
      (∃ rHi rLo, sh.legal = true ∧ completeDoubled sh f s = answer (.ok rHi rLo) s) ∨
      (sh.legal = false ∧ completeDoubled sh f s = raise .illegalCommand s) := by
    intro sh f
    rcases complete_cases sh (doubledResponse sh f) s with ⟨h, e⟩ | ⟨h, e⟩
    · exact .inl ⟨_, _, h, e⟩
    · exact .inr ⟨h, e⟩
  have checked : ∀ (sh : Shape) (a b : Word sh.kind) (f : Nat → Doubled sh.kind),
      (∃ rHi rLo, sh.legal = true ∧ completeChecked sh a b f s = answer (.ok rHi rLo) s) ∨
      (sh.legal = false ∧ completeChecked sh a b f s = raise .illegalCommand s) ∨
      (sh.lanes = .x1 ∧ s.build.checkOrder = true ∧
        completeChecked sh a b f s = raise .orderViolation s) := by
    intro sh a b f
    rcases completeChecked_cases sh a b f s with ⟨_, h1, h2, e⟩ | ⟨_, e⟩
    · exact .inr (.inr ⟨h1, h2, e⟩)
    · rcases doubled sh f with ⟨x, y, h, e'⟩ | ⟨h, e'⟩
      · exact .inl ⟨x, y, h, e.trans e'⟩
      · exact .inr (.inl ⟨h, e.trans e'⟩)
  cases i with
  | upper sh | narrow sh | isinf sh | isnan sh | isnfin sh | mulfDD sh | squfD sh =>
    rcases plain sh _ with ⟨x, y, h, e⟩ | ⟨h, e⟩
    · exact .inl ⟨x, y, h, congrArg _ e⟩
    · exact .inr (.inl ⟨h, congrArg _ e⟩)
  | addcSS sh | addcDS sh | addcSD sh | addcDD sh | subcDS sh | subcDD sh =>
    rcases checked sh _ _ _ with ⟨x, y, h, e⟩ | ⟨h, e⟩ | ⟨h1, h2, e⟩
    · exact .inl ⟨x, y, h, congrArg _ e⟩
    · exact .inr (.inl ⟨h, congrArg _ e⟩)
    · exact .inr (.inr ⟨rfl, h1, h2, congrArg _ e⟩)
  | widen sh | pack sh | neg sh | abs sh | norm sh | scale sh | addSS sh | addDS sh | addSD sh | addDD sh
  | subDS sh | subDD sh | mulSS sh | mulDS sh | mulDD sh | squD sh | recipS sh | recipD sh | divDD sh | sqrtD sh =>
    rcases doubled sh _ with ⟨x, y, h, e⟩ | ⟨h, e⟩
    · exact .inl ⟨x, y, h, congrArg _ e⟩
    · exact .inr (.inl ⟨h, congrArg _ e⟩)

/-- Everything `step` can do. -/
theorem step_cases (s : State) :
    (∃ t, fetch s = .quiet t ∧ step s = .next t) ∨
    (∃ t i, fetch s = .execute t ∧ decode (current t).cw = .legal i ∧ step s = exec i t) ∨
    (∃ t why, fetch s = .execute t ∧ decode (current t).cw = .illegal why ∧
      step s = .next (raise .illegalCommand t)) := by
  rcases hf : fetch s with t | t
  · exact .inl ⟨t, rfl, by simp [step, hf]⟩
  · rcases hd : decode (current t).cw with i | why
    · exact .inr (.inl ⟨t, i, rfl, hd, by simp [step, hf, hd]⟩)
    · exact .inr (.inr ⟨t, why, rfl, hd, by simp [step, hf, hd]⟩)

end Sys2Proof.Machine
end

