-- ==== Sys2Proof/Laws/PerInstr.lean ====
section
/-! SUPPORT. Laws that hold of every command, one lemma per constructor: the fields of its command word are those
of its opcode-table row and of its shape. -/

namespace Sys2Proof.Laws

/-- The four fields of `encode i` (30_encoding.md R60, R62, R63, R65). -/
def EncodeFields.Statement (i : Instr) : Prop :=
  opcField (encode i) = opcodeOf i ∧ ekField (encode i) = encodeKind i.shape.kind ∧
    lwField (encode i) = encodeLanes i.shape.lanes ∧ rsvField (encode i) = 0#6

/-- The law for any command; the lemmas per constructor are its cases. -/
theorem encodeFields_of (i : Instr) : EncodeFields.Statement i :=
  ⟨opcField_append .., ekField_append .., lwField_append .., rsvField_append ..⟩

theorem EncodeFields.upper (sh : Shape) : EncodeFields.Statement (.upper sh) := encodeFields_of _
theorem EncodeFields.widen (sh : Shape) : EncodeFields.Statement (.widen sh) := encodeFields_of _
theorem EncodeFields.narrow (sh : Shape) : EncodeFields.Statement (.narrow sh) := encodeFields_of _
theorem EncodeFields.pack (sh : Shape) : EncodeFields.Statement (.pack sh) := encodeFields_of _
theorem EncodeFields.neg (sh : Shape) : EncodeFields.Statement (.neg sh) := encodeFields_of _
theorem EncodeFields.abs (sh : Shape) : EncodeFields.Statement (.abs sh) := encodeFields_of _
theorem EncodeFields.norm (sh : Shape) : EncodeFields.Statement (.norm sh) := encodeFields_of _
theorem EncodeFields.scale (sh : Shape) : EncodeFields.Statement (.scale sh) := encodeFields_of _
theorem EncodeFields.isinf (sh : Shape) : EncodeFields.Statement (.isinf sh) := encodeFields_of _
theorem EncodeFields.isnan (sh : Shape) : EncodeFields.Statement (.isnan sh) := encodeFields_of _
theorem EncodeFields.isnfin (sh : Shape) : EncodeFields.Statement (.isnfin sh) := encodeFields_of _
theorem EncodeFields.addSS (sh : Shape) : EncodeFields.Statement (.addSS sh) := encodeFields_of _
theorem EncodeFields.addDS (sh : Shape) : EncodeFields.Statement (.addDS sh) := encodeFields_of _
theorem EncodeFields.addSD (sh : Shape) : EncodeFields.Statement (.addSD sh) := encodeFields_of _
theorem EncodeFields.addDD (sh : Shape) : EncodeFields.Statement (.addDD sh) := encodeFields_of _
theorem EncodeFields.subDS (sh : Shape) : EncodeFields.Statement (.subDS sh) := encodeFields_of _
theorem EncodeFields.subDD (sh : Shape) : EncodeFields.Statement (.subDD sh) := encodeFields_of _
theorem EncodeFields.addcSS (sh : Shape) : EncodeFields.Statement (.addcSS sh) := encodeFields_of _
theorem EncodeFields.addcDS (sh : Shape) : EncodeFields.Statement (.addcDS sh) := encodeFields_of _
theorem EncodeFields.addcSD (sh : Shape) : EncodeFields.Statement (.addcSD sh) := encodeFields_of _
theorem EncodeFields.addcDD (sh : Shape) : EncodeFields.Statement (.addcDD sh) := encodeFields_of _
theorem EncodeFields.subcDS (sh : Shape) : EncodeFields.Statement (.subcDS sh) := encodeFields_of _
theorem EncodeFields.subcDD (sh : Shape) : EncodeFields.Statement (.subcDD sh) := encodeFields_of _
theorem EncodeFields.mulSS (sh : Shape) : EncodeFields.Statement (.mulSS sh) := encodeFields_of _
theorem EncodeFields.mulDS (sh : Shape) : EncodeFields.Statement (.mulDS sh) := encodeFields_of _
theorem EncodeFields.mulDD (sh : Shape) : EncodeFields.Statement (.mulDD sh) := encodeFields_of _
theorem EncodeFields.mulfDD (sh : Shape) : EncodeFields.Statement (.mulfDD sh) := encodeFields_of _
theorem EncodeFields.squD (sh : Shape) : EncodeFields.Statement (.squD sh) := encodeFields_of _
theorem EncodeFields.squfD (sh : Shape) : EncodeFields.Statement (.squfD sh) := encodeFields_of _
theorem EncodeFields.recipS (sh : Shape) : EncodeFields.Statement (.recipS sh) := encodeFields_of _
theorem EncodeFields.recipD (sh : Shape) : EncodeFields.Statement (.recipD sh) := encodeFields_of _
theorem EncodeFields.divDD (sh : Shape) : EncodeFields.Statement (.divDD sh) := encodeFields_of _
theorem EncodeFields.sqrtD (sh : Shape) : EncodeFields.Statement (.sqrtD sh) := encodeFields_of _

end Sys2Proof.Laws
end

