-- ==== Sys2Proof/Tests/Slice0.lean ====
section
/-! SUPPORT. The author's own tests. Words and results are those of the spec's encoding tables and test vectors
(30_encoding.md R60 to R69, 95_test_vectors.md, 96_test_vectors_part2.md); the witnesses show that the hypotheses of
the statements of Certificates/Slice0/Obligations.lean can be met. -/

namespace Sys2Proof.Tests

open Sys2Proof.Machine

-- One theorem at a time: each evaluation in the kernel takes a thread of its own.
set_option Elab.async false

/-! ## Well-formedness: the one check, with a term it refuses (R252) -/

theorem test_wellFormed_refuses_f64x16 : Instr.wellFormed (.addDD ⟨.f64, .x16⟩) = false := rfl

theorem test_wellFormed_accepts_f32x16 : Instr.wellFormed (.addDD ⟨.f32, .x16⟩) = true := rfl

theorem test_wellFormed_accepts_f64x8 : Instr.wellFormed (.addDD ⟨.f64, .x8⟩) = true := rfl

/-! ## Decoding: every constructor's word, put together from the fields of R60 and the map of R65 -/

theorem test_decode_convert :
    decode 0b000000_000_0_000001#16 = .legal (.upper ⟨.f32, .x1⟩) ∧
    decode 0b000000_000_1_000010#16 = .legal (.widen ⟨.f64, .x1⟩) ∧
    decode 0b000000_001_0_000011#16 = .legal (.narrow ⟨.f32, .x2⟩) ∧
    decode 0b000000_001_1_000100#16 = .legal (.pack ⟨.f64, .x2⟩) ∧
    decode 0b000000_010_0_000101#16 = .legal (.neg ⟨.f32, .x4⟩) ∧
    decode 0b000000_010_1_000110#16 = .legal (.abs ⟨.f64, .x4⟩) ∧
    decode 0b000000_011_0_000111#16 = .legal (.norm ⟨.f32, .x8⟩) ∧
    decode 0b000000_011_1_001000#16 = .legal (.scale ⟨.f64, .x8⟩) := by
  decide

theorem test_decode_classify :
    decode 0b000000_100_0_001001#16 = .legal (.isinf ⟨.f32, .x16⟩) ∧
    decode 0b000000_000_0_001010#16 = .legal (.isnan ⟨.f32, .x1⟩) ∧
    decode 0b000000_000_1_001011#16 = .legal (.isnfin ⟨.f64, .x1⟩) := by
  decide

theorem test_decode_addsub :
    decode 0b000000_001_0_010000#16 = .legal (.addSS ⟨.f32, .x2⟩) ∧
    decode 0b000000_001_1_010001#16 = .legal (.addDS ⟨.f64, .x2⟩) ∧
    decode 0b000000_010_0_010010#16 = .legal (.addSD ⟨.f32, .x4⟩) ∧
    decode 0b000000_010_1_010011#16 = .legal (.addDD ⟨.f64, .x4⟩) ∧
    decode 0b000000_011_0_010101#16 = .legal (.subDS ⟨.f32, .x8⟩) ∧
    decode 0b000000_011_1_010111#16 = .legal (.subDD ⟨.f64, .x8⟩) := by
  decide

theorem test_decode_checked :
    decode 0b000000_100_0_011000#16 = .legal (.addcSS ⟨.f32, .x16⟩) ∧
    decode 0b000000_000_0_011001#16 = .legal (.addcDS ⟨.f32, .x1⟩) ∧
    decode 0b000000_000_1_011010#16 = .legal (.addcSD ⟨.f64, .x1⟩) ∧
    decode 0b000000_001_0_011011#16 = .legal (.addcDD ⟨.f32, .x2⟩) ∧
    decode 0b000000_001_1_011101#16 = .legal (.subcDS ⟨.f64, .x2⟩) ∧
    decode 0b000000_010_0_011111#16 = .legal (.subcDD ⟨.f32, .x4⟩) := by
  decide

theorem test_decode_multiply :
    decode 0b000000_010_1_100000#16 = .legal (.mulSS ⟨.f64, .x4⟩) ∧
    decode 0b000000_011_0_100001#16 = .legal (.mulDS ⟨.f32, .x8⟩) ∧
    decode 0b000000_011_1_100011#16 = .legal (.mulDD ⟨.f64, .x8⟩) ∧
    decode 0b000000_100_0_100111#16 = .legal (.mulfDD ⟨.f32, .x16⟩) ∧
    decode 0b000000_000_0_101000#16 = .legal (.squD ⟨.f32, .x1⟩) ∧
    decode 0b000000_000_1_101001#16 = .legal (.squfD ⟨.f64, .x1⟩) := by
  decide

theorem test_decode_divide :
    decode 0b000000_001_0_101100#16 = .legal (.recipS ⟨.f32, .x2⟩) ∧
    decode 0b000000_001_1_101101#16 = .legal (.recipD ⟨.f64, .x2⟩) ∧
    decode 0b000000_010_0_101111#16 = .legal (.divDD ⟨.f32, .x4⟩) ∧
    decode 0b000000_010_1_110001#16 = .legal (.sqrtD ⟨.f64, .x4⟩) := by
  decide

/-- The four grounds of R67, each at the least word that has it. -/
theorem test_decode_illegal :
    decode 0x0410#16 = .illegal .reservedBits ∧ decode 0x0000#16 = .illegal .unassignedOpcode ∧
    decode 0x003F#16 = .illegal .unassignedOpcode ∧ decode 0x0290#16 = .illegal .reservedLaneCode ∧
    decode 0x0250#16 = .illegal .f64SixteenLanes := by
  decide

/-- The host's numbering: bit 0 of the table's word is bit 0 of `cw`. -/
theorem test_decodeTableWord : decodeTableWord 16 0x01D3 = some (.addDD ⟨.f64, .x8⟩) ∧
    decodeTableWord 16 0x0000 = none := by
  decide

/-- The largest legal word (96 section 2.12). -/
theorem test_encode_largest : encode (.sqrtD ⟨.f32, .x16⟩) = 0x0231#16 := by decide

/-! ## Results, one vector of the spec each -/

/-- The response of a fresh engine of a build to a command with these ports. -/
def ask (hasFma checkOrder : Bool) (cw : BitVec 16) (aHi aLo bHi bLo : Nat) : Option Response :=
  responseTo ⟨hasFma, checkOrder⟩
    ⟨cw, BitVec.ofNat 512 aHi, BitVec.ofNat 512 aLo, BitVec.ofNat 512 bHi, BitVec.ofNat 512 bLo⟩

/-- An `OK` response with these result ports. -/
def okay (rHi rLo : Nat) : Option Response := some (.ok (BitVec.ofNat 512 rHi) (BitVec.ofNat 512 rLo))

/-- 95 section 2.1, f64 0.1; R.lo stays zero. -/
theorem test_upper : ask false false 0x0041#16 0x3FB999999999999A 0x0 0x0 0x0 =
    okay 0x3FB9999998000000 0x0 := by
  decide +kernel

/-- R160: the trailing component is +0 whatever the sign. -/
theorem test_widen_negative_zero : ask false false 0x0002#16 0x80000000 0x0 0x0 0x0 =
    okay 0x80000000 0x0 := by
  decide +kernel

/-- R161: 1 + 2^-52 and 2^-53, a tie to even. -/
theorem test_narrow_tie : ask true false 0x0043#16 0x3FF0000000000001 0x3CA0000000000000 0x0 0x0 =
    okay 0x3FF0000000000002 0x0 := by
  decide +kernel

/-- R162: the second operand is B.hi, not A.lo. -/
theorem test_pack : ask false false 0x0004#16 0x3F800000 0x7F800000 0x33800000 0x0 =
    okay 0x3F800000 0x33800000 := by
  decide +kernel

/-- R163. -/
theorem test_neg : ask false false 0x0005#16 0x3CF5C290 0x2FF5C290 0x0 0x0 =
    okay 0xBCF5C290 0xAFF5C290 := by
  decide +kernel

/-- R164: unlike signs stay unlike. -/
theorem test_abs_unlike_signs : ask false false 0x0006#16 0xBE99999A 0x32000000 0x0 0x0 =
    okay 0x3E99999A 0xB2000000 := by
  decide +kernel

/-- R165: components in the wrong order. -/
theorem test_norm_wrong_order : ask false false 0x0007#16 0x30800000 0x3F800000 0x0 0x0 =
    okay 0x3F800000 0x30800000 := by
  decide +kernel

/-- R166: times 2. -/
theorem test_scale : ask false false 0x0048#16 0x3F9EB851EB851EB8 0x3C3EB851EB851EB8 0x4000000000000000 0x0 =
    okay 0x3FAEB851EB851EB8 0x3C4EB851EB851EB8 := by
  decide +kernel

/-- 96 section 2.10: the sign is ignored. -/
theorem test_isinf : ask false false 0x0009#16 0xFF800000 0x0 0x0 0x0 =
    okay 0xFFFFFFFF 0x0 := by
  decide +kernel

/-- 96 section 2.10: a signalling NaN. -/
theorem test_isnan : ask false false 0x004A#16 0x7FF0000000000001 0x0 0x0 0x0 =
    okay 0xFFFFFFFFFFFFFFFF 0x0 := by
  decide +kernel

/-- 96 section 2.10: ISNFIN.f32x4; the bits above the lanes are ignored and zero. -/
theorem test_isnfin_lanes : ask false false 0x010B#16 0x7F8000007FC000003F800000FF80000000000001 0x0 0x0 0x0 =
    okay 0xFFFFFFFF00000000FFFFFFFF00000000 0x0 := by
  decide +kernel

/-- 95 section 2.2: 0.1 + 0.2. -/
theorem test_add_ss : ask false false 0x0010#16 0x3DCCCCCD 0x0 0x3E4CCCCD 0x0 =
    okay 0x3E99999A 0xB2000000 := by
  decide +kernel

/-- 96 section 2.9: 0.1 + 0.2 out of order on a build with the check. -/
theorem test_addc_ss_violation : ask false true 0x0018#16 0x3DCCCCCD 0x0 0x3E4CCCCD 0x0 =
    some (.fault .orderViolation) := by
  decide +kernel

/-- 96 section 2.9: the same on a build without it. -/
theorem test_addc_ss_unchecked : ask false false 0x0018#16 0x3DCCCCCD 0x0 0x3E4CCCCD 0x0 =
    okay 0x3E99999A 0xB2800000 := by
  decide +kernel

/-- 96 section 2.9: the f64 exemption with s equal to 1. -/
theorem test_addc_ss_exemption : ask false true 0x0058#16 0x3FF0000000000000 0x0 0xC000000000000000 0x0 =
    okay 0xBFF0000000000000 0x0 := by
  decide +kernel

/-- 96 section 2.9: P + 1 with the check absent. -/
theorem test_addc_ds : ask false false 0x0059#16 0x3F9EB851EB851EB8 0x3C3EB851EB851EB8 0x3FF0000000000000 0x0 =
    okay 0x3FF07AE147AE147B 0x3C3EB851EB851EB8 := by
  decide +kernel

/-- 96 section 2.9: 1 + P. -/
theorem test_addc_sd : ask false true 0x005A#16 0x3FF0000000000000 0x0 0x3F9EB851EB851EB8 0x3C3EB851EB851EB8 =
    okay 0x3FF07AE147AE147B 0xBC7E147AE147AE14 := by
  decide +kernel

/-- 96 section 2.9: P + Q out of order, the check absent. -/
theorem test_addc_dd : ask false false 0x005B#16 0x3F9EB851EB851EB8 0x3C3EB851EB851EB8 0x3FD5555555555555 0x3C75555555555555 =
    okay 0x3FD740DA740DA740 0x3C95D0369D0369D0 := by
  decide +kernel

/-- 96 section 2.9: Q - P.hi. -/
theorem test_subc_ds : ask false true 0x005D#16 0x3FD5555555555555 0x3C75555555555555 0x3F9EB851EB851EB8 0x0 =
    okay 0x3FD369D0369D036A 0xBC65555555555556 := by
  decide +kernel

/-- 96 section 2.9: Q - P. -/
theorem test_subc_dd : ask false true 0x005F#16 0x3FD5555555555555 0x3C75555555555555 0x3F9EB851EB851EB8 0x3C3EB851EB851EB8 =
    okay 0x3FD369D0369D036A 0xBC692C5F92C5F92D := by
  decide +kernel

/-- 95 section 2.6: T - T.hi, the trailing component survives. -/
theorem test_add_ds : ask false false 0x0011#16 0x3E99999A 0xB2000000 0xBE99999A 0x0 =
    okay 0x0 0xB2000000 := by
  decide +kernel

/-- 95 section 2.6: 1 + P. -/
theorem test_add_sd : ask false false 0x0052#16 0x3FF0000000000000 0x0 0x3F9EB851EB851EB8 0x3C3EB851EB851EB8 =
    okay 0x3FF07AE147AE147B 0xBC7E147AE147AE14 := by
  decide +kernel

/-- 95 section 2.6: P + Q and (-0, -0) + (-0, -0) in two lanes; the host's junk above them is ignored. -/
theorem test_add_dd_lanes : ask false false 0x00D3#16 0x770000000000000000000000000000000000000000000000000000000000000000000080000000000000003F9EB851EB851EB8 0x80000000000000003C3EB851EB851EB8 0x80000000000000003FD5555555555555 0x7780000000000000003C75555555555555 =
    okay 0x80000000000000003FD740DA740DA740 0x3C8BA06D3A06D3A0 := by
  decide +kernel

/-- 95 section 2.6: P - 1. -/
theorem test_sub_ds : ask false false 0x0055#16 0x3F9EB851EB851EB8 0x3C3EB851EB851EB8 0x3FF0000000000000 0x0 =
    okay 0xBFEF0A3D70A3D70A 0xBC7E147AE147AE14 := by
  decide +kernel

/-- 95 section 2.6: P - Q. -/
theorem test_sub_dd : ask false false 0x0017#16 0x3CF5C290 0x2FF5C290 0x3EAAAAAB 0xB22AAAAB =
    okay 0xBE9B4E82 0x323258C0 := by
  decide +kernel

/-- 96 section 2.11: ADD.SS.f32x4; A.lo and B.lo are not read. -/
theorem test_add_ss_lanes : ask false false 0x0110#16 0x3F8000003FC000007F8000003DCCCCCD3F800000 0x1234 0xBFC000003F8000003E4CCCCD33800000 0x5678 =
    okay 0x7F8000003E99999A3F800000 0x7FC00000B200000033800000 := by
  decide +kernel

/-- 96 section 2.11: a checked command on two lanes never faults. -/
theorem test_addc_ss_lanes : ask false true 0x0098#16 0x3380000033800000 0x0 0x3F8000003F800000 0x0 =
    okay 0x3F8000003F800000 0x3380000033800000 := by
  decide +kernel

/-- 95: 0.1 x 0.3 on the split path. -/
theorem test_mul_ss_split : ask false false 0x0060#16 0x3FB999999999999A 0x0 0x3FD3333333333333 0x0 =
    okay 0x3F9EB851EB851EB8 0x3C3EB851EB851EB8 := by
  decide +kernel

/-- 96 section 2.7: Q x 3 on the split path. -/
theorem test_mul_ds_split : ask false false 0x0021#16 0x3EAAAAAB 0xB22AAAAB 0x40400000 0x0 =
    okay 0x3F800000 0x0 := by
  decide +kernel

/-- 96 section 2.7: Q x 3 on the FMA path. -/
theorem test_mul_ds_fma : ask true false 0x0021#16 0x3EAAAAAB 0xB22AAAAB 0x40400000 0x0 =
    okay 0x3F800000 0xA6800000 := by
  decide +kernel

/-- 96 section 2.7: P x Q. -/
theorem test_mul_dd_split : ask false false 0x0063#16 0x3F9EB851EB851EB8 0x3C3EB851EB851EB8 0x3FD5555555555555 0x3C75555555555555 =
    okay 0x3F847AE147AE147A 0x3C3F92C5F92C5F92 := by
  decide +kernel

/-- 96 section 2.7: overflow on the FMA path. -/
theorem test_mul_dd_fma_overflow : ask true false 0x0023#16 0x7F7FFFFF 0x0 0x40000000 0x0 =
    okay 0x7F800000 0xFF800000 := by
  decide +kernel

/-- 96 section 2.7: P x Q, plain. -/
theorem test_mulf_dd : ask false false 0x0067#16 0x3F9EB851EB851EB8 0x3C3EB851EB851EB8 0x3FD5555555555555 0x3C75555555555555 =
    okay 0x3F847AE147AE147B 0x0 := by
  decide +kernel

/-- 96 section 2.7: Q^2 on the split path. -/
theorem test_squ_d_split : ask false false 0x0068#16 0x3FD5555555555555 0x3C75555555555555 0x0 0x0 =
    okay 0x3FBC71C71C71C71C 0x3C5C71C71C71C71C := by
  decide +kernel

/-- 96 section 2.7: Q^2 on the FMA path. -/
theorem test_squ_d_fma : ask true false 0x0068#16 0x3FD5555555555555 0x3C75555555555555 0x0 0x0 =
    okay 0x3FBC71C71C71C71C 0x3C5C71C71C71C71B := by
  decide +kernel

/-- 96 section 2.7: T^2, plain. -/
theorem test_squf_d : ask true false 0x0069#16 0x3FD3333333333334 0xBC80000000000000 0x0 0x0 =
    okay 0x3FB70A3D70A3D70B 0x0 := by
  decide +kernel

/-- R142: 1/3. -/
theorem test_recip_s : ask false false 0x002C#16 0x40400000 0x0 0x0 0x0 =
    okay 0x3EAAAAAB 0xB22AAAAB := by
  decide +kernel

/-- R142: the smallest subnormal on the FMA path. -/
theorem test_recip_s_overflow : ask true false 0x002C#16 0x1 0x0 0x0 0x0 =
    okay 0x7F800000 0xFF800000 := by
  decide +kernel

/-- 96 section 2.8: 1/Q on the split path. -/
theorem test_recip_d_split : ask false false 0x006D#16 0x3FD5555555555555 0x3C75555555555555 0x0 0x0 =
    okay 0x4008000000000000 0x0 := by
  decide +kernel

/-- 96 section 2.8: 1/Q on the FMA path. -/
theorem test_recip_d_fma : ask true false 0x006D#16 0x3FD5555555555555 0x3C75555555555555 0x0 0x0 =
    okay 0x4008000000000000 0x3948000000000000 := by
  decide +kernel

/-- 96 section 2.8: P/Q on the split path. -/
theorem test_div_dd_split : ask false false 0x002F#16 0x3CF5C290 0x2FF5C290 0x3EAAAAAB 0xB22AAAAB =
    okay 0x3DB851EC 0x30B851EC := by
  decide +kernel

/-- 96 section 2.8: P/Q on the FMA path. -/
theorem test_div_dd_fma : ask true false 0x002F#16 0x3CF5C290 0x2FF5C290 0x3EAAAAAB 0xB22AAAAB =
    okay 0x3DB851EC 0x30B851ED := by
  decide +kernel

/-- 96 section 2.8: the root of 2 on the split path. -/
theorem test_sqrt_d_split : ask false false 0x0071#16 0x4000000000000000 0x0 0x0 0x0 =
    okay 0x3FF6A09E667F3BCC 0x3CA21165F626CDD4 := by
  decide +kernel

/-- 96 section 2.8: the root of 2 on the FMA path. -/
theorem test_sqrt_d_fma : ask true false 0x0071#16 0x4000000000000000 0x0 0x0 0x0 =
    okay 0x3FF6A09E667F3BCC 0x3CA21165F626CDD5 := by
  decide +kernel

/-! ## Faults, the halted engine and reset (96_test_vectors_part2.md section 2.13), one step each -/

/-- An engine state for the tests: latch, command in flight, responses so far and the host's coming actions. -/
def engine (halted : Bool) (code : BitVec 2) (c : Option Command) (rs : List Response) (host : List HostEvent) :
    State :=
  ⟨halted, code, c, rs, host, ⟨false, true⟩⟩

/-- The command `ADD.SS.f32 1, 2^-24`. -/
def sampleCommand : Command := ⟨0x0010#16, 0x3F800000, 0, 0x33800000, 0⟩

/-- A checked addition out of order, `ADDC.SS.f32 2^-24, 1`. -/
def outOfOrder : Command := ⟨0x0018#16, 0x33800000, 0, 0x3F800000, 0⟩

/-- A command whose word is 0. -/
def illegalCommand : Command := ⟨0x0000#16, 0, 0, 0, 0⟩

/-- A running engine with `sampleCommand` accepted and not yet answered. -/
def busy : State := engine false 0 (some sampleCommand) [] []

/-- Row 3: an illegal command word. -/
theorem test_illegal_command :
    step (engine false 0 none [] [.command illegalCommand]) =
      .next (engine true 1 none [.fault .illegalCommand] []) := rfl

/-- Row 4: a halted engine does not take the command. -/
theorem test_halted_ignores :
    step (engine true 1 none [.fault .illegalCommand] [.command sampleCommand]) =
      .next (engine true 1 none [.fault .illegalCommand] []) := rfl

/-- Row 5: reset. -/
theorem test_reset :
    step (engine true 1 none [.fault .illegalCommand] [.reset]) =
      .next (engine false 0 none [.fault .illegalCommand] []) := rfl

/-- R300: a command caught by a reset after its acceptance is discarded without a response. -/
theorem test_reset_discards :
    step (engine false 0 none [] [.resetCatching sampleCommand]) = .next (engine false 0 none [] []) := rfl

/-- The host's question: `withFetchWord` makes the next step run that word, from reset. -/
theorem test_withFetchWord :
    step (State.reset.withFetchWord 16 0x0010) =
      exec (.addSS ⟨.f32, .x1⟩) { State.reset with inFlight := some ⟨0x0010#16, 0, 0, 0, 0⟩ } := rfl

/-! ## Witnesses: the hypotheses of the statements are met -/

theorem witness_DecodeEncodeRoundTrip :
    Instr.wellFormed (.upper ⟨.f32, .x1⟩) = true ∧ Instr.wellFormed (.sqrtD ⟨.f64, .x8⟩) = true := ⟨rfl, rfl⟩

theorem witness_DecodedWordIsItsEncoding :
    decode 0x0001#16 = .legal (.upper ⟨.f32, .x1⟩) ∧ decode 0x0231#16 = .legal (.sqrtD ⟨.f32, .x16⟩) := by
  decide

theorem witness_CommandWordFields : rsvField 0x03FF#16 = 0#6 ∧ rsvField 0x0000#16 = 0#6 := by decide

theorem witness_IllegalWordsRaiseIllegalCommand :
    (engine false 0 none [] [.command illegalCommand]).halted = false ∧
    (engine false 0 none [] [.command illegalCommand]).inFlight = none ∧
    (engine false 0 none [] [.command illegalCommand]).host = .command illegalCommand :: [] ∧
    decode illegalCommand.cw = .illegal .unassignedOpcode := ⟨rfl, rfl, rfl, by decide⟩

theorem witness_StepRunsDecodedCommand :
    (engine false 0 none [] [.command sampleCommand]).host = .command sampleCommand :: [] ∧
    (engine false 0 none [] [.command sampleCommand]).inFlight = none ∧
    busy.halted = false ∧ busy.inFlight = some sampleCommand ∧ busy.host = [] ∧
    decode sampleCommand.cw = .legal (.addSS ⟨.f32, .x1⟩) := ⟨rfl, rfl, rfl, rfl, rfl, by decide⟩

/-- Each of its three clauses. -/
theorem witness_HaltedUntilReset :
    (engine true 1 none [] []).halted = true ∧ (engine true 1 none [] []).host = [] ∧
    (engine true 1 none [] [.command sampleCommand]).host = .command sampleCommand :: [] ∧
    step (engine true 1 none [] [.reset]) = .next (engine false 0 none [] []) := ⟨rfl, rfl, rfl, rfl⟩

theorem witness_ResetEventEffect :
    (engine true 2 none [] [.reset]).host = .reset :: [] ∧
    (engine false 0 none [] [.resetCatching sampleCommand]).host = .resetCatching sampleCommand :: [] :=
  ⟨rfl, rfl⟩

/-- A running and a halted state with the invariant, each with a step. -/
theorem witness_FaultLatchKeptByEveryStep :
    FaultLatch (engine false 0 none [] [.command illegalCommand]) ∧
    step (engine false 0 none [] [.command illegalCommand]) =
      .next (engine true 1 none [.fault .illegalCommand] []) ∧
    FaultLatch (engine true 2 none [.fault .orderViolation] [.reset]) ∧
    step (engine true 2 none [.fault .orderViolation] [.reset]) =
      .next (engine false 0 none [.fault .orderViolation] []) :=
  ⟨⟨fun _ => rfl, fun h => by cases h⟩, rfl, ⟨fun h => by (cases h), fun _ => ⟨rfl, .orderViolation, rfl, rfl⟩⟩, rfl⟩

theorem witness_NothingHeldBetweenCommands :
    (engine false 0 none [] [.command illegalCommand]).inFlight = none ∧
    step (engine false 0 none [] [.command illegalCommand]) =
      .next (engine true 1 none [.fault .illegalCommand] []) := ⟨rfl, rfl⟩

theorem witness_OneResponsePerAcceptedCommand :
    (engine false 0 none [] [.command outOfOrder, .reset]).halted = false ∧
    (engine false 0 none [] [.command outOfOrder, .reset]).inFlight = none ∧
    (engine false 0 none [] [.command outOfOrder, .reset]).host = .command outOfOrder :: [.reset] := ⟨rfl, rfl, rfl⟩

/-- The response that a build without an order check gives to `outOfOrder`, and every build to `sampleCommand`. -/
def sampleResponse : Response := .ok 0x3F800000 0x33800000

theorem witness_CommandStreamAnsweredInOrder :
    busy.halted = false ∧ (engine false 0 none [] [.command sampleCommand]).inFlight = none ∧
    (engine false 0 none [] [.command sampleCommand]).host = [sampleCommand].map .command ++ [] ∧
    [sampleCommand].map (responseTo ⟨false, true⟩) = [sampleResponse].map some ∧
    (∀ r ∈ [sampleResponse], r.isOk = true) :=
  ⟨rfl, rfl, rfl, by decide +kernel, by decide⟩

theorem witness_FaultIsPreciseAndFinal :
    (engine false 0 none [] [.command sampleCommand, .command outOfOrder, .command sampleCommand]).halted = false ∧
    (engine false 0 none [] [.command sampleCommand, .command outOfOrder, .command sampleCommand]).inFlight = none ∧
    (engine false 0 none [] [.command sampleCommand, .command outOfOrder, .command sampleCommand]).host =
      [sampleCommand].map .command ++ .command outOfOrder :: ([sampleCommand].map .command ++ []) ∧
    [sampleCommand].map (responseTo ⟨false, true⟩) = [sampleResponse].map some ∧
    (∀ r ∈ [sampleResponse], r.isOk = true) ∧
    responseTo ⟨false, true⟩ outOfOrder = some (.fault .orderViolation) :=
  ⟨rfl, rfl, rfl, by decide +kernel, by decide, by decide +kernel⟩

/-- A command that differs from `sampleCommand` in its word and in all four ports, from the bit above lane 0 on. -/
def otherBits : Command :=
  ⟨0xFFFF#16, 0x3F800000 ||| 1 <<< 32, 1 <<< 33, 0x33800000 ||| 1 <<< 511, 1 <<< 32⟩

/-- One command of each operand format. -/
theorem witness_UnreadOperandBitsIgnored :
    AgreeOnRead (.upper ⟨.f32, .x1⟩) sampleCommand otherBits ∧
    AgreeOnRead (.neg ⟨.f32, .x1⟩) sampleCommand otherBits ∧
    AgreeOnRead (.addSS ⟨.f32, .x1⟩) sampleCommand otherBits ∧
    AgreeOnRead (.addDS ⟨.f32, .x1⟩) sampleCommand otherBits ∧
    AgreeOnRead (.addSD ⟨.f32, .x1⟩) sampleCommand otherBits ∧
    AgreeOnRead (.addDD ⟨.f32, .x1⟩) sampleCommand otherBits := by
  have aHi : AgreeOnLanes ⟨.f32, .x1⟩ sampleCommand.aHi otherBits.aHi := by unfold AgreeOnLanes; decide +kernel
  have aLo : AgreeOnLanes ⟨.f32, .x1⟩ sampleCommand.aLo otherBits.aLo := by unfold AgreeOnLanes; decide +kernel
  have bHi : AgreeOnLanes ⟨.f32, .x1⟩ sampleCommand.bHi otherBits.bHi := by unfold AgreeOnLanes; decide +kernel
  have bLo : AgreeOnLanes ⟨.f32, .x1⟩ sampleCommand.bLo otherBits.bLo := by unfold AgreeOnLanes; decide +kernel
  exact ⟨aHi, ⟨aHi, aLo⟩, ⟨aHi, bHi⟩, ⟨aHi, aLo, bHi⟩, ⟨aHi, bHi, bLo⟩, ⟨aHi, aLo, bHi, bLo⟩⟩

theorem witness_UnusedResultBitsAreZero : ∃ rHi rLo,
    exec (.upper ⟨.f32, .x1⟩) busy = .next (answeredWith busy (.ok rHi rLo)) ∧
    32 * 1 ≤ 32 ∧ (Instr.upper ⟨.f32, .x1⟩).resultClass ≠ .doubled :=
  ⟨_, _, rfl, by decide, by decide⟩

theorem witness_LanesAreIndependent : ∃ rHi rLo,
    busy.inFlight = some sampleCommand ∧
    exec (.addDD ⟨.f64, .x8⟩) busy = .next (answeredWith busy (.ok rHi rLo)) ∧
    7 < (Instr.addDD ⟨.f64, .x8⟩).shape.lanes.count :=
  ⟨_, _, rfl, rfl, by decide⟩

theorem witness_VectorCommandsNeverFault :
    Instr.wellFormed (.addcDD ⟨.f64, .x2⟩) = true ∧ (Instr.addcDD ⟨.f64, .x2⟩).shape.lanes ≠ .x1 := by decide

/-- Both sides of the equivalence: a check that fails, and one that does not run. -/
theorem witness_OrderViolationExactly :
    (engine false 0 (some outOfOrder) [] []).inFlight = some outOfOrder ∧
    (engine false 0 (some outOfOrder) [] []).build.checkOrder = true ∧
    orderOk (lane .f32 outOfOrder.aHi 0) (lane .f32 outOfOrder.bHi 0) = false ∧
    orderOk (lane .f32 sampleCommand.aHi 0) (lane .f32 sampleCommand.bHi 0) = true := by
  decide +kernel

theorem witness_FmaParameterUnused : ∃ t,
    (Instr.addSS ⟨.f32, .x1⟩).usesFma = false ∧ exec (.addSS ⟨.f32, .x1⟩) busy = .next t := ⟨_, rfl, rfl⟩

/-- Each disjunct: a command without a check, and a checked one of two lanes. -/
theorem witness_CheckOrderParameterUnused : ∃ t u,
    (Instr.mulDD ⟨.f32, .x1⟩).isChecked = false ∧ exec (.mulDD ⟨.f32, .x1⟩) busy = .next t ∧
    (Instr.addcSS ⟨.f32, .x2⟩).shape.lanes ≠ .x1 ∧ exec (.addcSS ⟨.f32, .x2⟩) busy = .next u :=
  ⟨_, _, rfl, rfl, by decide, rfl⟩

theorem witness_BuildParametersAreFixed :
    step (engine true 1 none [] [.reset]) = .next (engine false 0 none [] []) := rfl

theorem witness_UpperCompletes :
    Shape.legal ⟨.f32, .x16⟩ = true ∧ Shape.legal ⟨.f64, .x8⟩ = true ∧ busy.inFlight = some sampleCommand :=
  ⟨rfl, rfl, rfl⟩

theorem witness_WidenNarrowPackComplete :
    Shape.legal ⟨.f32, .x16⟩ = true ∧ Shape.legal ⟨.f64, .x8⟩ = true ∧ busy.inFlight = some sampleCommand :=
  ⟨rfl, rfl, rfl⟩

theorem witness_NegAbsComplete :
    Shape.legal ⟨.f32, .x16⟩ = true ∧ Shape.legal ⟨.f64, .x8⟩ = true ∧ busy.inFlight = some sampleCommand :=
  ⟨rfl, rfl, rfl⟩

theorem witness_NormScaleComplete :
    Shape.legal ⟨.f32, .x16⟩ = true ∧ Shape.legal ⟨.f64, .x8⟩ = true ∧ busy.inFlight = some sampleCommand :=
  ⟨rfl, rfl, rfl⟩

theorem witness_ClassifyComplete :
    Shape.legal ⟨.f32, .x16⟩ = true ∧ Shape.legal ⟨.f64, .x8⟩ = true ∧ busy.inFlight = some sampleCommand :=
  ⟨rfl, rfl, rfl⟩

theorem witness_AddSSCompletes :
    Shape.legal ⟨.f32, .x16⟩ = true ∧ Shape.legal ⟨.f64, .x8⟩ = true ∧ busy.inFlight = some sampleCommand :=
  ⟨rfl, rfl, rfl⟩

theorem witness_AddDoubledComplete :
    Shape.legal ⟨.f32, .x16⟩ = true ∧ Shape.legal ⟨.f64, .x8⟩ = true ∧ busy.inFlight = some sampleCommand :=
  ⟨rfl, rfl, rfl⟩

theorem witness_SubDoubledComplete :
    Shape.legal ⟨.f32, .x16⟩ = true ∧ Shape.legal ⟨.f64, .x8⟩ = true ∧ busy.inFlight = some sampleCommand :=
  ⟨rfl, rfl, rfl⟩

theorem witness_MulSSCompletes :
    Shape.legal ⟨.f32, .x16⟩ = true ∧ Shape.legal ⟨.f64, .x8⟩ = true ∧ busy.inFlight = some sampleCommand :=
  ⟨rfl, rfl, rfl⟩

theorem witness_MulDoubledComplete :
    Shape.legal ⟨.f32, .x16⟩ = true ∧ Shape.legal ⟨.f64, .x8⟩ = true ∧ busy.inFlight = some sampleCommand :=
  ⟨rfl, rfl, rfl⟩

theorem witness_PlainProductsComplete :
    Shape.legal ⟨.f32, .x16⟩ = true ∧ Shape.legal ⟨.f64, .x8⟩ = true ∧ busy.inFlight = some sampleCommand :=
  ⟨rfl, rfl, rfl⟩

theorem witness_SquDCompletes :
    Shape.legal ⟨.f32, .x16⟩ = true ∧ Shape.legal ⟨.f64, .x8⟩ = true ∧ busy.inFlight = some sampleCommand :=
  ⟨rfl, rfl, rfl⟩

theorem witness_RecipComplete :
    Shape.legal ⟨.f32, .x16⟩ = true ∧ Shape.legal ⟨.f64, .x8⟩ = true ∧ busy.inFlight = some sampleCommand :=
  ⟨rfl, rfl, rfl⟩

theorem witness_DivDDCompletes :
    Shape.legal ⟨.f32, .x16⟩ = true ∧ Shape.legal ⟨.f64, .x8⟩ = true ∧ busy.inFlight = some sampleCommand :=
  ⟨rfl, rfl, rfl⟩

theorem witness_SqrtDCompletes :
    Shape.legal ⟨.f32, .x16⟩ = true ∧ Shape.legal ⟨.f64, .x8⟩ = true ∧ busy.inFlight = some sampleCommand :=
  ⟨rfl, rfl, rfl⟩

/-- Each disjunct of the condition: no check unit, several lanes, the operands in order. -/
theorem witness_AddcComplete :
    Shape.legal ⟨.f32, .x1⟩ = true ∧ busy.inFlight = some sampleCommand ∧
    (presented ⟨true, false⟩ sampleCommand).build.checkOrder = false ∧ Lanes.x2 ≠ .x1 ∧
    orderOk (lane .f32 sampleCommand.aHi 0) (lane .f32 sampleCommand.bHi 0) = true := by
  decide +kernel

theorem witness_SubcComplete :
    Shape.legal ⟨.f64, .x1⟩ = true ∧ busy.inFlight = some sampleCommand ∧
    (presented ⟨true, false⟩ sampleCommand).build.checkOrder = false ∧ Lanes.x2 ≠ .x1 ∧
    orderOk (lane .f32 sampleCommand.aHi 0) (fneg (lane .f32 sampleCommand.bHi 0)) = true := by
  decide +kernel

/-! ### Words: finite from the smallest subnormal to the largest number -/

theorem witness_RoundingFixesRepresentable :
    isFinite (k := .f32) 0x00000001#32 = true ∧ isZero (k := .f32) 0x00000001#32 = false ∧
    isFinite (k := .f64) 0xFFEFFFFFFFFFFFFF#64 = true ∧ isZero (k := .f64) 0xFFEFFFFFFFFFFFFF#64 = false := by
  decide

/-- Each clause: a rational between two words, one that rounds to a zero, a tie between `0x3F800000` and `0x3F800001`
(R140's worked example, which rounds to the even one), and the midpoint above the largest number, which overflows. -/
theorem witness_RoundingIsNearest :
    (1 / 3 : ℚ) ≠ 0 ∧ isFinite (rn .f32 (1 / 3)) = true ∧
    (-1 / 2 ^ 160 : ℚ) ≠ 0 ∧ isFinite (rn .f32 (-1 / 2 ^ 160)) = true ∧
    rn .f32 (1 + 1 / 2 ^ 24) = 0x3F800000#32 ∧ isFinite (k := .f32) 0x3F800001#32 = true ∧
    |value (k := .f32) 0x3F800000#32 - (1 + 1 / 2 ^ 24)| = |value (k := .f32) 0x3F800001#32 - (1 + 1 / 2 ^ 24)| ∧
    value (k := .f32) 0x3F800001#32 ≠ value (k := .f32) 0x3F800000#32 ∧
    isFinite (rn .f32 (((2 : ℚ) ^ 24 - 1 / 2) * 2 ^ 104)) = false := by
  decide +kernel

theorem witness_SquareRootIsNearest :
    isFinite (k := .f32) 0x00000001#32 = true ∧ isZero (k := .f32) 0x00000001#32 = false ∧
    signBit (k := .f32) 0x00000001#32 = false ∧ isFinite (k := .f64) 0x7FEFFFFFFFFFFFFF#64 = true := by
  decide

theorem witness_SplitIsExact :
    isFinite (k := .f32) 0x00000FFF#32 = true ∧ isFinite (k := .f64) 0x7FEFFFFFFFFFFFFF#64 = true := by
  decide

/-- The second operand just below the largest number. -/
theorem witness_TwoSumIsExact :
    isFinite (k := .f32) 0xF3C00000#32 = true ∧ isFinite (k := .f32) 0x7F7FFFFE#32 = true ∧
    isFinite (fadd (k := .f32) 0xF3C00000#32 0x7F7FFFFE#32) = true ∧
    |value (k := .f32) 0x7F7FFFFE#32| < maxFinite .f32 := by
  decide +kernel

/-- These operands meet the premises of R144 (a) as worded, and its conclusion fails for them: `e` is a NaN. -/
theorem witness_TwoSumIsExactForAllFiniteOperands :
    isFinite (k := .f32) 0xF3C00000#32 = true ∧ isFinite (k := .f32) 0x7F7FFFFF#32 = true ∧
    isFinite (fadd (k := .f32) 0xF3C00000#32 0x7F7FFFFF#32) = true := by
  decide +kernel

/-- Each clause: `r` overflows, `r -. a` overflows, neither. -/
theorem witness_TwoSumOfFiniteOperands :
    isFinite (k := .f32) 0xF3C00000#32 = true ∧ isFinite (k := .f32) 0x7F7FFFFF#32 = true ∧
    isFinite (fadd (k := .f32) 0x7F7FFFFF#32 0x7F7FFFFF#32) = false ∧
    isFinite (fadd (k := .f32) 0xF3C00000#32 0x7F7FFFFF#32) = true ∧
    isFinite (fsub (fadd (k := .f32) 0xF3C00000#32 0x7F7FFFFF#32) 0xF3C00000#32) = false ∧
    isFinite (fadd (k := .f32) 0xFF7FFFFF#32 0x7F7FFFFF#32) = true ∧
    isFinite (fsub (fadd (k := .f32) 0xFF7FFFFF#32 0x7F7FFFFF#32) 0xFF7FFFFF#32) = true := by
  decide +kernel

theorem witness_FastTwoSumIsExact :
    isFinite (k := .f32) 0x7F7FFFFF#32 = true ∧ isFinite (k := .f32) 0xFF7FFFFF#32 = true ∧
    |value (k := .f32) 0xFF7FFFFF#32| ≤ |value (k := .f32) 0x7F7FFFFF#32| ∧
    isFinite (fadd (k := .f32) 0x7F7FFFFF#32 0xFF7FFFFF#32) = true := by
  decide +kernel

/-- 0.1 times 0.3 in `f64`, whose error is `0x3C3EB851EB851EB8` (95_test_vectors.md section 1.2). -/
theorem witness_FusedProductErrorIsExact :
    isFinite (k := .f64) 0x3FB999999999999A#64 = true ∧ isFinite (k := .f64) 0x3FD3333333333333#64 = true ∧
    isFinite (fmul (k := .f64) 0x3FB999999999999A#64 0x3FD3333333333333#64) = true ∧
    isFinite (k := .f64) 0x3C3EB851EB851EB8#64 = true ∧
    value (k := .f64) 0x3C3EB851EB851EB8#64 =
      value (k := .f64) 0x3FB999999999999A#64 * value (k := .f64) 0x3FD3333333333333#64 -
        value (fmul (k := .f64) 0x3FB999999999999A#64 0x3FD3333333333333#64) := by
  decide +kernel

/-- One word for each class that a clause names; the clause of the zeros has no premise. -/
theorem witness_TwoSumSpecialOperands :
    isNan (k := .f32) 0x7F800001#32 = true ∧ isInfinity (k := .f32) 0xFF800000#32 = true ∧
    isFinite (k := .f32) 0x7F7FFFFF#32 = true ∧ isZero (k := .f32) 0x00000001#32 = false := by
  decide

theorem witness_WidenNarrowRoundTrip : Shape.legal ⟨.f32, .x16⟩ = true ∧ Shape.legal ⟨.f64, .x8⟩ = true := ⟨rfl, rfl⟩

/-- Each disjunct: the zero divisor, and the least divisor above those whose reciprocal overflows. -/
theorem witness_RecipDOfPlainValueIsRecipS :
    isZero (k := .f32) 0x80000000#32 = true ∧ isInfinity (recipSeed (k := .f32) 0x00200001#32) = false ∧
    isInfinity (recipSeed (k := .f32) 0x00200000#32) = true := by
  decide +kernel

/-- Both operands the largest number in lane 0 of a scalar command. -/
theorem witness_DifferenceWithItselfIsZero :
    Shape.legal ⟨.f32, .x1⟩ = true ∧
    (engine false 0 (some ⟨0x001F#16, 0x7F7FFFFF, 0x80000000, 0x7F7FFFFF, 0x80000000⟩) [] []).inFlight =
      some ⟨0x001F#16, 0x7F7FFFFF, 0x80000000, 0x7F7FFFFF, 0x80000000⟩ ∧
    isFinite (lane .f32 0x7F7FFFFF 0) = true ∧ isFinite (lane .f32 0x80000000 0) = true := by
  decide +kernel

/-- A NaN, and finite words at both ends. -/
theorem witness_QuietComparisonsMeaning :
    isNan (k := .f64) 0x7FF0000000000001#64 = true ∧ isFinite (k := .f64) 0x7FEFFFFFFFFFFFFF#64 = true ∧
    isFinite (k := .f64) 0x8000000000000000#64 = true := by
  decide

theorem witness_PseudoInstructionsExpand : Shape.legal ⟨.f32, .x16⟩ = true ∧ Shape.legal ⟨.f64, .x8⟩ = true :=
  ⟨rfl, rfl⟩

end Sys2Proof.Tests
end

section
/-! PROOF. The build parameters under a step: 00_scope.md R2, 70_reset_and_hazards.md R301. -/

namespace Sys2Proof.Machine

/-- The state that the host's event leaves, whether or not a command is then to be executed in it. -/
def Fetched.state : Fetched → State
  | .quiet t => t
  | .execute t => t

@[simp] theorem Fetched.state_quiet (t : State) : (Fetched.quiet t).state = t := rfl
@[simp] theorem Fetched.state_execute (t : State) : (Fetched.execute t).state = t := rfl

/-- No host event writes the build, the two resets included (R301). -/
theorem fetch_build (s : State) : (fetch s).state.build = s.build := by
  rcases fetch_cases s with ⟨_, _, reset⟩ | ⟨_, _, _, resetCatching⟩ | ⟨_, _, _, _, refused⟩ | ⟨_, _, idle⟩ |
    ⟨_, _, _, busy⟩ | ⟨_, _, _, _, _, accepted⟩
  · simp [reset]
  · simp [resetCatching]
  · simp [refused]
  · simp [idle]
  · simp [busy]
  · simp [accepted]

/-- No meaning writes the build: it answers the command or takes a fault (R2). -/
theorem exec_build {i : Instr} {s t : State} (h : exec i s = .next t) : t.build = s.build := by
  rcases exec_cases i s with ⟨_, _, _, e⟩ | ⟨_, e⟩ | ⟨_, _, _, e⟩
  all_goals cases e.symm.trans h
  · exact answer_build _ s
  · exact raise_build _ s
  · exact raise_build _ s

/-- A step is a host event and perhaps a meaning, and neither writes the build (R2, R301). -/
theorem step_build {s t : State} (h : step s = .next t) : t.build = s.build := by
  have fetched := fetch_build s
  rcases step_cases s with ⟨u, hf, e⟩ | ⟨u, i, hf, _, e⟩ | ⟨u, _, hf, _, e⟩
  all_goals simp only [hf, Fetched.state_quiet, Fetched.state_execute] at fetched
  · cases e.symm.trans h
    exact fetched
  · exact (exec_build (e.symm.trans h)).trans fetched
  · cases e.symm.trans h
    exact (raise_build _ u).trans fetched

/-- Settles O24: neither the host's event nor the command executed after it writes the build. -/
theorem buildParametersAreFixed : Obligations.BuildParametersAreFixed :=
  fun _ _ => step_build

end Sys2Proof.Machine
end

section
/-! PROOF. The engine's state between commands: one response to each command and the latch that a fault leaves
(10_state.md R23, R24, R28, R31, R32; 60_exceptions.md R273, R274), the operand bits a command reads and the result
bits it leaves zero (10_state.md R25; 30_encoding.md R64). -/

namespace Sys2Proof.Machine

/-! ## The response to the command in flight -/

/-- The state that the response `r` to the command in flight leaves: a result answers the command (R24), a fault is
taken (R273). -/
def respond : Response → State → State
  | .ok rHi rLo, s => answer (.ok rHi rLo) s
  | .fault f, s => raise f s

@[simp] theorem respond_ok (rHi rLo : Port) (s : State) : respond (.ok rHi rLo) s = answer (.ok rHi rLo) s := rfl
@[simp] theorem respond_fault (f : Fault) (s : State) : respond (.fault f) s = raise f s := rfl

@[simp] theorem respond_inFlight (r : Response) (s : State) : (respond r s).inFlight = none := by
  cases r <;> rfl

@[simp] theorem respond_responses (r : Response) (s : State) : (respond r s).responses = s.responses ++ [r] := by
  cases r <;> rfl

/-- The command in flight leaves no trace but its response (R24). -/
theorem respond_with_inFlight (r : Response) (s : State) (c d : Option Command) :
    respond r { s with inFlight := c } = respond r { s with inFlight := d } := by
  cases r <;> rfl

/-- Every meaning responds to its command. -/
theorem exec_responds (i : Instr) (s : State) : ∃ r, exec i s = .next (respond r s) := by
  rcases exec_cases i s with ⟨rHi, rLo, _, answered⟩ | ⟨_, illegal⟩ | ⟨_, _, _, violated⟩
  · exact ⟨.ok rHi rLo, answered⟩
  · exact ⟨.fault .illegalCommand, illegal⟩
  · exact ⟨.fault .orderViolation, violated⟩

/-- A step is quiet, or responds to the command that the host's action left in flight. -/
theorem step_quiet_or_responds (s : State) :
    (∃ t, fetch s = .quiet t ∧ step s = .next t) ∨
    (∃ t r, fetch s = .execute t ∧ step s = .next (respond r t)) := by
  rcases step_cases s with quiet | ⟨t, i, hf, _, legal⟩ | ⟨t, _, hf, _, illegal⟩
  · exact .inl quiet
  · obtain ⟨r, responds⟩ := exec_responds i t
    exact .inr ⟨t, r, hf, legal.trans responds⟩
  · exact .inr ⟨t, .fault .illegalCommand, hf, illegal⟩

/-! ## The latch of a fault, and nothing held between commands -/

theorem faultLatch_of_running {s : State} (running : s.halted = false) (code : s.faultCode = 0#2) : FaultLatch s :=
  ⟨fun _ => code, fun halted => absurd (running.symm.trans halted) Bool.false_ne_true⟩

theorem faultLatch_applyReset (s : State) : FaultLatch (applyReset s) :=
  faultLatch_of_running (applyReset_halted s) (applyReset_faultCode s)

/-- Taking a fault sets the latch, whatever it was (R273). -/
theorem faultLatch_raise (f : Fault) (s : State) : FaultLatch (raise f s) :=
  ⟨fun running => absurd running (by simp), fun _ => ⟨rfl, f, by simp, rfl⟩⟩

/-- A response in a running engine keeps the latch: a result leaves it open, a fault sets it. -/
theorem faultLatch_respond {s : State} (latch : FaultLatch s) (running : s.halted = false) (r : Response) :
    FaultLatch (respond r s) := by
  cases r with
  | ok rHi rLo =>
    obtain ⟨code, _⟩ := latch
    exact faultLatch_of_running running (code running)
  | fault f => exact faultLatch_raise f s

/-- No host event disturbs the latch: it resets it, or leaves it, and a halted engine takes no command (R274). -/
theorem faultLatch_fetch {s : State} (latch : FaultLatch s) : FaultLatch (fetch s).state := by
  rcases fetch_cases s with ⟨_, _, reset⟩ | ⟨_, _, _, resetCatching⟩ | ⟨_, _, _, _, refused⟩ | ⟨_, _, idle⟩ |
    ⟨_, _, _, busy⟩ | ⟨_, _, _, running, _, accepted⟩
  · rw [reset]
    exact faultLatch_applyReset _
  · rw [resetCatching]
    exact faultLatch_applyReset _
  · rw [refused]
    exact latch
  · rw [idle]
    exact latch
  · rw [busy]
    exact latch
  · rw [accepted]
    obtain ⟨code, _⟩ := latch
    exact faultLatch_of_running running (code running)

/-- Only a running engine executes a command (R274). -/
theorem running_of_fetch_execute {s t : State} (h : fetch s = .execute t) : t.halted = false := by
  rcases fetch_cases s with ⟨_, _, e⟩ | ⟨_, _, _, e⟩ | ⟨_, _, _, _, e⟩ | ⟨_, _, e⟩ | ⟨_, running, _, e⟩ |
    ⟨_, _, _, running, _, e⟩
  all_goals cases e.symm.trans h
  · exact running
  · exact running

/-- Settles O11: the host's event keeps the latch, and only a running engine then responds to a command. -/
theorem faultLatchKeptByEveryStep : Obligations.FaultLatchKeptByEveryStep := by
  intro s t latch h
  have fetched := faultLatch_fetch latch
  rcases step_quiet_or_responds s with ⟨u, hf, e⟩ | ⟨u, r, hf, e⟩
  all_goals
    cases e.symm.trans h
    rw [hf] at fetched
  · exact fetched
  · exact faultLatch_respond fetched (running_of_fetch_execute hf) r

/-- Settles O12: the engine is running after reset, with code 0. -/
theorem faultLatchAtReset : Obligations.FaultLatchAtReset :=
  faultLatch_of_running rfl rfl

/-- Settles O10: the fields are those of the reset state, and a reset does not write the build (R301). -/
theorem resetStateFields : Obligations.ResetStateFields :=
  ⟨rfl, rfl, rfl, rfl, applyReset_build⟩

/-- A step without a command to execute accepts none. -/
theorem inFlight_of_fetch_quiet {s t : State} (free : s.inFlight = none) (h : fetch s = .quiet t) :
    t.inFlight = none := by
  rcases fetch_cases s with ⟨_, _, e⟩ | ⟨_, _, _, e⟩ | ⟨_, _, _, _, e⟩ | ⟨_, _, e⟩ | ⟨_, _, _, e⟩ |
    ⟨_, _, _, _, _, e⟩
  all_goals cases e.symm.trans h
  · exact applyReset_inFlight _
  · exact applyReset_inFlight _
  · exact free
  · exact free

/-- Settles O13: a quiet step accepts no command, and a response takes the command out of flight. -/
theorem nothingHeldBetweenCommands : Obligations.NothingHeldBetweenCommands := by
  intro s t free h
  rcases step_quiet_or_responds s with ⟨u, hf, e⟩ | ⟨u, r, _, e⟩
  all_goals cases e.symm.trans h
  · exact inFlight_of_fetch_quiet free hf
  · exact respond_inFlight r u

/-! ## The operand bits a command reads -/

section Agreement

variable {sh : Shape} {s t : State}

theorem lane_eq_of_agreeOnLanes {p q : Port} (h : AgreeOnLanes sh p q) {j : Nat} (hj : j < sh.lanes.count) :
    lane sh.kind p j = lane sh.kind q j := by
  apply BitVec.eq_of_getLsbD_eq
  intro b hb
  have within : sh.kind.width * (j + 1) ≤ sh.kind.width * sh.lanes.count := Nat.mul_le_mul_left _ hj
  rw [Nat.mul_succ] at within
  rw [getLsbD_lane, getLsbD_lane, h _ (by omega)]

theorem plainA_eq_of_agree (hi : AgreeOnLanes sh (current s).aHi (current t).aHi) :
    ∀ j, j < sh.lanes.count → plainA sh.kind s j = plainA sh.kind t j :=
  fun _ hj => lane_eq_of_agreeOnLanes hi hj

theorem plainB_eq_of_agree (hi : AgreeOnLanes sh (current s).bHi (current t).bHi) :
    ∀ j, j < sh.lanes.count → plainB sh.kind s j = plainB sh.kind t j :=
  fun _ hj => lane_eq_of_agreeOnLanes hi hj

theorem doubledA_eq_of_agree (hi : AgreeOnLanes sh (current s).aHi (current t).aHi)
    (lo : AgreeOnLanes sh (current s).aLo (current t).aLo) :
    ∀ j, j < sh.lanes.count → doubledA sh.kind s j = doubledA sh.kind t j :=
  fun _ hj => congrArg₂ Doubled.mk (lane_eq_of_agreeOnLanes hi hj) (lane_eq_of_agreeOnLanes lo hj)

theorem doubledB_eq_of_agree (hi : AgreeOnLanes sh (current s).bHi (current t).bHi)
    (lo : AgreeOnLanes sh (current s).bLo (current t).bLo) :
    ∀ j, j < sh.lanes.count → doubledB sh.kind s j = doubledB sh.kind t j :=
  fun _ hj => congrArg₂ Doubled.mk (lane_eq_of_agreeOnLanes hi hj) (lane_eq_of_agreeOnLanes lo hj)

theorem agreeOnRead_refl (i : Instr) (c : Command) : AgreeOnRead i c c := by
  unfold AgreeOnRead
  cases i.format <;> simp [AgreeOnLanes]

/-- The outcomes `a` of `s` and `b` of `t` respond to the command in flight with the same response. -/
def SameResponse (s t : State) (a b : Host.Outcome State Fault Refusal) : Prop :=
  ∃ r, a = .next (respond r s) ∧ b = .next (respond r t)

/-- Whether `complete` answers or refuses is a matter of the shape alone (R252). -/
theorem sameResponse_complete (rHi rLo : Port) :
    SameResponse s t (.next (complete sh (.ok rHi rLo) s)) (.next (complete sh (.ok rHi rLo) t)) := by
  cases hl : sh.legal
  · exact ⟨.fault .illegalCommand, by simp [complete, hl], by simp [complete, hl]⟩
  · exact ⟨.ok rHi rLo, by simp [complete, hl], by simp [complete, hl]⟩

theorem sameResponse_completePlain {f g : Nat → Word sh.kind} (h : ∀ j, j < sh.lanes.count → f j = g j) :
    SameResponse s t (.next (completePlain sh f s)) (.next (completePlain sh g t)) := by
  unfold completePlain plainResponse
  rw [packLanes_congr h]
  exact sameResponse_complete _ _

theorem sameResponse_completeMask {f g : Nat → Bool} (h : ∀ j, j < sh.lanes.count → f j = g j) :
    SameResponse s t (.next (completeMask sh f s)) (.next (completeMask sh g t)) :=
  sameResponse_completePlain fun j hj => congrArg (maskWord sh.kind) (h j hj)

theorem sameResponse_completeDoubled {f g : Nat → Doubled sh.kind} (h : ∀ j, j < sh.lanes.count → f j = g j) :
    SameResponse s t (.next (completeDoubled sh f s)) (.next (completeDoubled sh g t)) := by
  unfold completeDoubled doubledResponse
  rw [packLanes_congr fun j hj => congrArg Doubled.hi (h j hj),
    packLanes_congr fun j hj => congrArg Doubled.lo (h j hj)]
  exact sameResponse_complete _ _

/-- The check compares the same words and runs on the same builds (R223, R224). -/
theorem sameResponse_completeChecked {a a' b b' : Word sh.kind} {f g : Nat → Doubled sh.kind}
    (build : s.build = t.build) (ha : a = a') (hb : b = b') (h : ∀ j, j < sh.lanes.count → f j = g j) :
    SameResponse s t (.next (completeChecked sh a b f s)) (.next (completeChecked sh a' b' g t)) := by
  subst ha hb
  have runs : checkRuns sh s = checkRuns sh t := by simp [checkRuns, build]
  unfold completeChecked
  rw [runs]
  split
  · exact ⟨.fault .orderViolation, rfl, rfl⟩
  · exact sameResponse_completeDoubled h

end Agreement

/-- The response of a meaning is a function of the operand bits it reads and of the build (R24, R25, R64). The cases
are the operand formats, each divided by the result class and by whether the command is checked. -/
theorem sameResponse_exec {i : Instr} {s t : State} (build : s.build = t.build)
    (agree : AgreeOnRead i (current s) (current t)) : SameResponse s t (exec i s) (exec i t) := by
  cases i with
  | upper sh =>
    have a := plainA_eq_of_agree (sh := sh) agree
    exact sameResponse_completePlain fun j hj => by simp only [a j hj]
  | isinf sh | isnan sh | isnfin sh =>
    have a := plainA_eq_of_agree (sh := sh) agree
    exact sameResponse_completeMask fun j hj => by simp only [a j hj]
  | widen sh | recipS sh =>
    have a := plainA_eq_of_agree (sh := sh) agree
    exact sameResponse_completeDoubled fun j hj => by simp only [a j hj, build]
  | narrow sh | squfD sh =>
    obtain ⟨aHi, aLo⟩ := agree
    have x := doubledA_eq_of_agree (sh := sh) aHi aLo
    exact sameResponse_completePlain fun j hj => by simp only [x j hj, build]
  | neg sh | abs sh | norm sh | squD sh | recipD sh | sqrtD sh =>
    obtain ⟨aHi, aLo⟩ := agree
    have x := doubledA_eq_of_agree (sh := sh) aHi aLo
    exact sameResponse_completeDoubled fun j hj => by simp only [x j hj, build]
  | pack sh | addSS sh | mulSS sh =>
    obtain ⟨aHi, bHi⟩ := agree
    have a := plainA_eq_of_agree (sh := sh) aHi
    have b := plainB_eq_of_agree (sh := sh) bHi
    exact sameResponse_completeDoubled fun j hj => by simp only [a j hj, b j hj, build]
  | addcSS sh =>
    obtain ⟨aHi, bHi⟩ := agree
    have a := plainA_eq_of_agree (sh := sh) aHi
    have b := plainB_eq_of_agree (sh := sh) bHi
    exact sameResponse_completeChecked build (a 0 (lanes_count_pos _)) (b 0 (lanes_count_pos _))
      fun j hj => by simp only [a j hj, b j hj]
  | scale sh | addDS sh | subDS sh | mulDS sh =>
    obtain ⟨aHi, aLo, bHi⟩ := agree
    have x := doubledA_eq_of_agree (sh := sh) aHi aLo
    have b := plainB_eq_of_agree (sh := sh) bHi
    exact sameResponse_completeDoubled fun j hj => by simp only [x j hj, b j hj, build]
  | addcDS sh | subcDS sh =>
    obtain ⟨aHi, aLo, bHi⟩ := agree
    have x := doubledA_eq_of_agree (sh := sh) aHi aLo
    have b := plainB_eq_of_agree (sh := sh) bHi
    exact sameResponse_completeChecked build (by rw [x 0 (lanes_count_pos _)]) (by rw [b 0 (lanes_count_pos _)])
      fun j hj => by simp only [x j hj, b j hj]
  | addSD sh =>
    obtain ⟨aHi, bHi, bLo⟩ := agree
    have a := plainA_eq_of_agree (sh := sh) aHi
    have y := doubledB_eq_of_agree (sh := sh) bHi bLo
    exact sameResponse_completeDoubled fun j hj => by simp only [a j hj, y j hj]
  | addcSD sh =>
    obtain ⟨aHi, bHi, bLo⟩ := agree
    have a := plainA_eq_of_agree (sh := sh) aHi
    have y := doubledB_eq_of_agree (sh := sh) bHi bLo
    exact sameResponse_completeChecked build (a 0 (lanes_count_pos _)) (by rw [y 0 (lanes_count_pos _)])
      fun j hj => by simp only [a j hj, y j hj]
  | mulfDD sh =>
    obtain ⟨aHi, aLo, bHi, bLo⟩ := agree
    have x := doubledA_eq_of_agree (sh := sh) aHi aLo
    have y := doubledB_eq_of_agree (sh := sh) bHi bLo
    exact sameResponse_completePlain fun j hj => by simp only [x j hj, y j hj, build]
  | addDD sh | subDD sh | mulDD sh | divDD sh =>
    obtain ⟨aHi, aLo, bHi, bLo⟩ := agree
    have x := doubledA_eq_of_agree (sh := sh) aHi aLo
    have y := doubledB_eq_of_agree (sh := sh) bHi bLo
    exact sameResponse_completeDoubled fun j hj => by simp only [x j hj, y j hj, build]
  | addcDD sh | subcDD sh =>
    obtain ⟨aHi, aLo, bHi, bLo⟩ := agree
    have x := doubledA_eq_of_agree (sh := sh) aHi aLo
    have y := doubledB_eq_of_agree (sh := sh) bHi bLo
    exact sameResponse_completeChecked build (by rw [x 0 (lanes_count_pos _)]) (by rw [y 0 (lanes_count_pos _)])
      fun j hj => by simp only [x j hj, y j hj]

/-- Settles O17: the response is the same, and a response leaves no trace of the command it answers. -/
theorem unreadOperandBitsIgnored : Obligations.UnreadOperandBitsIgnored := by
  intro i s c d agree
  obtain ⟨r, hc, hd⟩ :=
    sameResponse_exec (s := { s with inFlight := some c }) (t := { s with inFlight := some d }) rfl agree
  rw [hc, hd, respond_with_inFlight]

/-! ## A presented command in a running engine -/

/-- `s` with the command `c` taken, and the list of events `rest` behind it. -/
def taken (s : State) (c : Command) (rest : List HostEvent) : State := { s with host := rest, inFlight := some c }

/-- A command presented to a running engine with none in flight is taken and is the one executed (R23). -/
theorem fetch_presented {s : State} {c : Command} {rest : List HostEvent} (running : s.halted = false)
    (free : s.inFlight = none) (host : s.host = .command c :: rest) : fetch s = .execute (taken s c rest) := by
  simp [fetch, accept, taken, running, free, host]

/-- Two running engines of one build respond to a presented command with the same response (R24). -/
theorem sameResponse_step {s s' : State} {c : Command} {rest rest' : List HostEvent}
    (hs : fetch s = .execute (taken s c rest)) (hs' : fetch s' = .execute (taken s' c rest'))
    (build : s.build = s'.build) :
    SameResponse (taken s c rest) (taken s' c rest') (step s) (step s') := by
  have word : current (taken s c rest) = c := rfl
  have word' : current (taken s' c rest') = c := rfl
  simp only [step, hs, hs', word, word']
  cases decode c.cw with
  | legal i => exact sameResponse_exec build (agreeOnRead_refl i c)
  | illegal why => exact ⟨.fault .illegalCommand, rfl, rfl⟩

/-- The first response of a fresh engine is its response to the command presented. -/
theorem responseTo_of_step {b : Build} {c : Command} {r : Response}
    (h : step (presented b c) = .next (respond r (taken (presented b c) c []))) : responseTo b c = some r := by
  have fresh : (taken (presented b c) c []).responses = [] := rfl
  simp [responseTo, h, fresh]

/-- What a response to the command just taken leaves of a running engine, field by field. -/
theorem respond_taken {s : State} {c : Command} {rest : List HostEvent} (running : s.halted = false)
    (free : s.inFlight = none) (r : Response) :
    respond r (taken s c rest) = { s with
      host := rest
      responses := s.responses ++ [r]
      halted := !r.isOk
      faultCode := if r.isOk then s.faultCode else statusOf r } := by
  rcases s with ⟨halted, code, inFlight, responses, host, build⟩
  cases running
  cases free
  cases r <;> rfl

/-- Settles O14: the engine takes the command as a fresh engine of its build does, so both give the same response. -/
theorem oneResponsePerAcceptedCommand : Obligations.OneResponsePerAcceptedCommand := by
  intro s c rest running free host
  have fresh : fetch (presented s.build c) = .execute (taken (presented s.build c) c []) :=
    fetch_presented rfl rfl rfl
  obtain ⟨r, hs, hfresh⟩ := sameResponse_step (fetch_presented running free host) fresh rfl
  exact ⟨r, responseTo_of_step hfresh, hs.trans (congrArg _ (respond_taken running free r))⟩

/-! ## The result bits a command leaves zero -/

/-- The ports of a result of command `i`, zero where R25 and R250 say: above the lanes, and all of `R.lo` unless the
result is doubled. A fault has no ports. -/
def ResultZeros (i : Instr) (r : Response) : Prop :=
  ∀ rHi rLo, r = .ok rHi rLo →
    (∀ b, i.shape.kind.width * i.shape.lanes.count ≤ b → rHi.getLsbD b = false ∧ rLo.getLsbD b = false) ∧
    (i.resultClass ≠ .doubled → rLo = 0)

theorem resultZeros_fault (i : Instr) (f : Fault) : ResultZeros i (.fault f) := fun _ _ h => nomatch h

theorem resultZeros_doubledResponse {i : Instr} (doubled : i.resultClass = .doubled)
    (f : Nat → Doubled i.shape.kind) : ResultZeros i (doubledResponse i.shape f) := by
  rintro _ _ ⟨⟩
  exact ⟨fun b hb => ⟨getLsbD_packLanes_high _ _ b hb, getLsbD_packLanes_high _ _ b hb⟩, absurd doubled⟩

theorem resultZeros_plainResponse (i : Instr) (f : Nat → Word i.shape.kind) :
    ResultZeros i (plainResponse i.shape f) := by
  rintro _ _ ⟨⟩
  exact ⟨fun b hb => ⟨getLsbD_packLanes_high _ _ b hb, BitVec.getLsbD_zero⟩, fun _ => rfl⟩

/-- Completing a command keeps the zeros: the shape decides whether it is answered with `ports` or refused (R252). -/
theorem responds_of_complete {i : Instr} {s : State} {rHi rLo : Port} (zeros : ResultZeros i (.ok rHi rLo))
    (e : exec i s = .next (complete i.shape (.ok rHi rLo) s)) :
    ∃ r, ResultZeros i r ∧ exec i s = .next (respond r s) := by
  rcases complete_cases i.shape (.ok rHi rLo) s with ⟨_, answered⟩ | ⟨_, refused⟩
  · exact ⟨.ok rHi rLo, zeros, e.trans (congrArg _ answered)⟩
  · exact ⟨.fault .illegalCommand, resultZeros_fault i _, e.trans (congrArg _ refused)⟩

theorem responds_of_completePlain {i : Instr} {s : State} {f : Nat → Word i.shape.kind}
    (e : exec i s = .next (completePlain i.shape f s)) : ∃ r, ResultZeros i r ∧ exec i s = .next (respond r s) :=
  responds_of_complete (resultZeros_plainResponse i f) e

theorem responds_of_completeDoubled {i : Instr} {s : State} {f : Nat → Doubled i.shape.kind}
    (doubled : i.resultClass = .doubled) (e : exec i s = .next (completeDoubled i.shape f s)) :
    ∃ r, ResultZeros i r ∧ exec i s = .next (respond r s) :=
  responds_of_complete (resultZeros_doubledResponse doubled f) e

theorem responds_of_completeChecked {i : Instr} {s : State} {a b : Word i.shape.kind}
    {f : Nat → Doubled i.shape.kind} (doubled : i.resultClass = .doubled)
    (e : exec i s = .next (completeChecked i.shape a b f s)) :
    ∃ r, ResultZeros i r ∧ exec i s = .next (respond r s) := by
  rcases completeChecked_cases i.shape a b f s with ⟨_, _, _, violated⟩ | ⟨_, completed⟩
  · exact ⟨.fault .orderViolation, resultZeros_fault i _, e.trans (congrArg _ violated)⟩
  · exact responds_of_completeDoubled doubled (e.trans (congrArg _ completed))

/-- A meaning responds with ports that are zero above the lanes and of its own result class; the cases are the ways
to complete a command. -/
theorem exec_responds_resultZeros (i : Instr) (s : State) :
    ∃ r, ResultZeros i r ∧ exec i s = .next (respond r s) := by
  cases i with
  | upper | narrow | isinf | isnan | isnfin | mulfDD | squfD => exact responds_of_completePlain rfl
  | addcSS | addcDS | addcSD | addcDD | subcDS | subcDD => exact responds_of_completeChecked rfl rfl
  | widen | pack | neg | abs | norm | scale | addSS | addDS | addSD | addDD | subDS | subDD | mulSS | mulDS | mulDD
  | squD | recipS | recipD | divDD | sqrtD => exact responds_of_completeDoubled rfl rfl

/-- Settles O18: the response delivered is the one whose ports have the zeros. -/
theorem unusedResultBitsAreZero : Obligations.UnusedResultBitsAreZero := by
  intro i s rHi rLo h
  obtain ⟨r, zeros, e⟩ := exec_responds_resultZeros i s
  have same : respond r s = answeredWith s (.ok rHi rLo) := by
    injection e.symm.trans h
  have delivered : s.responses ++ [r] = s.responses ++ [.ok rHi rLo] := by
    simpa [answeredWith] using congrArg State.responses same
  exact zeros rHi rLo (by simpa using delivered)

end Sys2Proof.Machine
end

section
/-! PROOF. What commands leave for one another: a stream of commands is answered in order (20_memory.md R46), and
the two kinds cut the same port bits (20_memory.md R41). -/

namespace Sys2Proof.Machine

/-! ## A stream of commands -/

theorem run_succ_of_step {M : Host.Core} {s t : M.State} (h : M.step s = .next t) (k : Nat) :
    M.run (k + 1) s = M.run k t := by
  rw [Host.Core.run, h]

/-- A command that gets a result leaves its response and nothing else in a running engine (R24). -/
theorem step_of_responseTo_ok {s : State} {c : Command} {rest : List HostEvent} {r : Response}
    (running : s.halted = false) (free : s.inFlight = none) (host : s.host = .command c :: rest)
    (response : responseTo s.build c = some r) (ok : r.isOk = true) :
    step s = .next { s with host := rest, responses := s.responses ++ [r] } := by
  obtain ⟨r', response', e⟩ := oneResponsePerAcceptedCommand s c rest running free host
  obtain rfl : r = r' := Option.some.inj (response.symm.trans response')
  simp [e, ok, running]

/-- Settles O15, by induction on the commands: the first one leaves a running engine of the same build, with one
response more, to the others. -/
theorem commandStreamAnsweredInOrder : Obligations.CommandStreamAnsweredInOrder := by
  intro cs
  induction cs with
  | nil =>
    intro rs later s _ _ host responses _
    obtain rfl : rs = [] := by simpa using responses
    have unread : s.host = later := host
    simp [Host.Core.run, ← unread]
  | cons c cs ih =>
    intro rs later s running free host responses ok
    cases rs with
    | nil => simp at responses
    | cons r rs =>
      obtain ⟨response, responses⟩ := List.cons.inj responses
      obtain ⟨okFirst, okRest⟩ := List.forall_mem_cons.mp ok
      have first := step_of_responseTo_ok running free host response okFirst
      have others := ih rs later { s with host := cs.map .command ++ later, responses := s.responses ++ [r] }
        running free rfl responses okRest
      calc Sys2Proof.core.run (cs.length + 1) s
        _ = Sys2Proof.core.run cs.length
              { s with host := cs.map .command ++ later, responses := s.responses ++ [r] } :=
            run_succ_of_step first cs.length
        _ = .next { s with host := later, responses := s.responses ++ [r] ++ rs } := others
        _ = .next { s with host := later, responses := s.responses ++ r :: rs } := by
            rw [List.append_assoc, List.singleton_append]

/-! ## The mixed-width view of a port -/

/-- Settles O56: bit `b` of either side is bit `64 * j + b` of the port. The low half of the bits lies in `f32` lane
`2 * j`, the high half in the lane after it. -/
theorem mixedWidthView : Obligations.MixedWidthView := by
  intro p j
  apply BitVec.eq_of_getLsbD_eq
  intro b (hb : b < 64)
  rw [getLsbD_lane, BitVec.getLsbD_append, getLsbD_lane, getLsbD_lane]
  by_cases low : b < 32
  · have same : 64 * j + b = 32 * (2 * j) + b := by omega
    simp [low, hb, same]
  · have same : 64 * j + b = 32 * (2 * j + 1) + (b - 32) := by omega
    have high : b - 32 < 32 := by omega
    simp [low, hb, high, same]

end Sys2Proof.Machine
end

section
/-! PROOF. The command word (30_encoding.md R60 to R68): its fields as numbers, the decoder and the encoder as
inverses of one another on the legal words, the illegal words and the fault they raise (60_exceptions.md R271). -/

namespace Sys2Proof

/-! ## The fields as numbers -/

theorem toNat_opcField (cw : BitVec 16) : (opcField cw).toNat = cw.toNat % 64 := by
  simp [opcField, BitVec.extractLsb'_toNat]

theorem toNat_ekField (cw : BitVec 16) : (ekField cw).toNat = cw.toNat / 64 % 2 := by
  simp [ekField, BitVec.extractLsb'_toNat, Nat.shiftRight_eq_div_pow]

theorem toNat_lwField (cw : BitVec 16) : (lwField cw).toNat = cw.toNat / 128 % 8 := by
  simp [lwField, BitVec.extractLsb'_toNat, Nat.shiftRight_eq_div_pow]

/-- `rsv` is the top field, so nothing is cut off above it. -/
theorem toNat_rsvField (cw : BitVec 16) : (rsvField cw).toNat = cw.toNat / 1024 := by
  have top : cw.toNat / 1024 < 64 := by omega
  simp [rsvField, BitVec.extractLsb'_toNat, Nat.shiftRight_eq_div_pow, Nat.mod_eq_of_lt top]

/-- Settles O3: each field is a digit of the word in mixed radix, and `rsv = 0` leaves only the lower three. -/
theorem commandWordFields : Obligations.CommandWordFields := by
  intro cw
  refine ⟨toNat_opcField cw, toNat_ekField cw, toNat_lwField cw, toNat_rsvField cw, fun reserved => ?_⟩
  have high : cw.toNat / 1024 = 0 := by rw [← toNat_rsvField, reserved, BitVec.toNat_zero]
  rw [toNat_opcField, toNat_ekField, toNat_lwField]
  omega

/-! ## Decoding and encoding -/

/-- The opcode table backwards: the constructor an `opc` value decodes to has that value, and keeps the shape. -/
theorem opcodeOf_of_decodeOpc {opc : BitVec 6} {op : Shape → Instr} (h : decodeOpc opc = some op) (sh : Shape) :
    opcodeOf (op sh) = opc ∧ (op sh).shape = sh := by
  unfold decodeOpc at h
  split at h
  case h_34 => cases h
  all_goals
    rename_i value
    cases h
    exact ⟨(BitVec.eq_of_toNat_eq value).symm, rfl⟩

/-- The word of a well-formed command decodes to it: the fields are those of R60, and each is decoded back. -/
theorem decode_encode {i : Instr} (wellFormed : i.wellFormed = true) : decode (encode i) = .legal i := by
  obtain ⟨opc, ek, lw, rsv⟩ := Laws.encodeFields_of i
  obtain ⟨op, assigned, same⟩ := decodeOpc_opcodeOf i
  have legal : i.shape.legal = true := wellFormed
  simp [decode, opc, ek, lw, rsv, assigned, legal, same]

/-- Settles O1: the decoder inverts each field that the encoder writes. -/
theorem decodeEncodeRoundTrip : Obligations.DecodeEncodeRoundTrip :=
  fun _ => decode_encode

/-- A legal word has `rsv = 0` and the other three fields of its command. -/
theorem fields_of_decode_legal {cw : BitVec 16} {i : Instr} (h : decode cw = .legal i) :
    i.wellFormed = true ∧ rsvField cw = 0#6 ∧ encodeLanes i.shape.lanes = lwField cw ∧
      encodeKind i.shape.kind = ekField cw ∧ opcodeOf i = opcField cw := by
  rcases decode_cases cw with ⟨_, e⟩ | ⟨_, _, e⟩ | ⟨_, _, _, _, e⟩ | ⟨_, _, _, _, _, _, e⟩ |
    ⟨op, l, reserved, assigned, lanes, legal, e⟩
  all_goals cases e.symm.trans h
  obtain ⟨opc, shape⟩ := opcodeOf_of_decodeOpc assigned ⟨decodeKind (ekField cw), l⟩
  rw [Instr.wellFormed, shape]
  exact ⟨legal, reserved, encodeLanes_of_decodeLanes lanes, encodeKind_decodeKind _, opc⟩

/-- Settles O2: the encoder puts the fields of the decoded word together again. -/
theorem decodedWordIsItsEncoding : Obligations.DecodedWordIsItsEncoding := by
  intro cw i h
  obtain ⟨wellFormed, rsv, lw, ek, opc⟩ := fields_of_decode_legal h
  refine ⟨wellFormed, ?_⟩
  rw [encode, lw, ek, opc, ← rsv]
  exact word_eq_fields cw

/-- Settles O5: each word is the encoding of the command it stands for. -/
theorem sampleWordsDecode : Obligations.SampleWordsDecode :=
  ⟨decode_encode (i := .upper ⟨.f32, .x1⟩) rfl, decode_encode (i := .addSS ⟨.f32, .x1⟩) rfl,
    decode_encode (i := .addDD ⟨.f64, .x1⟩) rfl, decode_encode (i := .sqrtD ⟨.f64, .x1⟩) rfl,
    decode_encode (i := .addcSS ⟨.f32, .x2⟩) rfl, decode_encode (i := .addSS ⟨.f32, .x4⟩) rfl,
    decode_encode (i := .addDD ⟨.f64, .x8⟩) rfl, decode_encode (i := .sqrtD ⟨.f32, .x16⟩) rfl,
    decode_encode (i := .isnfin ⟨.f32, .x4⟩) rfl, decode_encode (i := .mulDS ⟨.f64, .x1⟩) rfl,
    decode_encode (i := .norm ⟨.f64, .x1⟩) rfl⟩

/-! ## The illegal words -/

/-- The 33 assigned `opc` values (R65). -/
def assignedOpcodes : List Nat :=
  [0x01, 0x02, 0x03, 0x04, 0x05, 0x06, 0x07, 0x08, 0x09, 0x0A, 0x0B, 0x10, 0x11, 0x12, 0x13, 0x15, 0x17, 0x18, 0x19,
    0x1A, 0x1B, 0x1D, 0x1F, 0x20, 0x21, 0x23, 0x27, 0x28, 0x29, 0x2C, 0x2D, 0x2F, 0x31]

/-- The default row of the opcode table is reached by the values outside the list, and by no other. -/
theorem decodeOpc_eq_none_iff (opc : BitVec 6) : decodeOpc opc = none ↔ opc.toNat ∉ assignedOpcodes := by
  revert opc
  decide

theorem decodeLanes_eq_none_iff (lw : BitVec 3) : decodeLanes lw = none ↔ 5 ≤ lw.toNat := by
  revert lw
  decide

/-- The one illegal pair of a kind and a lane count, by its codes (R67 (d)). -/
theorem legal_eq_false_iff {lw : BitVec 3} {l : Lanes} (lanes : decodeLanes lw = some l) (ek : BitVec 1) :
    Shape.legal ⟨decodeKind ek, l⟩ = false ↔ ek = 1#1 ∧ lw.toNat = 4 := by
  rw [← encodeLanes_of_decodeLanes lanes]
  revert ek
  cases l <;> decide

/-- The decoder refuses a word in the four cases of R67 and in no other. -/
theorem decode_illegal_iff (cw : BitVec 16) :
    (∃ why, decode cw = .illegal why) ↔
      (rsvField cw ≠ 0#6 ∨ (opcField cw).toNat ∉ assignedOpcodes ∨ 5 ≤ (lwField cw).toNat ∨
        (ekField cw = 1#1 ∧ (lwField cw).toNat = 4)) := by
  rw [← decodeOpc_eq_none_iff, ← decodeLanes_eq_none_iff]
  rcases decode_cases cw with ⟨reserved, e⟩ | ⟨_, unassigned, e⟩ | ⟨_, _, _, noLanes, e⟩ |
    ⟨_, _, _, _, lanes, illegal, e⟩ | ⟨_, _, clear, assigned, lanes, legal, e⟩
  · exact iff_of_true ⟨_, e⟩ (.inl reserved)
  · exact iff_of_true ⟨_, e⟩ (.inr (.inl unassigned))
  · exact iff_of_true ⟨_, e⟩ (.inr (.inr (.inl noLanes)))
  · exact iff_of_true ⟨_, e⟩ (.inr (.inr (.inr ((legal_eq_false_iff lanes _).mp illegal))))
  · have pair := (legal_eq_false_iff lanes (ekField cw)).not.mp (by simp [legal])
    simp [e, clear, assigned, lanes, pair]

end Sys2Proof

namespace Sys2Proof.Machine

/-- A refused word in a running engine is taken and raises `IllegalCommand` (R271). -/
theorem step_of_decode_illegal {s : State} {c : Command} {rest : List HostEvent} {why : Illegal}
    (running : s.halted = false) (free : s.inFlight = none) (host : s.host = .command c :: rest)
    (illegal : decode c.cw = .illegal why) : step s = .next (raise .illegalCommand (taken s c rest)) := by
  have word : current (taken s c rest) = c := rfl
  simp [step, fetch_presented running free host, word, illegal]

/-- Settles O4: the cases of `decode_illegal_iff`, and the fault of the step that decodes such a word. -/
theorem illegalWordsRaiseIllegalCommand : Obligations.IllegalWordsRaiseIllegalCommand :=
  ⟨decode_illegal_iff, fun _ _ _ _ running free host illegal => step_of_decode_illegal running free host illegal⟩

end Sys2Proof.Machine
end

section
/-! PROOF. The pseudo-instructions (30_encoding.md R70): the value that a command leaves with the host, lane by lane,
and the expansions of more than one command or of a changed operand. -/

namespace Sys2Proof.Machine

/-! ## Lanes of a port with bits flipped -/

theorem lane_xor (k : Kind) (p q : Port) (j : Nat) : lane k (p ^^^ q) j = lane k p j ^^^ lane k q j :=
  BitVec.extractLsb'_xor ..

/-- A word shifted up to lane `n` of a port is that lane (R250). -/
theorem lane_shifted_same {k : Kind} (w : Word k) {n : Nat} (fits : k.width * (n + 1) ≤ vlen) :
    lane k (w.setWidth vlen <<< (k.width * n)) n = w := by
  apply BitVec.eq_of_getLsbD_eq
  intro b hb
  rw [Nat.mul_succ] at fits
  have inPort : k.width * n + b < vlen := by omega
  have low : b < vlen := by omega
  rw [getLsbD_lane, BitVec.getLsbD_shiftLeft, BitVec.getLsbD_setWidth]
  simp [hb, inPort, low]

/-- A word shifted up to lane `n` of a port leaves the other lanes zero. -/
theorem lane_shifted_of_ne {k : Kind} (w : Word k) {n j : Nat} (ne : j ≠ n) :
    lane k (w.setWidth vlen <<< (k.width * n)) j = 0#k.width := by
  apply BitVec.eq_of_getLsbD_eq
  intro b hb
  rw [getLsbD_lane, BitVec.getLsbD_shiftLeft, BitVec.getLsbD_setWidth, BitVec.getLsbD_zero]
  rcases Nat.lt_or_gt_of_ne ne with below | above
  · have next : k.width * (j + 1) ≤ k.width * n := Nat.mul_le_mul_left _ below
    rw [Nat.mul_succ] at next
    have under : k.width * j + b < k.width * n := by omega
    simp [under]
  · have next : k.width * (n + 1) ≤ k.width * j := Nat.mul_le_mul_left _ above
    rw [Nat.mul_succ] at next
    have past : w.getLsbD (k.width * j + b - k.width * n) = false := BitVec.getLsbD_of_ge _ _ (by omega)
    simp [past]

/-- The host flips the sign of lanes `0` to `n-1` and leaves the lanes above them (R70). -/
theorem lane_negatePort (k : Kind) (p : Port) (j : Nat) : ∀ {n : Nat}, k.width * n ≤ vlen →
    lane k (negatePort k n p) j = if j < n then fneg (lane k p j) else lane k p j
  | 0, _ => by simp [negatePort]
  | n + 1, fits => by
    have fewer : k.width * n ≤ vlen := le_trans (Nat.mul_le_mul_left _ n.le_succ) fits
    rw [negatePort, lane_xor, lane_negatePort k p j fewer]
    rcases eq_or_ne j n with rfl | ne
    · simp [lane_shifted_same _ fits, fneg]
    · have same : j < n + 1 ↔ j < n := by omega
      simp [lane_shifted_of_ne _ ne, same]

/-! ## The value a command leaves -/

/-- Lane `j` of a host value, both components (R16, R64). -/
def HostValue.lane (k : Kind) (v : HostValue) (j : Nat) : Doubled k :=
  ⟨Machine.lane k v.hi j, Machine.lane k v.lo j⟩

/-- An engine of build `bld` answers `i` on the operands `a` and `b` with the value `v`. -/
def Gives (bld : Build) (i : Instr) (a b v : HostValue) : Prop :=
  responseTo bld (commandOf i a b) = some (.ok v.hi v.lo)

/-- A fresh engine that has taken the command `i` on the operands `a` and `b`. -/
def issued (bld : Build) (i : Instr) (a b : HostValue) : State :=
  taken (presented bld (commandOf i a b)) (commandOf i a b) []

/-- An engine that a well-formed command is presented to runs its meaning: the command word decodes back. -/
theorem step_presented_commandOf {i : Instr} (wellFormed : i.wellFormed = true) (bld : Build) (a b : HostValue) :
    step (presented bld (commandOf i a b)) = exec i (issued bld i a b) := by
  have fetched : fetch (presented bld (commandOf i a b)) = .execute (issued bld i a b) := fetch_presented rfl rfl rfl
  have word : decode (current (issued bld i a b)).cw = .legal i := decode_encode wellFormed
  simp [step, fetched, word]

/-- A well-formed command whose meaning completes with the doubled results `f` gives a value with those lanes. -/
theorem gives_of_completeDoubled {bld : Build} {i : Instr} {a b : HostValue} {f : Nat → Doubled i.shape.kind}
    (wellFormed : i.wellFormed = true)
    (e : exec i (issued bld i a b) = .next (completeDoubled i.shape f (issued bld i a b))) :
    ∃ v, Gives bld i a b v ∧ ∀ j, j < i.shape.lanes.count → v.lane i.shape.kind j = f j := by
  obtain ⟨rHi, rLo, response, lanes, _⟩ := doubledResponse_spec wellFormed f
  have answered : exec i (issued bld i a b) = .next (respond (.ok rHi rLo) (issued bld i a b)) := by
    rw [e, completeDoubled_legal wellFormed, response, respond_ok]
  refine ⟨⟨rHi, rLo⟩, responseTo_of_step ((step_presented_commandOf wellFormed bld a b).trans answered), ?_⟩
  intro j hj
  obtain ⟨hi, lo⟩ := lanes j hj
  exact congrArg₂ Doubled.mk hi lo

/-- An expansion of one command leaves what the command gives. -/
theorem runExpansion_one {bld : Build} {i : Instr} {a b v : HostValue} (given : Gives bld i a b v) (t : HostValue) :
    runExpansion bld t [⟨i, .value a, .value b⟩] = some v := by
  unfold Gives at given
  simp [runExpansion, Source.get, given]

/-- An expansion of two commands hands what the first gives to the second, as `t` (R303). -/
theorem runExpansion_two {bld : Build} {i i' : Instr} {a b x t v : HostValue} (first : Gives bld i a b t)
    (second : Gives bld i' x t v) (t₀ : HostValue) :
    runExpansion bld t₀ [⟨i, .value a, .value b⟩, ⟨i', .value x, .previous⟩] = some v := by
  unfold Gives at first second
  simp [runExpansion, Source.get, first, second]

/-! ## The four expansions -/

section Expansions

variable (bld : Build) {sh : Shape} (legal : sh.legal = true)
include legal

/-- `DIV.DS`: `WIDEN` leaves the pairs `(b, +0)`, which `DIV.DD` divides by. -/
theorem run_divDS (x b : HostValue) : ∃ v, (Pseudo.divDS x b).run bld sh = some v ∧
    ∀ j, j < sh.lanes.count → v.lane sh.kind j =
      divDD bld.hasFma (x.lane sh.kind j) ⟨lane sh.kind b.hi j, zero sh.kind false⟩ := by
  obtain ⟨t, widened, tLanes⟩ := gives_of_completeDoubled (bld := bld) (i := .widen sh) (a := b) (b := noValue)
    (f := fun j => ⟨lane sh.kind b.hi j, zero sh.kind false⟩) legal rfl
  obtain ⟨v, divided, vLanes⟩ := gives_of_completeDoubled (bld := bld) (i := .divDD sh) (a := x) (b := t)
    (f := fun j => divDD bld.hasFma (x.lane sh.kind j) (t.lane sh.kind j)) legal rfl
  refine ⟨v, runExpansion_two widened divided _, fun j hj => ?_⟩
  exact (vLanes j hj).trans (congrArg _ (tLanes j hj))

/-- `SUB.SD`: `NEG` leaves the pairs with both signs flipped, which `ADD.SD` adds. -/
theorem run_subSD (a y : HostValue) : ∃ v, (Pseudo.subSD a y).run bld sh = some v ∧
    ∀ j, j < sh.lanes.count → v.lane sh.kind j =
      addSD (lane sh.kind a.hi j) (negDoubled (y.lane sh.kind j)) := by
  obtain ⟨t, negated, tLanes⟩ := gives_of_completeDoubled (bld := bld) (i := .neg sh) (a := y) (b := noValue)
    (f := fun j => negDoubled (y.lane sh.kind j)) legal rfl
  obtain ⟨v, added, vLanes⟩ := gives_of_completeDoubled (bld := bld) (i := .addSD sh) (a := a) (b := t)
    (f := fun j => addSD (lane sh.kind a.hi j) (t.lane sh.kind j)) legal rfl
  refine ⟨v, runExpansion_two negated added _, fun j hj => ?_⟩
  exact (vLanes j hj).trans (congrArg _ (tLanes j hj))

/-- `SUB.SS`: the host flips the sign bit of every lane of `b`, and `ADD.SS` adds. -/
theorem run_subSS (a b : HostValue) : ∃ v, (Pseudo.subSS a b).run bld sh = some v ∧
    ∀ j, j < sh.lanes.count → v.lane sh.kind j = twoSum (lane sh.kind a.hi j) (fneg (lane sh.kind b.hi j)) := by
  obtain ⟨v, added, vLanes⟩ := gives_of_completeDoubled (bld := bld) (i := .addSS sh) (a := a)
    (b := ⟨negatePort sh.kind sh.lanes.count b.hi, b.lo⟩)
    (f := fun j => twoSum (lane sh.kind a.hi j) (lane sh.kind (negatePort sh.kind sh.lanes.count b.hi) j)) legal rfl
  refine ⟨v, runExpansion_one added _, fun j hj => ?_⟩
  have flipped : lane sh.kind (negatePort sh.kind sh.lanes.count b.hi) j = fneg (lane sh.kind b.hi j) := by
    rw [lane_negatePort _ _ _ (lanes_fit legal), if_pos hj]
  exact (vLanes j hj).trans (congrArg _ flipped)

/-- `MUL.SD`: `MUL.DS` with the operands exchanged. -/
theorem run_mulSD (a y : HostValue) : ∃ v, (Pseudo.mulSD a y).run bld sh = some v ∧
    ∀ j, j < sh.lanes.count → v.lane sh.kind j =
      mulDS bld.hasFma (y.lane sh.kind j) (lane sh.kind a.hi j) := by
  obtain ⟨v, multiplied, vLanes⟩ := gives_of_completeDoubled (bld := bld) (i := .mulDS sh) (a := y) (b := a)
    (f := fun j => mulDS bld.hasFma (y.lane sh.kind j) (lane sh.kind a.hi j)) legal rfl
  exact ⟨v, runExpansion_one multiplied _, vLanes⟩

end Expansions

/-- Settles O57: the four expansions, each from what its commands give lane by lane. -/
theorem pseudoInstructionsExpand : Obligations.PseudoInstructionsExpand :=
  fun bld _ x y legal =>
    ⟨run_divDS bld legal x y, run_subSD bld legal x y, run_subSS bld legal x y, run_mulSD bld legal x y⟩

end Sys2Proof.Machine
end

section
/-! PROOF. Finite words as dyadic numbers (40_primitives_and_split.md R100, R101): the bounds of the significand and of
the unit exponent, the words that a pair of them is encoded as, and that a finite nonzero word is known by its value. -/

namespace Sys2Proof.Machine

variable {k : Kind}

/-- The least exponent of a unit in the last place, that of the subnormal numbers (R101). -/
def unitMin (k : Kind) : ℤ := emin k - ((prec k : ℤ) - 1)

/-- The greatest exponent of a unit in the last place of a finite word (R101). -/
def unitMax (k : Kind) : ℤ := emax k - ((prec k : ℤ) - 1)

/-- How the constants of a format hang together (R100). -/
theorem format_constants (k : Kind) :
    2 ≤ prec k ∧ 1 ≤ bias k ∧ emin k = 1 - bias k ∧ emax k = bias k ∧ (expOnes k : ℤ) = 2 * bias k + 1 ∧
      2 ^ expBits k = expOnes k + 1 := by
  cases k <;> decide

theorem unitMin_le_unitMax (k : Kind) : unitMin k ≤ unitMax k := by cases k <;> decide

/-- `2^p` is twice `2^(p-1)`, the least significand of a normal number. -/
theorem two_pow_prec (k : Kind) : 2 ^ prec k = 2 * 2 ^ (prec k - 1) := by
  obtain ⟨hp, _⟩ := format_constants k
  rw [← pow_succ']
  congr 1
  omega

theorem biasedExp_lt (a : Word k) : biasedExp a < 2 ^ expBits k := BitVec.isLt _

theorem trailing_lt (a : Word k) : trailing a < 2 ^ (prec k - 1) := BitVec.isLt _

theorem isFinite_iff (a : Word k) : isFinite a = true ↔ biasedExp a ≠ expOnes k := by simp [isFinite]

theorem not_nan_inf_of_isFinite {a : Word k} (finite : isFinite a = true) : isNan a = false ∧ isInfinity a = false := by
  rcases class_cases a with ⟨_, hinf, hnan⟩ | ⟨hf, _⟩ | ⟨hf, _⟩
  · exact ⟨hnan, hinf⟩
  · exact absurd (hf.symm.trans finite) Bool.false_ne_true
  · exact absurd (hf.symm.trans finite) Bool.false_ne_true

/-! ## The significand and the unit exponent -/

theorem significand_lt (a : Word k) : significand a < 2 ^ prec k := by
  have ht := trailing_lt a
  rw [two_pow_prec, significand]
  split <;> omega

theorem unitMin_le_unitExp (a : Word k) : unitMin k ≤ unitExp a := by
  obtain ⟨_, _, hmin, _⟩ := format_constants k
  rw [unitMin, unitExp]
  split <;> omega

theorem unitExp_le_unitMax {a : Word k} (finite : isFinite a = true) : unitExp a ≤ unitMax k := by
  obtain ⟨_, _, hmin, hmax, hones, hbits⟩ := format_constants k
  have he := biasedExp_lt a
  have hne := (isFinite_iff a).mp finite
  rw [unitMax, unitExp]
  split <;> omega

/-- The subnormal numbers and the zeros are the words with a significand below `2^(p-1)`. -/
theorem biasedExp_eq_zero_iff (a : Word k) : biasedExp a = 0 ↔ significand a < 2 ^ (prec k - 1) := by
  have ht := trailing_lt a
  rw [significand]
  split <;> omega

/-- Above the least unit exponent the significand is that of a normal number. -/
theorem le_significand_of_lt_unitExp {a : Word k} (h : unitMin k < unitExp a) : 2 ^ (prec k - 1) ≤ significand a := by
  by_contra hb
  have hzero := (biasedExp_eq_zero_iff a).mpr (not_le.mp hb)
  simp [unitExp, unitMin, hzero] at h

/-- A word is known by its sign, its significand and its unit exponent. -/
theorem eq_of_significand_unitExp {a b : Word k} (hs : signBit a = signBit b) (hm : significand a = significand b)
    (hu : unitExp a = unitExp b) : a = b := by
  have hzero : biasedExp a = 0 ↔ biasedExp b = 0 := by rw [biasedExp_eq_zero_iff, biasedExp_eq_zero_iff, hm]
  by_cases ha : biasedExp a = 0
  · have hb := hzero.mp ha
    exact eq_of_fields hs (ha.trans hb.symm) (by simpa [significand, ha, hb] using hm)
  · have hb := mt hzero.mpr ha
    exact eq_of_fields hs (by simpa [unitExp, ha, hb] using hu) (by simpa [significand, ha, hb] using hm)

/-! ## The words of the two forms -/

/-- The word of sign `neg` with biased exponent 0: a subnormal number or a zero (R101). -/
theorem subnormal_ofFields {neg : Bool} {n : ℕ} (hn : n < 2 ^ (prec k - 1)) :
    isFinite (ofFields k neg 0 n) = true ∧ signBit (ofFields k neg 0 n) = neg ∧
      significand (ofFields k neg 0 n) = n ∧ unitExp (ofFields k neg 0 n) = unitMin k := by
  obtain ⟨hs, he, ht⟩ := fields_ofFields (k := k) (neg := neg) (e := 0) (Nat.two_pow_pos _) hn
  have hpos := expOnes_pos k
  refine ⟨(isFinite_iff _).mpr (by omega), hs, ?_, ?_⟩
  · simp [significand, he, ht]
  · simp [unitExp, he, unitMin]

/-- The word of sign `neg`, unit exponent `g` and significand `2^(p-1) + t`: a normal number (R101). -/
theorem normal_ofFields {neg : Bool} {g : ℤ} {t : ℕ} (hmin : unitMin k ≤ g) (hmax : g ≤ unitMax k)
    (ht : t < 2 ^ (prec k - 1)) :
    let w := ofFields k neg (g + ((prec k : ℤ) - 1) + bias k).toNat t
    isFinite w = true ∧ signBit w = neg ∧ significand w = 2 ^ (prec k - 1) + t ∧ unitExp w = g := by
  intro w
  obtain ⟨_, hbias, hemin, hemax, hones, hbits⟩ := format_constants k
  rw [unitMin] at hmin
  rw [unitMax] at hmax
  obtain ⟨hs, he, htr⟩ := fields_ofFields (k := k) (neg := neg)
    (e := (g + ((prec k : ℤ) - 1) + bias k).toNat) (by omega) ht
  have hexp : biasedExp w = (g + ((prec k : ℤ) - 1) + bias k).toNat := he
  have hpos : biasedExp w ≠ 0 := by omega
  refine ⟨(isFinite_iff w).mpr (by omega), hs, ?_, ?_⟩
  · simp only [significand, hpos, if_false, w, htr]
  · simp only [unitExp, hpos, if_false]
    omega

/-! ## Values -/

theorem abs_value_pos {a : Word k} (nonzero : isZero a = false) : 0 < |value a| :=
  abs_pos.mpr fun h => by simp [(value_eq_zero_iff a).mp h] at nonzero

/-- The value is the magnitude with the sign of the word. -/
theorem value_eq_sign_mul_abs (a : Word k) : value a = (if signBit a then -1 else 1) * |value a| := by
  rw [abs_value, ← mul_assoc, value]

/-- Bit `W-1` of a nonzero word is the sign of its value. -/
theorem signBit_eq_decide_value_neg {a : Word k} (nonzero : isZero a = false) :
    signBit a = decide (value a < 0) := by
  have hpos := abs_value_pos nonzero
  have hval := value_eq_sign_mul_abs a
  cases hs : signBit a
  · have : value a = |value a| := by simpa [hs] using hval
    simpa using this ▸ hpos.le
  · have : value a = -|value a| := by simpa [hs] using hval
    have : value a < 0 := by linarith
    simpa using this

/-- Magnitudes of a smaller unit are below the normal numbers of a greater one. -/
theorem mul_zpow_lt_of_lt {K : Type*} [Field K] [LinearOrder K] [IsStrictOrderedRing K] {m : ℕ} {u g : ℤ}
    (hm : m < 2 ^ prec k) (hug : u < g) :
    (m : K) * 2 ^ u < ((2 ^ (prec k - 1) : ℕ) : K) * 2 ^ g := by
  have hm' : (m : K) < ((2 ^ prec k : ℕ) : K) := by exact_mod_cast hm
  have hle : (2 : K) ^ (u + 1) ≤ 2 ^ g := zpow_le_zpow_right₀ one_le_two (by omega)
  calc (m : K) * 2 ^ u < ((2 ^ prec k : ℕ) : K) * 2 ^ u := by gcongr
    _ = ((2 ^ (prec k - 1) : ℕ) : K) * 2 ^ (u + 1) := by
      rw [two_pow_prec, zpow_add_one₀ two_ne_zero]
      push_cast
      ring
    _ ≤ _ := by gcongr

/-- Of two nonzero words of one magnitude neither has the smaller unit. -/
theorem unitExp_le_of_abs_value_eq {a b : Word k} (h : |value a| = |value b|) : unitExp b ≤ unitExp a := by
  by_contra! hlt
  have hnormal := le_significand_of_lt_unitExp (lt_of_le_of_lt (unitMin_le_unitExp a) hlt)
  have hbelow : |value a| < |value b| := by
    rw [abs_value a, abs_value b]
    calc (significand a : ℚ) * 2 ^ unitExp a
      _ < ((2 ^ (prec k - 1) : ℕ) : ℚ) * 2 ^ unitExp b := mul_zpow_lt_of_lt (significand_lt a) hlt
      _ ≤ (significand b : ℚ) * 2 ^ unitExp b := by gcongr
  exact hbelow.ne h

/-- A nonzero finite word is known by its value. -/
theorem eq_of_value_eq {a b : Word k} (nonzero : isZero a = false) (h : value a = value b) : a = b := by
  have nonzero' : isZero b = false := by
    by_contra hb
    rw [Bool.not_eq_false, ← value_eq_zero_iff, ← h, value_eq_zero_iff, nonzero] at hb
    exact Bool.false_ne_true hb
  have habs : |value a| = |value b| := congrArg _ h
  have hunit : unitExp a = unitExp b :=
    le_antisymm (unitExp_le_of_abs_value_eq habs.symm) (unitExp_le_of_abs_value_eq habs)
  refine eq_of_significand_unitExp ?_ ?_ hunit
  · rw [signBit_eq_decide_value_neg nonzero, signBit_eq_decide_value_neg nonzero', h]
  · rw [abs_value, abs_value, hunit] at habs
    have hcancel := mul_right_cancel₀ (zpow_ne_zero _ two_ne_zero) habs
    exact_mod_cast hcancel

end Sys2Proof.Machine
end

section
/-! PROOF. Rounding (40_primitives_and_split.md R102): the significand and the unit that `rn` chooses, the word that
encodes them, and that this word is a nearest one. The argument that it is nearest stands over any ordered field, so
that it serves the real square root too (R108). -/

namespace Sys2Proof.Machine

variable {k : Kind}

/-! ## Multiples of a unit -/

section Grid

variable {K : Type*} [Field K] [LinearOrder K] [IsStrictOrderedRing K]

/-- A multiple of a unit is one of every smaller unit. -/
theorem exists_mul_zpow_of_le {g u : ℤ} (h : g ≤ u) (m : ℕ) : ∃ N : ℕ, (m : K) * 2 ^ u = (N : K) * 2 ^ g := by
  obtain ⟨d, rfl⟩ := Int.le.dest h
  refine ⟨m * 2 ^ d, ?_⟩
  rw [zpow_add₀ two_ne_zero, zpow_natCast]
  push_cast
  ring

/-- Different multiples of a unit are at least one unit apart. -/
theorem le_abs_sub_of_ne {n N : ℕ} (h : n ≠ N) (g : ℤ) : (2 : K) ^ g ≤ |(n : K) * 2 ^ g - N * 2 ^ g| := by
  have hpos : (0 : K) < 2 ^ g := by positivity
  have hone : (1 : K) ≤ |(n : K) - N| := by
    have : (1 : ℤ) ≤ |(n : ℤ) - N| := Int.one_le_abs (by omega)
    exact_mod_cast this
  rw [← sub_mul, abs_mul, abs_of_pos hpos]
  nlinarith

/-- `n * 2^g` is within half a unit of `y`, and the unit is the least one or `y` is in the range of the normal numbers of
that unit: what makes it a nearest number of the format to `y`, overflow apart (R102). -/
structure RoundsTo (k : Kind) (y : K) (n : ℕ) (g : ℤ) : Prop where
  unit : unitMin k ≤ g
  normal : g = unitMin k ∨ ((2 ^ (prec k - 1) : ℕ) : K) * 2 ^ g ≤ y
  close : |(n : K) * 2 ^ g - y| ≤ 2 ^ g / 2

variable {y : K} {n m : ℕ} {g u : ℤ}

/-- No multiple of the unit is nearer than the rounded one. -/
theorem RoundsTo.le_of_multiple (h : RoundsTo k y n g) (N : ℕ) :
    |(n : K) * 2 ^ g - y| ≤ |(N : K) * 2 ^ g - y| := by
  rcases eq_or_ne n N with rfl | hne
  · exact le_rfl
  · have hclose := h.close
    have hapart := le_abs_sub_of_ne (K := K) hne g
    have htri := abs_sub_le ((n : K) * 2 ^ g) y (N * 2 ^ g)
    rw [abs_sub_comm y] at htri
    linarith

/-- A magnitude of the format is a multiple of the unit, or is farther from `y` than the rounded number: then it lies
below the normal numbers of the unit, the least of which is between the two. -/
theorem RoundsTo.multiple_or_lt (h : RoundsTo k y n g) (hm : m < 2 ^ prec k) (hu : unitMin k ≤ u) :
    (∃ N : ℕ, (m : K) * 2 ^ u = (N : K) * 2 ^ g) ∨ |(n : K) * 2 ^ g - y| < |(m : K) * 2 ^ u - y| := by
  rcases le_or_gt g u with hgu | hug
  · exact .inl (exists_mul_zpow_of_le hgu m)
  · have hbelow := mul_zpow_lt_of_lt (K := K) hm hug
    have hnormal := h.normal.resolve_left (by omega)
    have hnear := h.le_of_multiple (2 ^ (prec k - 1))
    refine .inr (lt_of_le_of_lt hnear ?_)
    rw [abs_of_nonpos (by linarith), abs_of_nonpos (by linarith)]
    linarith

/-- No magnitude of the format is nearer than the rounded number. -/
theorem RoundsTo.nearest (h : RoundsTo k y n g) (hm : m < 2 ^ prec k) (hu : unitMin k ≤ u) :
    |(n : K) * 2 ^ g - y| ≤ |(m : K) * 2 ^ u - y| := by
  rcases h.multiple_or_lt hm hu with ⟨N, e⟩ | hlt
  · rw [e]
    exact h.le_of_multiple N
  · exact hlt.le

/-- If another magnitude of the format is as near, the number lies halfway between two multiples of the unit. -/
theorem RoundsTo.halfway (h : RoundsTo k y n g) (hm : m < 2 ^ prec k) (hu : unitMin k ≤ u)
    (same : |(n : K) * 2 ^ g - y| = |(m : K) * 2 ^ u - y|) (other : (m : K) * 2 ^ u ≠ (n : K) * 2 ^ g) :
    |(n : K) * 2 ^ g - y| = 2 ^ g / 2 := by
  rcases h.multiple_or_lt hm hu with ⟨N, e⟩ | hlt
  · rw [e] at same other
    have hapart := le_abs_sub_of_ne (K := K) (n := n) (N := N) (fun hn => other (by rw [hn])) g
    have htri := abs_sub_le ((n : K) * 2 ^ g) y (N * 2 ^ g)
    rw [abs_sub_comm y] at htri
    have hclose := h.close
    linarith
  · exact absurd same hlt.ne

end Grid

/-! ## What `rn` chooses -/

/-- The significand `n` that `rn` chooses at magnitude `m`, before it is renormalised (R102). -/
def roundedSignificand (k : Kind) (m : ℚ) : ℕ := roundEven (m / (2 : ℚ) ^ ulpExp k m)

theorem rn_eq_encodeMagnitude (k : Kind) (q : ℚ) :
    rn k q = encodeMagnitude k (decide (q < 0)) (roundedSignificand k |q|) (ulpExp k |q|) := rfl

/-- The unit of magnitude `m`: the least one, or that of the normal numbers around `m`. -/
theorem ulpExp_spec {m : ℚ} (pos : 0 < m) :
    unitMin k ≤ ulpExp k m ∧
      (ulpExp k m = unitMin k ∨ ((2 ^ (prec k - 1) : ℕ) : ℚ) * 2 ^ ulpExp k m ≤ m) ∧
      m < ((2 ^ prec k : ℕ) : ℚ) * 2 ^ ulpExp k m := by
  obtain ⟨hp, _⟩ := format_constants k
  obtain ⟨hlow, hhigh⟩ := floorLog2_spec pos
  have hmax : floorLog2 m ≤ max (floorLog2 m) (emin k) := le_max_left _ _
  refine ⟨?_, ?_, ?_⟩
  · rw [ulpExp, unitMin]
    omega
  · rcases le_total (floorLog2 m) (emin k) with h | h
    · left
      rw [ulpExp, unitMin, max_eq_right h]
    · right
      rw [ulpExp, max_eq_left h]
      refine le_of_eq_of_le ?_ hlow
      push_cast
      rw [← zpow_natCast, ← zpow_add₀ two_ne_zero]
      congr 1
      omega
  · refine lt_of_lt_of_le hhigh ?_
    push_cast
    rw [← zpow_natCast, ← zpow_add₀ two_ne_zero, ulpExp]
    exact zpow_le_zpow_right₀ one_le_two (by omega)

/-- The significand is within half a unit, and even if it is halfway. -/
theorem roundedSignificand_spec (k : Kind) {m : ℚ} (pos : 0 < m) :
    |(roundedSignificand k m : ℚ) * 2 ^ ulpExp k m - m| ≤ 2 ^ ulpExp k m / 2 ∧
      (|(roundedSignificand k m : ℚ) * 2 ^ ulpExp k m - m| = 2 ^ ulpExp k m / 2 →
        roundedSignificand k m % 2 = 0) := by
  have hunit : (0 : ℚ) < 2 ^ ulpExp k m := by positivity
  obtain ⟨hclose, heven⟩ := roundEven_spec (x := m / 2 ^ ulpExp k m) (by positivity)
  have hscale : |(roundedSignificand k m : ℚ) * 2 ^ ulpExp k m - m| =
      |(roundedSignificand k m : ℚ) - m / 2 ^ ulpExp k m| * 2 ^ ulpExp k m := by
    rw [← abs_of_pos hunit, ← abs_mul, abs_of_pos hunit, sub_mul, div_mul_cancel₀ _ hunit.ne']
  rw [hscale]
  refine ⟨?_, fun half => heven ?_⟩
  · calc _ ≤ 1 / 2 * (2 : ℚ) ^ ulpExp k m := by gcongr; exact hclose
      _ = _ := by ring
  · refine mul_right_cancel₀ hunit.ne' (half.trans ?_)
    ring

theorem roundsTo_roundedSignificand (k : Kind) {m : ℚ} (pos : 0 < m) :
    RoundsTo k m (roundedSignificand k m) (ulpExp k m) := by
  obtain ⟨hunit, hnormal, _⟩ := ulpExp_spec (k := k) pos
  exact ⟨hunit, hnormal, (roundedSignificand_spec k pos).1⟩

/-- The significand needs renormalising only when it is `2^p`. -/
theorem roundedSignificand_le (k : Kind) {m : ℚ} (pos : 0 < m) : roundedSignificand k m ≤ 2 ^ prec k := by
  obtain ⟨_, _, hlt⟩ := ulpExp_spec (k := k) pos
  obtain ⟨hclose, _⟩ := roundedSignificand_spec k pos
  by_contra! hgt
  have hunit : (0 : ℚ) < 2 ^ ulpExp k m := by positivity
  have hge : ((2 ^ prec k : ℕ) : ℚ) + 1 ≤ roundedSignificand k m := by exact_mod_cast hgt
  have := mul_le_mul_of_nonneg_right hge hunit.le
  have := abs_le.mp hclose
  linarith

/-- Above the least unit the significand is that of a normal number. -/
theorem le_roundedSignificand (k : Kind) {m : ℚ} (pos : 0 < m) (h : ulpExp k m ≠ unitMin k) :
    2 ^ (prec k - 1) ≤ roundedSignificand k m := by
  obtain ⟨_, hnormal, _⟩ := ulpExp_spec (k := k) pos
  have hnormal := hnormal.resolve_left h
  obtain ⟨hclose, _⟩ := roundedSignificand_spec k pos
  by_contra! hlt
  have hunit : (0 : ℚ) < 2 ^ ulpExp k m := by positivity
  have hle : (roundedSignificand k m : ℚ) + 1 ≤ ((2 ^ (prec k - 1) : ℕ) : ℚ) := by exact_mod_cast hlt
  have := mul_le_mul_of_nonneg_right hle hunit.le
  have := abs_le.mp hclose
  linarith

/-! ## The word that encodes it -/

theorem encodeMagnitude_overflow {neg : Bool} {n : ℕ} {g : ℤ}
    (h : (2 : ℚ) ^ (emax k + 1) ≤ (n : ℚ) * 2 ^ g) : encodeMagnitude k neg n g = infinity k neg := by
  rw [encodeMagnitude, if_pos h]

/-- The exponent of a normal magnitude below the overflow threshold. -/
theorem lt_of_mul_zpow_lt {n e : ℕ} {g x : ℤ} (hn : 2 ^ e ≤ n) (h : (n : ℚ) * 2 ^ g < (2 : ℚ) ^ x) : e + g < x := by
  rw [← zpow_lt_zpow_iff_right₀ (one_lt_two (α := ℚ)), zpow_add₀ two_ne_zero, zpow_natCast]
  refine lt_of_le_of_lt ?_ h
  gcongr
  exact_mod_cast hn

/-- Below the overflow threshold the word is finite, of the sign and the magnitude asked for, and its significand has
the parity asked for. -/
theorem encodeMagnitude_finite {neg : Bool} {n : ℕ} {g : ℤ} (hmin : unitMin k ≤ g) (hle : n ≤ 2 ^ prec k)
    (hnormal : g = unitMin k ∨ 2 ^ (prec k - 1) ≤ n) (h : (n : ℚ) * 2 ^ g < (2 : ℚ) ^ (emax k + 1)) :
    let w := encodeMagnitude k neg n g
    isFinite w = true ∧ signBit w = neg ∧ |value w| = (n : ℚ) * 2 ^ g ∧ significand w % 2 = n % 2 := by
  obtain ⟨hp, _⟩ := format_constants k
  have hdouble := two_pow_prec k
  have hhalf : 2 ^ (prec k - 1) % 2 = 0 := by
    rw [← Nat.dvd_iff_mod_eq_zero]
    exact dvd_pow_self 2 (by omega)
  have hmaxUnit : unitMax k = emax k - ((prec k : ℤ) - 1) := rfl
  simp only [abs_value]
  rw [encodeMagnitude, if_neg (not_le.mpr h)]
  split
  · rename_i hsub
    obtain ⟨hf, hs, hm, hu⟩ := subnormal_ofFields (k := k) (neg := neg) hsub
    have hg := hnormal.resolve_right (by omega)
    rw [hm, hu, hg]
    exact ⟨hf, hs, rfl, rfl⟩
  split
  · rename_i hsub hpow
    have hmax := lt_of_mul_zpow_lt hpow.ge h
    obtain ⟨hf, hs, hm, hu⟩ := normal_ofFields (k := k) (neg := neg) (g := g + 1) (t := 0) (by omega) (by omega)
      (Nat.two_pow_pos _)
    rw [hm, hu, hpow, hdouble]
    refine ⟨hf, hs, ?_, by omega⟩
    push_cast
    rw [zpow_add_one₀ two_ne_zero]
    ring
  · rename_i hsub hpow
    have hmax := lt_of_mul_zpow_lt (not_lt.mp hsub) h
    obtain ⟨hf, hs, hm, hu⟩ := normal_ofFields (k := k) (neg := neg) (g := g) (t := n - 2 ^ (prec k - 1)) hmin
      (by omega) (by omega)
    rw [hm, hu, Nat.add_sub_cancel' (not_lt.mp hsub)]
    exact ⟨hf, hs, rfl, rfl⟩

/-! ## What `rn` gives -/

/-- Rounding a nonzero rational gives the infinity of its sign, or a finite word of its sign and of the magnitude that
was chosen (R102). -/
theorem rn_cases (k : Kind) {q : ℚ} (nonzero : q ≠ 0) :
    ((2 : ℚ) ^ (emax k + 1) ≤ (roundedSignificand k |q| : ℚ) * 2 ^ ulpExp k |q| ∧
      rn k q = infinity k (decide (q < 0))) ∨
    ((roundedSignificand k |q| : ℚ) * 2 ^ ulpExp k |q| < (2 : ℚ) ^ (emax k + 1) ∧
      isFinite (rn k q) = true ∧ signBit (rn k q) = decide (q < 0) ∧
      |value (rn k q)| = (roundedSignificand k |q| : ℚ) * 2 ^ ulpExp k |q| ∧
      significand (rn k q) % 2 = roundedSignificand k |q| % 2) := by
  have pos : 0 < |q| := abs_pos.mpr nonzero
  obtain ⟨hmin, _⟩ := ulpExp_spec (k := k) pos
  have hnormal := or_iff_not_imp_left.mpr (le_roundedSignificand k pos)
  rw [rn_eq_encodeMagnitude]
  rcases le_or_gt ((2 : ℚ) ^ (emax k + 1)) ((roundedSignificand k |q| : ℚ) * 2 ^ ulpExp k |q|) with h | h
  · exact .inl ⟨h, encodeMagnitude_overflow h⟩
  · exact .inr ⟨h, encodeMagnitude_finite hmin (roundedSignificand_le k pos) hnormal h⟩

theorem signBit_rn (k : Kind) {q : ℚ} (nonzero : q ≠ 0) : signBit (rn k q) = decide (q < 0) := by
  rcases rn_cases k nonzero with ⟨_, e⟩ | ⟨_, _, hs, _⟩
  · rw [e]
    exact (infinity_spec k _).1
  · exact hs

/-- The magnitude that a finite rounded word has. -/
theorem roundsTo_rn {q : ℚ} (nonzero : q ≠ 0) (finite : isFinite (rn k q) = true) :
    ∃ n, RoundsTo k |q| n (ulpExp k |q|) ∧ |value (rn k q)| = (n : ℚ) * 2 ^ ulpExp k |q| ∧
      (|(n : ℚ) * 2 ^ ulpExp k |q| - (|q|)| = 2 ^ ulpExp k |q| / 2 → significand (rn k q) % 2 = 0) := by
  have pos : 0 < |q| := abs_pos.mpr nonzero
  rcases rn_cases k nonzero with ⟨_, e⟩ | ⟨_, _, _, habs, hparity⟩
  · obtain ⟨_, _, infinite, _⟩ := infinity_spec k (decide (q < 0))
    rw [e, infinite] at finite
    exact absurd finite Bool.false_ne_true
  · exact ⟨_, roundsTo_roundedSignificand k pos, habs, fun half =>
      hparity.trans ((roundedSignificand_spec k pos).2 half)⟩

/-- A finite rounded word is as far from the number as its magnitude is from the number's, their signs being the same. -/
theorem abs_value_rn_sub {q : ℚ} (nonzero : q ≠ 0) : |value (rn k q) - q| = |(|value (rn k q)| - |q|)| := by
  have hval := value_eq_sign_mul_abs (rn k q)
  rw [signBit_rn k nonzero] at hval
  rcases lt_or_gt_of_ne nonzero with hq | hq
  · have hval : value (rn k q) = -|value (rn k q)| := by simpa [hq] using hval
    rw [abs_of_neg hq, hval, abs_neg, abs_abs, ← abs_neg]
    congr 1
    ring
  · have hval : value (rn k q) = |value (rn k q)| := by simpa [hq.le, not_lt.mpr hq.le] using hval
    rw [abs_of_pos hq, ← hval]

/-- No finite word is nearer to a number than the finite word it rounds to. -/
theorem rn_nearest {q : ℚ} (nonzero : q ≠ 0) (finite : isFinite (rn k q) = true) (w : Word k) :
    |value (rn k q) - q| ≤ |value w - q| := by
  obtain ⟨n, rounds, habs, _⟩ := roundsTo_rn nonzero finite
  calc |value (rn k q) - q| = |(n : ℚ) * 2 ^ ulpExp k |q| - (|q|)| := by rw [abs_value_rn_sub nonzero, habs]
    _ ≤ |(|value w| - |q|)| := by
      rw [abs_value w]
      exact rounds.nearest (significand_lt w) (unitMin_le_unitExp w)
    _ ≤ |value w - q| := abs_abs_sub_abs_le _ _

/-- A word of another value that is as near has another magnitude: of the words of one magnitude the one with the sign of
the number is nearer. -/
theorem abs_value_ne_of_tie {q : ℚ} (nonzero : q ≠ 0) {w : Word k}
    (tie : |value (rn k q) - q| = |value w - q|) (other : value w ≠ value (rn k q)) :
    |value w| ≠ |value (rn k q)| := by
  intro same
  have opposite : value w = -value (rn k q) := (abs_eq_abs.mp same).resolve_left other
  have hsq : (value (rn k q) - q) ^ 2 = (value w - q) ^ 2 := (sq_eq_sq_iff_abs_eq_abs _ _).mpr tie
  have hprod : value (rn k q) * q = 0 := by
    rw [opposite] at hsq
    linarith
  have hzero : value (rn k q) = 0 := (mul_eq_zero.mp hprod).resolve_right nonzero
  exact other (by rw [opposite, hzero, neg_zero])

/-- Where a finite word of another value is as near, the rounded one has an even significand. -/
theorem significand_rn_even_of_tie {q : ℚ} (nonzero : q ≠ 0) (finite : isFinite (rn k q) = true) {w : Word k}
    (tie : |value (rn k q) - q| = |value w - q|) (other : value w ≠ value (rn k q)) :
    significand (rn k q) % 2 = 0 := by
  obtain ⟨n, rounds, habs, even⟩ := roundsTo_rn nonzero finite
  have hdist : |(n : ℚ) * 2 ^ ulpExp k |q| - (|q|)| = |value (rn k q) - q| := by rw [abs_value_rn_sub nonzero, habs]
  have hmag := abs_value_ne_of_tie nonzero tie other
  rw [habs, abs_value w] at hmag
  have hm := significand_lt w
  have hu := unitMin_le_unitExp w
  refine even (rounds.halfway hm hu (le_antisymm (rounds.nearest hm hu) ?_) hmag)
  rw [hdist, tie, ← abs_value w]
  exact abs_abs_sub_abs_le _ _

/-! ## Overflow -/

theorem maxFinite_eq (k : Kind) : maxFinite k = ((2 ^ prec k - 1 : ℕ) : ℚ) * 2 ^ unitMax k := by
  rw [maxFinite, unitMax, Nat.cast_sub Nat.one_le_two_pow]
  push_cast
  rfl

/-- The largest finite magnitude and the least that is too great are one unit apart. -/
theorem maxFinite_add_unit (k : Kind) : maxFinite k + 2 ^ unitMax k = (2 : ℚ) ^ (emax k + 1) := by
  have hpow : (2 : ℚ) ^ (emax k + 1) = (2 : ℚ) ^ prec k * 2 ^ unitMax k := by
    rw [← zpow_natCast, ← zpow_add₀ two_ne_zero, unitMax]
    congr 1
    ring
  rw [hpow, maxFinite, unitMax]
  ring

/-- No finite word has a magnitude above the largest, and the words of that magnitude have the largest significand. -/
theorem abs_value_le_maxFinite {w : Word k} (finite : isFinite w = true) :
    |value w| ≤ maxFinite k ∧ (|value w| = maxFinite k → significand w = 2 ^ prec k - 1) := by
  have hm : significand w ≤ 2 ^ prec k - 1 := Nat.le_sub_one_of_lt (significand_lt w)
  have hu : (2 : ℚ) ^ unitExp w ≤ 2 ^ unitMax k := zpow_le_zpow_right₀ one_le_two (unitExp_le_unitMax finite)
  rw [abs_value, maxFinite_eq]
  refine ⟨by gcongr, fun same => hm.antisymm (not_lt.mp fun hlt => same.not_lt ?_)⟩
  calc (significand w : ℚ) * 2 ^ unitExp w ≤ significand w * 2 ^ unitMax k := by gcongr
    _ < ((2 ^ prec k - 1 : ℕ) : ℚ) * 2 ^ unitMax k := by gcongr

/-- The largest finite significand is odd. -/
theorem maxSignificand_odd (k : Kind) : (2 ^ prec k - 1) % 2 = 1 := by
  have hpos := Nat.two_pow_pos (prec k - 1)
  rw [two_pow_prec]
  omega

/-- Below the midpoint above the largest finite magnitude a number rounds to no greater magnitude: the largest finite one
is nearer. -/
theorem RoundsTo.lt_of_lt_midpoint {m : ℚ} {n : ℕ} {g : ℤ} (h : RoundsTo k m n g)
    (below : m < maxFinite k + 2 ^ unitMax k / 2) : (n : ℚ) * 2 ^ g < (2 : ℚ) ^ (emax k + 1) := by
  have hnear := h.nearest (m := 2 ^ prec k - 1) (Nat.sub_lt (Nat.two_pow_pos _) one_pos) (unitMin_le_unitMax k)
  rw [← maxFinite_eq] at hnear
  rw [← maxFinite_add_unit]
  by_contra! hover
  have hunit : (0 : ℚ) < 2 ^ unitMax k := by positivity
  have hright := (le_abs_self ((n : ℚ) * 2 ^ g - m)).trans hnear
  rcases abs_cases (maxFinite k - m) with ⟨e, _⟩ | ⟨e, _⟩ <;> linarith

/-- From that midpoint on only the midpoint itself can round to a finite magnitude, to the largest one, in a tie with
`2^(emax+1)`. -/
theorem RoundsTo.tie_of_midpoint_le {m : ℚ} {n : ℕ} {g : ℤ} (h : RoundsTo k m n g)
    (above : maxFinite k + 2 ^ unitMax k / 2 ≤ m) (finite : (n : ℚ) * 2 ^ g ≤ maxFinite k) :
    (n : ℚ) * 2 ^ g = maxFinite k ∧ |(n : ℚ) * 2 ^ g - m| = 2 ^ g / 2 := by
  have hunit : (0 : ℚ) < 2 ^ unitMax k := by positivity
  have hm : 2 ^ (prec k - 1) < 2 ^ prec k := by
    rw [two_pow_prec]
    exact lt_two_mul_self (Nat.two_pow_pos _)
  have hu : unitMin k ≤ unitMax k + 1 := (unitMin_le_unitMax k).trans (by omega)
  have hover : ((2 ^ (prec k - 1) : ℕ) : ℚ) * 2 ^ (unitMax k + 1) = maxFinite k + 2 ^ unitMax k := by
    rw [maxFinite_eq, Nat.cast_sub Nat.one_le_two_pow, two_pow_prec, zpow_add_one₀ two_ne_zero]
    push_cast
    ring
  have hnear := h.nearest hm hu
  have hhalf := h.halfway hm hu
  rw [hover] at hnear hhalf
  have hleft : |(n : ℚ) * 2 ^ g - m| = m - n * 2 ^ g := by
    rw [abs_of_nonpos] <;> linarith
  rw [hleft] at hnear hhalf ⊢
  rcases abs_cases (maxFinite k + 2 ^ unitMax k - m) with ⟨e, _⟩ | ⟨e, _⟩
  · rw [e] at hnear hhalf
    exact ⟨by linarith, hhalf (by linarith) (by linarith)⟩
  · linarith

/-- Rounding overflows from the midpoint above the largest finite magnitude on: at the midpoint itself, a tie, because
the largest significand is odd. -/
theorem isFinite_rn_iff {q : ℚ} (nonzero : q ≠ 0) :
    isFinite (rn k q) = true ↔ |q| < maxFinite k + 2 ^ unitMax k / 2 := by
  constructor
  · intro finite
    obtain ⟨n, rounds, habs, even⟩ := roundsTo_rn nonzero finite
    obtain ⟨hle, hmax⟩ := abs_value_le_maxFinite finite
    by_contra! above
    obtain ⟨hval, half⟩ := rounds.tie_of_midpoint_le above (habs ▸ hle)
    have hodd := maxSignificand_odd k
    rw [← hmax (habs.trans hval), even half] at hodd
    exact absurd hodd (by decide)
  · intro below
    have hlt := (roundsTo_roundedSignificand k (abs_pos.mpr nonzero)).lt_of_lt_midpoint below
    rcases rn_cases k nonzero with ⟨hover, _⟩ | ⟨_, finite, _⟩
    · exact absurd hlt (not_lt.mpr hover)
    · exact finite

/-- A rounded word that is not finite is the infinity of the number's sign. -/
theorem rn_eq_infinity {q : ℚ} (nonzero : q ≠ 0) (h : isFinite (rn k q) = false) :
    rn k q = infinity k (decide (q < 0)) := by
  rcases rn_cases k nonzero with ⟨_, e⟩ | ⟨_, finite, _⟩
  · exact e
  · exact absurd (h.symm.trans finite) Bool.false_ne_true

/-- Settles O43: the sign, a nearest finite word, ties to the even significand, and the overflow threshold, each by the
lemma that says it. -/
theorem roundingIsNearest : Obligations.RoundingIsNearest := by
  intro k q nonzero
  have threshold : ((2 : ℚ) ^ prec k - 1 / 2) * (2 : ℚ) ^ (emax k - ((prec k : ℤ) - 1)) =
      maxFinite k + 2 ^ unitMax k / 2 := by
    rw [maxFinite, unitMax]
    ring
  refine ⟨signBit_rn k nonzero, fun finite w _ => ⟨rn_nearest nonzero finite w, fun tie other =>
    significand_rn_even_of_tie nonzero finite tie other⟩, ?_, rn_eq_infinity nonzero⟩
  rw [threshold, ← not_lt, ← isFinite_rn_iff nonzero, Bool.not_eq_true]

/-! ## Numbers that a finite word has -/

/-- A finite word has the value `q`. -/
def Representable (k : Kind) (q : ℚ) : Prop := ∃ w : Word k, isFinite w = true ∧ value w = q

/-- The numbers that a finite word has: the magnitude is a multiple of a unit, its significand fits, and it is not too
great. -/
theorem representable_of_abs_eq {q : ℚ} {n : ℕ} {u : ℤ} (h : |q| = (n : ℚ) * 2 ^ u) (hn : n < 2 ^ prec k)
    (hu : unitMin k ≤ u) (hmax : |q| ≤ maxFinite k) : Representable k q := by
  rcases eq_or_ne q 0 with rfl | nonzero
  · obtain ⟨_, hzero, finite, _⟩ := zero_spec k false
    exact ⟨zero k false, finite, (value_eq_zero_iff _).mpr hzero⟩
  · have hunit : (0 : ℚ) < 2 ^ unitMax k := by positivity
    have finite : isFinite (rn k q) = true := (isFinite_rn_iff nonzero).mpr (by linarith)
    obtain ⟨N, rounds, habs, _⟩ := roundsTo_rn nonzero finite
    have hnear := rounds.nearest hn hu
    rw [← h, sub_self, abs_zero, abs_nonpos_iff, ← habs, ← abs_eq_zero, ← abs_value_rn_sub nonzero, abs_eq_zero,
      sub_eq_zero] at hnear
    exact ⟨rn k q, finite, hnear⟩

/-- Rounding changes no number that a finite word has. -/
theorem rn_of_representable {q : ℚ} (nonzero : q ≠ 0) (h : Representable k q) :
    isFinite (rn k q) = true ∧ value (rn k q) = q := by
  obtain ⟨w, finiteW, rfl⟩ := h
  have hunit : (0 : ℚ) < 2 ^ unitMax k := by positivity
  have finite : isFinite (rn k (value w)) = true :=
    (isFinite_rn_iff nonzero).mpr (by linarith [(abs_value_le_maxFinite finiteW).1])
  have hnear := rn_nearest nonzero finite w
  rw [sub_self, abs_zero, abs_nonpos_iff, sub_eq_zero] at hnear
  exact ⟨finite, hnear⟩

/-- Settles O42: the word that the value rounds to has that value, and a nonzero finite word is known by its value. -/
theorem roundingFixesRepresentable : Obligations.RoundingFixesRepresentable := by
  intro k a finite nonzero
  have hvalue : value a ≠ 0 := abs_pos.mp (abs_value_pos nonzero)
  obtain ⟨_, same⟩ := rn_of_representable hvalue ⟨a, finite, rfl⟩
  exact (eq_of_value_eq nonzero same.symm).symm

end Sys2Proof.Machine
end

section
/-! PROOF. The square root (40_primitives_and_split.md R108): the rational that the model rounds in its place lies on the
same side of every boundary of rounding as the real root, so that the word is nearest to the root. -/

namespace Sys2Proof.Machine

variable {k : Kind}

/-! ## Numbers that no multiple of a unit parts -/

/-- No multiple of `2^t` lies between `x` and `y`, nor at one of them alone. -/
def SameCell (t : ℤ) (x y : ℝ) : Prop :=
  ∀ i : ℤ, ((i : ℝ) * 2 ^ t ≤ x ↔ (i : ℝ) * 2 ^ t ≤ y) ∧ (x ≤ (i : ℝ) * 2 ^ t ↔ y ≤ (i : ℝ) * 2 ^ t)

/-- Two numbers strictly between neighbouring multiples. -/
theorem sameCell_of_between {t : ℤ} {s : ℕ} {x y : ℝ} (hx : s < x ∧ x < s + 1) (hy : s < y ∧ y < s + 1) :
    SameCell t (x * 2 ^ t) (y * 2 ^ t) := by
  have hunit : (0 : ℝ) < 2 ^ t := by positivity
  have side : ∀ z : ℝ, s < z ∧ z < s + 1 → ∀ i : ℤ, ((i : ℝ) ≤ z ↔ i ≤ (s : ℤ)) ∧ (z ≤ (i : ℝ) ↔ (s : ℤ) < i) := by
    rintro z ⟨hlow, hhigh⟩ i
    have hfloor : ⌊z⌋ = s := Int.floor_eq_iff.mpr ⟨by exact_mod_cast hlow.le, by exact_mod_cast hhigh⟩
    have hceil : ⌈z⌉ = (s : ℤ) + 1 := Int.ceil_eq_iff.mpr ⟨by simpa using hlow, by exact_mod_cast hhigh.le⟩
    rw [← Int.le_floor, ← Int.ceil_le, hfloor, hceil]
    exact ⟨Iff.rfl, Iff.rfl⟩
  intro i
  obtain ⟨lowX, highX⟩ := side x hx i
  obtain ⟨lowY, highY⟩ := side y hy i
  simp only [mul_le_mul_iff_left₀ hunit]
  exact ⟨lowX.trans lowY.symm, highX.trans highY.symm⟩

/-- A number rounds as one of the same cell does, when the cells are at most half as wide as the unit: the boundaries of
rounding are multiples of half a unit. -/
theorem RoundsTo.of_sameCell {t : ℤ} {x y : ℝ} {n : ℕ} {g : ℤ} (h : RoundsTo k x n g) (cell : SameCell t x y)
    (fine : t < g) : RoundsTo k y n g := by
  obtain ⟨d, hd⟩ := Int.le.dest (show t ≤ g - 1 by omega)
  have multiple : ∀ j : ℤ, (j : ℝ) * (2 ^ g / 2) = ((j * 2 ^ d : ℤ) : ℝ) * 2 ^ t := by
    intro j
    have hg : g = t + d + 1 := by omega
    rw [hg, zpow_add_one₀ two_ne_zero, zpow_add₀ two_ne_zero, zpow_natCast]
    push_cast
    ring
  have low : ∀ j : ℤ, (j : ℝ) * (2 ^ g / 2) ≤ x → (j : ℝ) * (2 ^ g / 2) ≤ y := fun j hj => by
    rw [multiple] at hj ⊢
    exact (cell _).1.mp hj
  have high : ∀ j : ℤ, x ≤ (j : ℝ) * (2 ^ g / 2) → y ≤ (j : ℝ) * (2 ^ g / 2) := fun j hj => by
    rw [multiple] at hj ⊢
    exact (cell _).2.mp hj
  obtain ⟨hleft, hright⟩ := abs_le.mp h.close
  refine ⟨h.unit, h.normal.imp_right fun hx => ?_, abs_le.mpr ⟨?_, ?_⟩⟩
  · have := low (2 * (2 ^ (prec k - 1) : ℕ)) (by push_cast at hx ⊢; linarith)
    push_cast at this ⊢
    linarith
  · have := high (2 * n + 1) (by push_cast; linarith)
    push_cast at this
    linarith
  · have := low (2 * n - 1) (by push_cast; linarith)
    push_cast at this
    linarith

/-- A rational rounds the same among the reals. -/
theorem RoundsTo.cast {x : ℚ} {n : ℕ} {g : ℤ} (h : RoundsTo k x n g) : RoundsTo k (x : ℝ) n g where
  unit := h.unit
  normal := h.normal.imp_right fun hx => by
    have := (Rat.cast_le (K := ℝ)).mpr hx
    push_cast at this ⊢
    exact this
  close := by
    have := (Rat.cast_le (K := ℝ)).mpr h.close
    push_cast at this
    exact this

/-! ## The rational that stands for the root -/

/-- The integer square root of `n`, or the midpoint above it if `n` is no square. -/
def rootProxy (n s : ℕ) : ℚ := if s * s = n then (s : ℚ) else (s : ℚ) + 1 / 2

/-- The integer square root and its proxy: no integer parts the proxy from the real root. -/
theorem sameCell_rootProxy {n s : ℕ} (t : ℤ) (hle : s * s ≤ n) (hlt : n < (s + 1) * (s + 1)) :
    SameCell t ((rootProxy n s : ℚ) * 2 ^ t) (√(n : ℝ) * 2 ^ t) := by
  rw [rootProxy]
  split
  · rename_i square
    have hroot : √(n : ℝ) = s := by
      rw [← square, Nat.cast_mul, Real.sqrt_mul_self (Nat.cast_nonneg _)]
    rw [hroot, Rat.cast_natCast]
    exact fun i => ⟨Iff.rfl, Iff.rfl⟩
  · rename_i nonsquare
    have hlow : (s : ℝ) < √(n : ℝ) := by
      apply Real.lt_sqrt_of_sq_lt
      rw [sq]
      exact_mod_cast lt_of_le_of_ne hle nonsquare
    have hhigh : √(n : ℝ) < s + 1 := by
      rw [Real.sqrt_lt' (by positivity), sq]
      exact_mod_cast hlt
    refine sameCell_of_between (s := s) ?_ ⟨hlow, hhigh⟩
    push_cast
    constructor <;> linarith

/-- The significand that goes with an even exponent: doubled where the exponent is odd (log entry 10). -/
def evenSignificand (m : ℕ) (e : ℤ) : ℕ := if e % 2 = 1 then 2 * m else m

theorem evenSignificand_bounds (m : ℕ) (e : ℤ) : m ≤ evenSignificand m e ∧ evenSignificand m e ≤ 2 * m := by
  rw [evenSignificand]
  split <;> omega

theorem evenSignificand_mul (m : ℕ) (e : ℤ) :
    (m : ℝ) * 2 ^ e = evenSignificand m e * (2 ^ (e / 2) * 2 ^ (e / 2)) := by
  rw [evenSignificand, ← zpow_add₀ two_ne_zero]
  split
  · have he : e = e / 2 + e / 2 + 1 := by omega
    conv_lhs => rw [he, zpow_add_one₀ two_ne_zero]
    push_cast
    ring
  · have he : e = e / 2 + e / 2 := by omega
    rw [← he]

/-- The integer whose square root `sqrtProxy` takes: the significand with `p + 2` more pairs of bits. -/
def radicand (k : Kind) (m : ℕ) (e : ℤ) : ℕ := evenSignificand m e * 4 ^ (prec k + 2)

/-- The exponent of the last bit of the square root of `radicand`. -/
def rootUnit (k : Kind) (e : ℤ) : ℤ := e / 2 - (prec k + 2)

/-- `sqrtProxy` is the proxy of the integer square root of `radicand`. -/
theorem sqrtProxy_eq (k : Kind) (m : ℕ) (e : ℤ) :
    sqrtProxy k m e =
      rootProxy (radicand k m e) (isqrtFrom (2 * prec k + 4) (radicand k m e) 0) * 2 ^ rootUnit k e := by
  have hexp : (if e % 2 = 1 then e - 1 else e) / 2 = e / 2 := by split <;> omega
  have hmodel : sqrtProxy k m e =
      rootProxy (radicand k m e) (isqrtFrom (2 * prec k + 4) (radicand k m e) 0) *
        2 ^ ((if e % 2 = 1 then e - 1 else e) / 2 - ((prec k + 2 : ℕ) : ℤ)) := rfl
  rw [hmodel, hexp]
  rfl

/-- The real root of the operand is that of `radicand`, scaled. -/
theorem sqrt_mul_zpow_eq (k : Kind) (m : ℕ) (e : ℤ) :
    √((m : ℝ) * 2 ^ e) = √(radicand k m e : ℝ) * 2 ^ rootUnit k e := by
  have hscale : (m : ℝ) * 2 ^ e = radicand k m e * (2 ^ rootUnit k e) ^ 2 := by
    have hhalf : (2 : ℝ) ^ (e / 2) = 2 ^ (prec k + 2) * 2 ^ rootUnit k e := by
      rw [← zpow_natCast, ← zpow_add₀ two_ne_zero, rootUnit]
      congr 1
      push_cast
      ring
    have hfour : (4 : ℝ) ^ (prec k + 2) = 2 ^ (prec k + 2) * 2 ^ (prec k + 2) := by
      rw [← mul_pow]
      norm_num
    rw [evenSignificand_mul, hhalf, radicand]
    push_cast
    rw [hfour]
    ring
  rw [hscale, Real.sqrt_mul (Nat.cast_nonneg _), Real.sqrt_sq (by positivity)]

theorem radicand_bounds (k : Kind) {m : ℕ} (e : ℤ) (pos : 0 < m) (hm : m < 2 ^ prec k) :
    2 ^ (prec k + 2) * 2 ^ (prec k + 2) ≤ radicand k m e ∧ radicand k m e < 2 ^ (2 * prec k) * 2 ^ (2 * prec k) := by
  obtain ⟨hlow, hhigh⟩ := evenSignificand_bounds m e
  have hfour : 4 ^ (prec k + 2) = 2 ^ (prec k + 2) * 2 ^ (prec k + 2) := mul_pow 2 2 _
  rw [radicand, ← hfour]
  refine ⟨Nat.le_mul_of_pos_left _ (by omega), ?_⟩
  have hbits : 3 * prec k + 5 ≤ 4 * prec k := by cases k <;> decide
  calc evenSignificand m e * 4 ^ (prec k + 2) < 2 ^ (prec k + 1) * 4 ^ (prec k + 2) := by
        gcongr
        rw [pow_succ]
        omega
    _ = 2 ^ (3 * prec k + 5) := by
      rw [hfour, ← pow_add, ← pow_add]
      congr 1
      ring
    _ ≤ 2 ^ (4 * prec k) := Nat.pow_le_pow_right two_pos hbits
    _ = _ := by
      rw [← pow_add]
      congr 1
      ring

theorem rootProxy_bounds (n s : ℕ) : (s : ℚ) ≤ rootProxy n s ∧ rootProxy n s < s + 1 := by
  rw [rootProxy]
  split <;> constructor <;> linarith

/-- What `sqrtProxy` gives for the significand `m` and the unit exponent `e` of a positive operand: a number of the cell
of the real root, with more than `p + 2` bits above the cell's unit and at most `2 * p`. -/
theorem sqrtProxy_spec (k : Kind) {m : ℕ} (e : ℤ) (pos : 0 < m) (hm : m < 2 ^ prec k) :
    SameCell (rootUnit k e) (sqrtProxy k m e : ℝ) √((m : ℝ) * 2 ^ e) ∧
      ((2 ^ (prec k + 2) : ℕ) : ℚ) * 2 ^ rootUnit k e ≤ sqrtProxy k m e ∧
      sqrtProxy k m e < ((2 ^ (2 * prec k) : ℕ) : ℚ) * 2 ^ rootUnit k e := by
  obtain ⟨hlow, hhigh⟩ := radicand_bounds k e pos hm
  have hbits : 2 ^ (2 * prec k) ≤ 2 ^ (2 * prec k + 4) := Nat.pow_le_pow_right two_pos (by omega)
  have hfits := hhigh.trans_le (Nat.mul_le_mul hbits hbits)
  obtain ⟨hle, hlt⟩ := isqrtFrom_spec (2 * prec k + 4) (radicand k m e) 0 (Nat.zero_le _) (by rwa [Nat.zero_add])
  rw [sqrtProxy_eq, sqrt_mul_zpow_eq k]
  generalize isqrtFrom (2 * prec k + 4) (radicand k m e) 0 = s at *
  obtain ⟨hproxyLow, hproxyHigh⟩ := rootProxy_bounds (radicand k m e) s
  have hsLow : 2 ^ (prec k + 2) ≤ s :=
    Nat.lt_succ_iff.mp (lt_of_mul_self_lt_mul_self₀ (Nat.zero_le _) (hlow.trans_lt hlt))
  have hsHigh : s + 1 ≤ 2 ^ (2 * prec k) := lt_of_mul_self_lt_mul_self₀ (Nat.zero_le _) (hle.trans_lt hhigh)
  refine ⟨?_, ?_, ?_⟩
  · push_cast
    exact sameCell_rootProxy _ hle hlt
  · gcongr
    exact le_trans (by exact_mod_cast hsLow) hproxyLow
  · gcongr
    exact lt_of_lt_of_le hproxyHigh (by exact_mod_cast hsHigh)

/-- The cells of `sqrtProxy` are finer than half its unit in the last place. -/
theorem rootUnit_lt_ulpExp {e : ℤ} {x : ℚ} (h : ((2 ^ (prec k + 2) : ℕ) : ℚ) * 2 ^ rootUnit k e ≤ x) :
    rootUnit k e < ulpExp k x := by
  have pos : 0 < x := lt_of_lt_of_le (by positivity) h
  obtain ⟨_, _, hlt⟩ := ulpExp_spec (k := k) pos
  have hchain := h.trans_lt hlt
  push_cast at hchain
  simp only [← zpow_natCast, ← zpow_add₀ (two_ne_zero (α := ℚ))] at hchain
  have := (zpow_lt_zpow_iff_right₀ one_lt_two).mp hchain
  omega

/-- `sqrtProxy` of a finite operand is far below the overflow threshold. -/
theorem lt_maxFinite_of_rootUnit {e : ℤ} {x : ℚ} (he : e ≤ unitMax k)
    (h : x < ((2 ^ (2 * prec k) : ℕ) : ℚ) * 2 ^ rootUnit k e) : x < maxFinite k := by
  have hexp : 2 * (prec k : ℤ) + rootUnit k e ≤ emax k ∧ unitMax k ≤ emax k := by
    rw [rootUnit]
    cases k <;> simp only [unitMax, prec, emax] at he ⊢ <;> omega
  have hunit : (2 : ℚ) ^ unitMax k ≤ 2 ^ emax k := zpow_le_zpow_right₀ one_le_two hexp.2
  have hmax := maxFinite_add_unit k
  rw [zpow_add_one₀ two_ne_zero] at hmax
  refine lt_of_lt_of_le h (le_trans (b := 2 ^ emax k) ?_ (by linarith))
  push_cast
  rw [← zpow_natCast, ← zpow_add₀ two_ne_zero]
  exact zpow_le_zpow_right₀ one_le_two (by push_cast; exact hexp.1)

/-! ## The rounded root -/

/-- A positive rational rounds to a nearest word of every real number of its cell. -/
theorem rn_nearest_of_sameCell {t : ℤ} {x : ℚ} {y : ℝ} (pos : 0 < x) (finite : isFinite (rn k x) = true)
    (cell : SameCell t x y) (fine : t < ulpExp k x) (nonneg : 0 ≤ y) (w : Word k) :
    |(value (rn k x) : ℝ) - y| ≤ |(value w : ℝ) - y| := by
  obtain ⟨n, rounds, habs, _⟩ := roundsTo_rn pos.ne' finite
  have hvalue := value_eq_sign_mul_abs (rn k x)
  rw [signBit_rn k pos.ne', habs] at hvalue
  rw [abs_of_pos pos] at rounds hvalue
  have near := (rounds.cast.of_sameCell cell fine).nearest (significand_lt w) (unitMin_le_unitExp w)
  calc |(value (rn k x) : ℝ) - y| = |(n : ℝ) * 2 ^ ulpExp k x - y| := by simp [hvalue, not_lt.mpr pos.le]
    _ ≤ |((|value w| : ℚ) : ℝ) - y| := by
      rw [abs_value w]
      push_cast
      exact near
    _ ≤ |(value w : ℝ) - y| := by simpa [abs_of_nonneg nonneg] using abs_abs_sub_abs_le (value w : ℝ) y

/-- The root of a positive finite word is its proxy, rounded. -/
theorem fsqrt_of_positive {a : Word k} (finite : isFinite a = true) (nonzero : isZero a = false)
    (positive : signBit a = false) : fsqrt a = rn k (sqrtProxy k (significand a) (unitExp a)) := by
  obtain ⟨hnan, hinf⟩ := not_nan_inf_of_isFinite finite
  simp [fsqrt, hinf, hnan, nonzero, positive]

theorem value_of_positive {a : Word k} (positive : signBit a = false) :
    value a = (significand a : ℚ) * 2 ^ unitExp a := by
  simp [value, positive]

theorem significand_pos {a : Word k} (nonzero : isZero a = false) : 0 < significand a := by
  have := abs_value_pos nonzero
  rw [abs_value] at this
  exact_mod_cast pos_of_mul_pos_left this (by positivity)

/-- Settles O44: the proxy that is rounded lies in the cell of the real root. -/
theorem squareRootIsNearest : Obligations.SquareRootIsNearest := by
  intro k a finite nonzero positive
  obtain ⟨cell, hlow, hhigh⟩ := sqrtProxy_spec k (unitExp a) (significand_pos nonzero) (significand_lt a)
  rw [fsqrt_of_positive finite nonzero positive, value_of_positive positive]
  generalize sqrtProxy k (significand a) (unitExp a) = x at *
  have pos : 0 < x := lt_of_lt_of_le (by positivity) hlow
  have hunit : (0 : ℚ) < 2 ^ unitMax k := by positivity
  have hmax := lt_maxFinite_of_rootUnit (unitExp_le_unitMax finite) hhigh
  have finiteRoot : isFinite (rn k x) = true := by
    rw [isFinite_rn_iff pos.ne', abs_of_pos pos]
    linarith
  refine ⟨finiteRoot, by simpa [signBit_rn k pos.ne'] using pos.le, fun w _ => ?_⟩
  push_cast
  exact rn_nearest_of_sameCell pos finiteRoot cell (rootUnit_lt_ulpExp hlow) (Real.sqrt_nonneg _) w

end Sys2Proof.Machine
end

section
/-! PROOF. The bit-splitter and the split (40_primitives_and_split.md R120, R121): what `upper` leaves of the fields, and
that the cleared bits are the difference, which a finite word has. -/

namespace Sys2Proof.Machine

variable {k : Kind}

/-! ## Sums that a finite word has -/

/-- A sum of finite words that some finite word has is not changed by rounding (R104). -/
theorem fadd_of_representable {a b : Word k} (finiteA : isFinite a = true) (finiteB : isFinite b = true)
    (h : Representable k (value a + value b)) :
    isFinite (fadd a b) = true ∧ value (fadd a b) = value a + value b := by
  obtain ⟨nanA, infA⟩ := not_nan_inf_of_isFinite finiteA
  obtain ⟨nanB, infB⟩ := not_nan_inf_of_isFinite finiteB
  have hsum : fadd a b = if value a + value b ≠ 0 then rn k (value a + value b)
      else if isZero a && isZero b && signBit a == signBit b then a else zero k false := by
    simp [fadd, nanA, nanB, infA, infB]
  rw [hsum]
  split
  · rename_i nonzero
    exact rn_of_representable nonzero h
  · rename_i cancel
    rw [not_ne_iff.mp cancel]
    split
    · rename_i zeros
      have zeroA : isZero a = true := by simp_all
      exact ⟨finiteA, (value_eq_zero_iff a).mpr zeroA⟩
    · obtain ⟨_, hzero, hfinite, _⟩ := zero_spec k false
      exact ⟨hfinite, (value_eq_zero_iff _).mpr hzero⟩

/-- The same of a difference (R105). -/
theorem fsub_of_representable {a b : Word k} (finiteA : isFinite a = true) (finiteB : isFinite b = true)
    (h : Representable k (value a - value b)) :
    isFinite (fsub a b) = true ∧ value (fsub a b) = value a - value b := by
  obtain ⟨nanA, _⟩ := not_nan_inf_of_isFinite finiteA
  obtain ⟨nanB, _⟩ := not_nan_inf_of_isFinite finiteB
  have hneg : fsub a b = fadd a (fneg b) := by simp [fsub, nanA, nanB]
  rw [sub_eq_add_neg, ← value_fneg] at h ⊢
  rw [hneg]
  exact fadd_of_representable finiteA (by rwa [isFinite_fneg]) h

/-! ## What `upper` leaves -/

/-- Clearing the low bits of a word is rounding it down to a multiple of their weight. -/
theorem toNat_and_shiftLeft_allOnes {w : ℕ} (x : BitVec w) (s : ℕ) :
    (x &&& BitVec.allOnes w <<< s).toNat = x.toNat / 2 ^ s * 2 ^ s := by
  rw [← BitVec.shiftLeft_ushiftRight, BitVec.toNat_shiftLeft, BitVec.toNat_ushiftRight, Nat.shiftRight_eq_div_pow,
    Nat.shiftLeft_eq, Nat.mod_eq_of_lt]
  exact (Nat.div_mul_le_self _ _).trans_lt x.isLt

/-- `upper` keeps the sign and the exponent field and clears the low bits of the trailing significand (R120). -/
theorem fields_upper (a : Word k) :
    signBit (upper a) = signBit a ∧ biasedExp (upper a) = biasedExp a ∧
      trailing (upper a) = trailing a / 2 ^ splitBits k * 2 ^ splitBits k := by
  have hm : (upperMask k).msb = true := by cases k <;> decide
  have he : (upperMask k).extractLsb' (prec k - 1) (expBits k) = BitVec.allOnes _ := by cases k <;> decide
  have ht : (upperMask k).extractLsb' 0 (prec k - 1) = BitVec.allOnes _ <<< splitBits k := by cases k <;> decide
  refine ⟨?_, ?_, ?_⟩
  · rw [signBit, upper, BitVec.msb_and, hm, Bool.and_true]
    rfl
  · rw [biasedExp, upper, BitVec.extractLsb'_and, he, BitVec.and_allOnes]
    rfl
  · rw [trailing, upper, BitVec.extractLsb'_and, ht, toNat_and_shiftLeft_allOnes]
    rfl

/-- The bits that `upper` clears, as a number. -/
def clearedBits (a : Word k) : ℕ := trailing a % 2 ^ splitBits k

theorem isFinite_upper (a : Word k) : isFinite (upper a) = isFinite a := by
  obtain ⟨_, he, _⟩ := fields_upper a
  rw [isFinite, isFinite, he]

theorem unitExp_upper (a : Word k) : unitExp (upper a) = unitExp a := by
  obtain ⟨_, he, _⟩ := fields_upper a
  rw [unitExp, unitExp, he]

theorem significand_upper_add (a : Word k) : significand (upper a) + clearedBits a = significand a := by
  obtain ⟨_, he, ht⟩ := fields_upper a
  have hdiv := Nat.div_add_mod' (trailing a) (2 ^ splitBits k)
  rw [significand, significand, he, ht, clearedBits]
  split <;> omega

/-- What `upper` takes from the value: the cleared bits, with the sign and the unit of the word (R121). -/
theorem value_sub_value_upper (a : Word k) :
    value a - value (upper a) = (if signBit a then -1 else 1) * (clearedBits a : ℚ) * 2 ^ unitExp a := by
  obtain ⟨hs, _, _⟩ := fields_upper a
  rw [value, value, hs, unitExp_upper, ← significand_upper_add a]
  push_cast
  ring

/-- The cleared bits are a number that a finite word has. -/
theorem representable_value_sub_value_upper {a : Word k} (finite : isFinite a = true) :
    Representable k (value a - value (upper a)) := by
  have hle : clearedBits a ≤ significand a := by
    rw [← significand_upper_add a]
    exact Nat.le_add_left _ _
  have habs : |value a - value (upper a)| = (clearedBits a : ℚ) * 2 ^ unitExp a := by
    have hpos : 0 ≤ (clearedBits a : ℚ) * 2 ^ unitExp a := by positivity
    rw [value_sub_value_upper, mul_assoc, abs_mul, abs_of_nonneg hpos]
    cases signBit a <;> simp
  obtain ⟨hmax, _⟩ := abs_value_le_maxFinite finite
  refine representable_of_abs_eq habs (hle.trans_lt (significand_lt a)) (unitMin_le_unitExp a) (le_trans ?_ hmax)
  rw [habs, abs_value]
  gcongr

/-- Settles O45: the difference is the bits that `upper` clears, so that the subtraction is exact. -/
theorem splitIsExact : Obligations.SplitIsExact := by
  intro k a finite
  have finiteUpper : isFinite (upper a) = true := (isFinite_upper a).trans finite
  obtain ⟨finiteLow, difference⟩ :=
    fsub_of_representable finite finiteUpper (representable_value_sub_value_upper finite)
  exact ⟨finiteUpper, finiteLow, by rw [difference, add_sub_cancel]⟩

/-! ## The command -/

/-- A command that answers with a plain result completes with it (R25, R250). -/
theorem completesPlain_of_exec {i : Instr} {s : State} {sh : Shape} {f : ℕ → Word sh.kind} (legal : sh.legal = true)
    (h : exec i s = .next (completePlain sh f s)) : CompletesPlain i s sh f := by
  obtain ⟨rHi, response, lanes, above⟩ := plainResponse_spec legal f
  refine ⟨rHi, ?_, lanes, above⟩
  rw [h, completePlain_legal legal, response]
  rfl

/-- `UPPER` at every legal shape: each lane is `upper` of the operand's lane (R120). -/
theorem completesPlain_upper {sh : Shape} {s : State} {c : Command} (legal : sh.legal = true)
    (inFlight : s.inFlight = some c) :
    CompletesPlain (.upper sh) s sh (fun j => upper (lane sh.kind c.aHi j)) := by
  refine completesPlain_of_exec legal ?_
  rw [← current_of_inFlight inFlight]
  rfl

/-- The masks of R7, as R120 writes them. -/
theorem upperMask_eq : upperMask .f32 = 0xFFFFF000#32 ∧ upperMask .f64 = 0xFFFFFFFFF8000000#64 := by decide

/-- Settles O25: `UPPER` masks every lane, with the mask of its kind. -/
theorem upperCompletes : Obligations.UpperCompletes := by
  obtain ⟨mask32, mask64⟩ := upperMask_eq
  refine ⟨fun l s c legal inFlight => ?_, fun l s c legal inFlight => ?_⟩
  · rw [← mask32]
    exact completesPlain_upper legal inFlight
  · rw [← mask64]
    exact completesPlain_upper legal inFlight

end Sys2Proof.Machine
end

section
/-! PROOF. The quiet comparisons (40_primitives_and_split.md R111): what `fle` says of the classes of its operands, from
which the other three follow. -/

namespace Sys2Proof.Machine

variable {k : Kind} {a b : Word k}

/-! ## `fle` by the classes of the operands -/

theorem fle_of_isNan (h : isNan a = true ∨ isNan b = true) : fle a b = false := by
  rcases h with h | h <;> simp [fle, h]

theorem fle_of_isFinite (finiteA : isFinite a = true) (finiteB : isFinite b = true) :
    fle a b = decide (value a ≤ value b) := by
  obtain ⟨nanA, infA⟩ := not_nan_inf_of_isFinite finiteA
  obtain ⟨nanB, infB⟩ := not_nan_inf_of_isFinite finiteB
  simp [fle, nanA, nanB, infA, infB]

/-- An infinity on the left is below every word if negative, and below itself. -/
theorem fle_infinity_left (n : Bool) (h : isNan b = false) :
    fle (infinity k n) b = (n || isInfinity b && !signBit b) := by
  obtain ⟨hs, hi, _, hn⟩ := infinity_spec k n
  simp [fle, hs, hi, hn, h]

/-- An infinity on the right is above every finite word if positive. -/
theorem fle_infinity_right (n : Bool) (finite : isFinite a = true) : fle a (infinity k n) = !n := by
  obtain ⟨nanA, infA⟩ := not_nan_inf_of_isFinite finite
  obtain ⟨hs, hi, _, hn⟩ := infinity_spec k n
  simp [fle, nanA, infA, hs, hi, hn]

theorem fle_infinities (m n : Bool) : fle (infinity k m) (infinity k n) = (m || !n) := by
  obtain ⟨hs, hi, _, hn⟩ := infinity_spec k n
  simp [fle_infinity_left m hn, hs, hi]

theorem fle_self (h : isNan a = false) : fle a a = true := by
  rcases class_cases a with ⟨finite, _⟩ | ⟨_, inf, _⟩ | ⟨_, _, nan⟩
  · simp [fle_of_isFinite finite finite]
  · rw [eq_infinity_of_isInfinity inf, fle_infinities]
    simp
  · exact absurd (h.symm.trans nan) Bool.false_ne_true

/-! ## The four comparisons from `fle` -/

/-- On words that are no NaNs the two orders of `fle` decide all four comparisons. -/
theorem comparesAs_of_fle {o : Ordering} (nanA : isNan a = false) (nanB : isNan b = false)
    (hle : fle a b = (o != .gt)) (hge : fle b a = (o != .lt)) : ComparesAs o a b := by
  simp only [ComparesAs, feq, flt, fge, nanA, nanB, hle, hge]
  cases o <;> decide

/-- An infinity and a finite word, in both orders. -/
theorem comparesAs_infinity (finite : isFinite a = true) :
    ComparesAs .lt (infinity k true) a ∧ ComparesAs .gt a (infinity k true) ∧
      ComparesAs .gt (infinity k false) a ∧ ComparesAs .lt a (infinity k false) := by
  obtain ⟨nanA, infA⟩ := not_nan_inf_of_isFinite finite
  have nanInf : ∀ n, isNan (infinity k n) = false := fun n => by
    obtain ⟨_, _, _, nan⟩ := infinity_spec k n
    exact nan
  have left : ∀ n, fle (infinity k n) a = n := fun n => by simp [fle_infinity_left n nanA, infA]
  have right : ∀ n, fle a (infinity k n) = !n := fun n => fle_infinity_right n finite
  exact ⟨comparesAs_of_fle (nanInf _) nanA (left _) (right _), comparesAs_of_fle nanA (nanInf _) (right _) (left _),
    comparesAs_of_fle (nanInf _) nanA (left _) (right _), comparesAs_of_fle nanA (nanInf _) (right _) (left _)⟩

theorem comparesAs_infinities {o : Ordering} {m n : Bool} (hle : (m || !n) = (o != .gt))
    (hge : (n || !m) = (o != .lt)) : ComparesAs o (infinity k m) (infinity k n) := by
  obtain ⟨_, _, _, nanM⟩ := infinity_spec k m
  obtain ⟨_, _, _, nanN⟩ := infinity_spec k n
  exact comparesAs_of_fle nanM nanN ((fle_infinities m n).trans hle) ((fle_infinities n m).trans hge)

theorem comparesAs_zeros (m n : Bool) : ComparesAs .eq (zero k m) (zero k n) := by
  have le : ∀ m n, fle (zero k m) (zero k n) = true := fun m n => by
    obtain ⟨_, zeroM, finiteM, _⟩ := zero_spec k m
    obtain ⟨_, zeroN, finiteN, _⟩ := zero_spec k n
    simp [fle_of_isFinite finiteM finiteN, (value_eq_zero_iff _).mpr zeroM, (value_eq_zero_iff _).mpr zeroN]
  obtain ⟨_, _, _, _, nanM⟩ := zero_spec k m
  obtain ⟨_, _, _, _, nanN⟩ := zero_spec k n
  exact comparesAs_of_fle nanM nanN (le m n) (le n m)

/-- With a NaN among the operands all four comparisons are false. -/
theorem comparisons_of_isNan (h : isNan a = true ∨ isNan b = true) :
    feq a b = false ∧ flt a b = false ∧ fle a b = false ∧ fge a b = false := by
  have hle := fle_of_isNan h
  have hge := fle_of_isNan h.symm
  refine ⟨by simp [feq, hle], ?_, hle, hge⟩
  rcases h with h | h <;> simp [flt, h]

/-- On finite words the four comparisons are those of the values. -/
theorem comparisons_of_isFinite (finiteA : isFinite a = true) (finiteB : isFinite b = true) :
    (feq a b = true ↔ value a = value b) ∧ (flt a b = true ↔ value a < value b) ∧
      (fle a b = true ↔ value a ≤ value b) ∧ (fge a b = true ↔ value a ≥ value b) := by
  obtain ⟨nanA, _⟩ := not_nan_inf_of_isFinite finiteA
  obtain ⟨nanB, _⟩ := not_nan_inf_of_isFinite finiteB
  have hle := fle_of_isFinite finiteA finiteB
  have hge := fle_of_isFinite finiteB finiteA
  refine ⟨?_, ?_, ?_, ?_⟩
  · rw [feq, hle, hge, Bool.and_eq_true, decide_eq_true_iff, decide_eq_true_iff, le_antisymm_iff]
  · simp [flt, hge, nanA, nanB]
  · simp [hle]
  · simp [fge, hge]

/-- A word is unequal to itself exactly when it is a NaN. -/
theorem feq_self_eq_false_iff (a : Word k) : feq a a = false ↔ isNan a = true := by
  rcases Bool.eq_false_or_eq_true (isNan a) with nan | noNan
  · simp [feq, fle_of_isNan (.inl nan), nan]
  · simp [feq, fle_self noNan, noNan]

/-- Settles O55: the NaNs, the finite words, the infinities and the zeros, each by the lemma of its class. -/
theorem quietComparisonsMeaning : Obligations.QuietComparisonsMeaning := fun _ a _ =>
  ⟨comparisons_of_isNan, comparisons_of_isFinite, comparesAs_infinity, comparesAs_infinities rfl rfl,
    comparesAs_infinities rfl rfl, fun n => comparesAs_infinities (by cases n <;> rfl) (by cases n <;> rfl),
    comparesAs_zeros, feq_self_eq_false_iff a⟩

end Sys2Proof.Machine
end

section
/-! PROOF. Rounded sums of finite words (40_primitives_and_split.md R102, R104, R105): what rounding does to the multiples
of a unit, and that the error of a rounded sum is a number that a finite word has. -/

namespace Sys2Proof.Machine

variable {k : Kind}

/-! ## The multiples of a unit -/

/-- The multiples of `2^g`, closed under sums and differences. -/
abbrev grid (g : ℤ) : AddSubgroup ℚ := AddSubgroup.zmultiples ((2 : ℚ) ^ g)

theorem mem_grid_iff {g : ℤ} {q : ℚ} : q ∈ grid g ↔ ∃ N : ℤ, (N : ℚ) * 2 ^ g = q := by
  simp only [AddSubgroup.mem_zmultiples_iff, zsmul_eq_mul]

theorem grid_le_grid {g u : ℤ} (h : g ≤ u) : grid u ≤ grid g := by
  obtain ⟨d, rfl⟩ := Int.le.dest h
  refine AddSubgroup.zmultiples_le_of_mem (mem_grid_iff.mpr ⟨2 ^ d, ?_⟩)
  rw [zpow_add₀ two_ne_zero, zpow_natCast, mul_comm]
  push_cast
  rfl

theorem exists_abs_eq_of_mem_grid {g : ℤ} {q : ℚ} (mem : q ∈ grid g) : ∃ n : ℕ, |q| = (n : ℚ) * 2 ^ g := by
  obtain ⟨N, rfl⟩ := mem_grid_iff.mp mem
  have hpos : (0 : ℚ) < 2 ^ g := by positivity
  exact ⟨N.natAbs, by rw [abs_mul, abs_of_pos hpos, Nat.cast_natAbs, Int.cast_abs]⟩

/-- An even multiple of a unit is a multiple of the next unit. -/
theorem mem_grid_succ_of_even {N : ℤ} (even : Even N) (g : ℤ) : (N : ℚ) * 2 ^ g ∈ grid (g + 1) := by
  obtain ⟨M, rfl⟩ := even
  refine mem_grid_iff.mpr ⟨M, ?_⟩
  rw [zpow_add_one₀ two_ne_zero]
  push_cast
  ring

/-- The sum of two odd multiples of a unit is a multiple of the next unit. -/
theorem add_mem_grid_succ_of_notMem {g : ℤ} {x y : ℚ} (hx : x ∈ grid g) (hy : y ∈ grid g) (oddX : x ∉ grid (g + 1))
    (oddY : y ∉ grid (g + 1)) : x + y ∈ grid (g + 1) := by
  obtain ⟨N, rfl⟩ := mem_grid_iff.mp hx
  obtain ⟨M, rfl⟩ := mem_grid_iff.mp hy
  have oddN : Odd N := Int.not_even_iff_odd.mp fun h => oddX (mem_grid_succ_of_even h g)
  have oddM : Odd M := Int.not_even_iff_odd.mp fun h => oddY (mem_grid_succ_of_even h g)
  have hsum := mem_grid_succ_of_even (oddN.add_odd oddM) g
  rwa [Int.cast_add, add_mul] at hsum

/-- A word's value is a multiple of its unit, less than `2^p` units. -/
theorem value_mem_grid (a : Word k) : value a ∈ grid (unitExp a) := by
  refine mem_grid_iff.mpr ⟨(if signBit a then -1 else 1) * significand a, ?_⟩
  rw [value]
  push_cast
  rfl

theorem abs_value_lt (a : Word k) : |value a| < 2 ^ prec k * 2 ^ unitExp a := by
  have hm : (significand a : ℚ) < 2 ^ prec k := by exact_mod_cast significand_lt a
  rw [abs_value]
  gcongr

theorem representable_zero (k : Kind) : Representable k 0 := by
  obtain ⟨_, hzero, finite, _⟩ := zero_spec k false
  exact ⟨zero k false, finite, (value_eq_zero_iff _).mpr hzero⟩

theorem Representable.neg {q : ℚ} (h : Representable k q) : Representable k (-q) := by
  obtain ⟨w, finite, rfl⟩ := h
  exact ⟨fneg w, by rwa [isFinite_fneg], value_fneg w⟩

/-- The numbers that a finite word has, as multiples of a unit. -/
theorem representable_of_mem_grid {q : ℚ} {g : ℤ} (hmin : unitMin k ≤ g) (hmax : g ≤ unitMax k) (mem : q ∈ grid g)
    (lt : |q| < 2 ^ prec k * 2 ^ g) : Representable k q := by
  obtain ⟨n, habs⟩ := exists_abs_eq_of_mem_grid mem
  rw [habs] at lt
  have hn : n < 2 ^ prec k := by exact_mod_cast lt_of_mul_lt_mul_right lt (by positivity)
  refine representable_of_abs_eq habs hn hmin ?_
  rw [habs, maxFinite_eq]
  gcongr
  · exact Nat.le_sub_one_of_lt hn
  · exact one_le_two

/-- A multiple of the next unit may be twice as great. -/
theorem representable_of_mem_grid_succ {q x : ℚ} {g : ℤ} (hmin : unitMin k ≤ g) (hmax : g < unitMax k)
    (mem : q ∈ grid (g + 1)) (hx : |x| < 2 ^ prec k * 2 ^ g) (le : |q| ≤ 2 * |x|) : Representable k q := by
  refine representable_of_mem_grid (by omega) hmax mem ?_
  rw [zpow_add_one₀ two_ne_zero]
  linarith

/-! ## Rounded numbers -/

/-- The unit of a finite rounded word is not below the unit that rounding chose. -/
theorem ulpExp_le_unitExp_rn {q : ℚ} (nonzero : q ≠ 0) (finite : isFinite (rn k q) = true) :
    ulpExp k |q| ≤ unitExp (rn k q) := by
  rcases rn_cases k nonzero with ⟨_, e⟩ | ⟨_, _, _, habs, _⟩
  · obtain ⟨_, _, infinite, _⟩ := infinity_spec k (decide (q < 0))
    rw [e, infinite] at finite
    exact absurd finite Bool.false_ne_true
  · by_contra! hlt
    have hnormal := le_roundedSignificand k (abs_pos.mpr nonzero) (lt_of_le_of_lt (unitMin_le_unitExp _) hlt).ne'
    have hbelow := mul_zpow_lt_of_lt (K := ℚ) (significand_lt (rn k q)) hlt
    rw [← abs_value, habs] at hbelow
    have hcancel := lt_of_mul_lt_mul_right hbelow (by positivity)
    exact absurd hnormal (not_le.mpr (by exact_mod_cast hcancel))

/-- The finite word `r` is the number `q`, rounded: no word is nearer, the error is at most half a unit in the last place,
and of a multiple of a unit that `r` does not have only multiples of the next unit are left. -/
structure IsRounded (q : ℚ) (r : Word k) : Prop where
  finite : isFinite r = true
  nearest : ∀ w : Word k, |value r - q| ≤ |value w - q|
  half : |value r - q| ≤ 2 ^ unitExp r / 2
  coarser : ∀ g, q ∈ grid g → value r = q ∨ g < unitMax k ∧ value r ∈ grid (g + 1)

theorem isRounded_of_value_eq {q : ℚ} {r : Word k} (finite : isFinite r = true) (h : value r = q) : IsRounded q r where
  finite := finite
  nearest w := by simp [h]
  half := by
    rw [h, sub_self, abs_zero]
    positivity
  coarser _ _ := .inl h

theorem isRounded_rn {q : ℚ} (nonzero : q ≠ 0) (finite : isFinite (rn k q) = true) : IsRounded q (rn k q) := by
  obtain ⟨n, rounds, habs, _⟩ := roundsTo_rn nonzero finite
  have hulp := ulpExp_le_unitExp_rn nonzero finite
  have hdist : |value (rn k q) - q| = |(n : ℚ) * 2 ^ ulpExp k |q| - (|q|)| := by rw [abs_value_rn_sub nonzero, habs]
  refine ⟨finite, rn_nearest nonzero finite, ?_, fun g mem => ?_⟩
  · have hle : (2 : ℚ) ^ ulpExp k |q| ≤ 2 ^ unitExp (rn k q) := zpow_le_zpow_right₀ one_le_two hulp
    rw [hdist]
    linarith [rounds.close]
  · rcases le_or_gt (ulpExp k |q|) g with hle | hlt
    · left
      obtain ⟨N, hN⟩ := exists_abs_eq_of_mem_grid (grid_le_grid hle mem)
      have hnear := rounds.le_of_multiple N
      rwa [← hN, sub_self, abs_zero, ← hdist, abs_nonpos_iff, sub_eq_zero] at hnear
    · right
      exact ⟨by linarith [unitExp_le_unitMax finite], grid_le_grid (by omega) (value_mem_grid _)⟩

section Rounded

variable {q : ℚ} {r : Word k}

/-- Rounding changes no number that a finite word has. -/
theorem IsRounded.value_eq (h : IsRounded q r) (representable : Representable k q) : value r = q := by
  obtain ⟨w, _, rfl⟩ := representable
  have hnear := h.nearest w
  rwa [sub_self, abs_zero, abs_nonpos_iff, sub_eq_zero] at hnear

/-- Rounding a multiple of a unit gives one. -/
theorem IsRounded.value_mem_grid (h : IsRounded q r) {g : ℤ} (mem : q ∈ grid g) : value r ∈ grid g := by
  rcases h.coarser g mem with e | ⟨_, coarse⟩
  · rwa [e]
  · exact grid_le_grid (by omega) coarse

end Rounded

/-! ## Rounded sums -/

/-- The sum of finite words is rounded once, unless it is 0 (R104). -/
theorem fadd_eq_rn {a b : Word k} (finiteA : isFinite a = true) (finiteB : isFinite b = true)
    (nonzero : value a + value b ≠ 0) : fadd a b = rn k (value a + value b) := by
  obtain ⟨nanA, infA⟩ := not_nan_inf_of_isFinite finiteA
  obtain ⟨nanB, infB⟩ := not_nan_inf_of_isFinite finiteB
  simp [fadd, nanA, nanB, infA, infB, nonzero]

theorem isRounded_fadd {a b : Word k} (finiteA : isFinite a = true) (finiteB : isFinite b = true)
    (finite : isFinite (fadd a b) = true) : IsRounded (value a + value b) (fadd a b) := by
  rcases eq_or_ne (value a + value b) 0 with cancel | nonzero
  · obtain ⟨_, hexact⟩ := fadd_of_representable finiteA finiteB (cancel ▸ representable_zero k)
    exact isRounded_of_value_eq finite hexact
  · rw [fadd_eq_rn finiteA finiteB nonzero] at finite ⊢
    exact isRounded_rn nonzero finite

/-- A difference is the sum with the second operand negated, unless an operand is a NaN (R105). -/
theorem fsub_eq_fadd {a b : Word k} (nanA : isNan a = false) (nanB : isNan b = false) :
    fsub a b = fadd a (fneg b) := by
  simp [fsub, nanA, nanB]

theorem isRounded_fsub {a b : Word k} (finiteA : isFinite a = true) (finiteB : isFinite b = true)
    (finite : isFinite (fsub a b) = true) : IsRounded (value a - value b) (fsub a b) := by
  obtain ⟨nanA, _⟩ := not_nan_inf_of_isFinite finiteA
  obtain ⟨nanB, _⟩ := not_nan_inf_of_isFinite finiteB
  rw [fsub_eq_fadd nanA nanB] at finite ⊢
  rw [sub_eq_add_neg, ← value_fneg]
  exact isRounded_fadd finiteA (by rwa [isFinite_fneg]) finite

/-- The error of a rounded sum is a multiple of the smaller unit and no greater than the operand of that unit. -/
theorem representable_error_of_unitExp_le {x y r : Word k} (finiteX : isFinite x = true)
    (h : IsRounded (value x + value y) r) (hu : unitExp x ≤ unitExp y) :
    Representable k (value r - (value x + value y)) := by
  have memSum : value x + value y ∈ grid (unitExp x) :=
    add_mem (value_mem_grid x) (grid_le_grid hu (value_mem_grid y))
  refine representable_of_mem_grid (unitMin_le_unitExp x) (unitExp_le_unitMax finiteX)
    (sub_mem (h.value_mem_grid memSum) memSum) ((h.nearest y).trans_lt ?_)
  rw [sub_add_cancel_right, abs_neg]
  exact abs_value_lt x

/-- A finite word has the error of a rounded sum. -/
theorem representable_error {x y r : Word k} (finiteX : isFinite x = true) (finiteY : isFinite y = true)
    (h : IsRounded (value x + value y) r) : Representable k (value r - (value x + value y)) := by
  rcases le_total (unitExp x) (unitExp y) with hu | hu
  · exact representable_error_of_unitExp_le finiteX h hu
  · rw [add_comm] at h ⊢
    exact representable_error_of_unitExp_le finiteY h hu

end Sys2Proof.Machine
end

section
/-! PROOF. Knuth's two-sum of finite words (41_error_free_transforms.md R140, R144 (a), (b)). With `d = r - (a + b)` and
`e = v - (r - a)` the errors of `r` and of `v = r -. a`, the later operations have the exact results `a - e`, `e`,
`-(d + e)` and `-d`. All are numbers that a finite word has: either `e` is 0, or `b`, `r` and `v` are multiples of the unit
above that of `a`. -/

namespace Sys2Proof.Machine

variable {k : Kind}

/-! ## The two rounded operations -/

section Errors

variable {a b r v : Word k}

/-- The error of `r` is no greater than `a`, and no greater than `b`: without it `r` would be the other operand. -/
theorem abs_error_le (hr : IsRounded (value a + value b) r) :
    |value r - (value a + value b)| ≤ |value a| ∧ |value r - (value a + value b)| ≤ |value b| := by
  have hb := hr.nearest b
  have ha := hr.nearest a
  rw [sub_add_cancel_right, abs_neg] at hb
  rw [sub_add_cancel_left, abs_neg] at ha
  exact ⟨hb, ha⟩

/-- The error of `v = r -. a` is no greater than `a`: without it `v` would be `r`. -/
theorem abs_difference_error_le (hv : IsRounded (value r - value a) v) :
    |value v - (value r - value a)| ≤ |value a| := by
  have hr := hv.nearest r
  rwa [sub_sub_cancel] at hr

/-- A word with the error of `v`. -/
theorem representable_difference_error (finiteA : isFinite a = true) (finiteR : isFinite r = true)
    (hv : IsRounded (value r - value a) v) : Representable k (value v - (value r - value a)) := by
  have finiteNeg : isFinite (fneg a) = true := by rwa [isFinite_fneg]
  rw [sub_eq_add_neg (value r), ← value_fneg] at hv ⊢
  exact representable_error finiteR finiteNeg hv

/-- If `r` is exact, so is `v`: it is `b`. -/
theorem difference_exact_of_sum_exact (finiteB : isFinite b = true) (hexact : value r = value a + value b)
    (hv : IsRounded (value r - value a) v) : value v = value r - value a :=
  hv.value_eq ⟨b, finiteB, by rw [hexact, add_sub_cancel_left]⟩

/-- If the unit of `b` is below that of `a`, or is the same and `b` an odd multiple of it, then `v` is exact: `r` and `a`
are multiples of the next unit, at most `2 * |b|` apart, or `a` and `b` are two odd multiples and `r` is exact. -/
theorem difference_exact_of_unitExp_le (finiteB : isFinite b = true) (hr : IsRounded (value a + value b) r)
    (hv : IsRounded (value r - value a) v) (hu : unitExp b ≤ unitExp a)
    (odd : unitExp a = unitExp b → value b ∉ grid (unitExp b + 1)) : value v = value r - value a := by
  have memA : value a ∈ grid (unitExp b) := grid_le_grid hu (value_mem_grid a)
  have memB : value b ∈ grid (unitExp b) := value_mem_grid b
  rcases hr.coarser _ (add_mem memA memB) with hexact | ⟨hmax, coarseR⟩
  · exact difference_exact_of_sum_exact finiteB hexact hv
  by_cases coarseA : value a ∈ grid (unitExp b + 1)
  · refine hv.value_eq (representable_of_mem_grid_succ (unitMin_le_unitExp b) hmax (sub_mem coarseR coarseA)
      (abs_value_lt b) ?_)
    calc |value r - value a| = |(value r - (value a + value b)) + value b| := by congr 1; ring
      _ ≤ |value r - (value a + value b)| + |value b| := abs_add_le _ _
      _ ≤ 2 * |value b| := by linarith [(abs_error_le hr).2]
  · have same : unitExp a = unitExp b := by
      by_contra hne
      exact coarseA (grid_le_grid (by omega) (value_mem_grid a))
    have coarseSum := add_mem_grid_succ_of_notMem memA memB coarseA (odd same)
    refine difference_exact_of_sum_exact finiteB (hr.value_eq ?_) hv
    refine representable_of_mem_grid (by linarith [unitMin_le_unitExp b]) hmax coarseSum ?_
    have ltA := abs_value_lt a
    rw [same] at ltA
    rw [zpow_add_one₀ two_ne_zero]
    linarith [abs_add_le (value a) (value b), abs_value_lt b]

/-- `v` is exact, or both operations have rounded away from the unit of `a`, of which `b` is an even multiple. -/
theorem difference_exact_or_coarse (finiteB : isFinite b = true)
    (hr : IsRounded (value a + value b) r) (hv : IsRounded (value r - value a) v) :
    value v = value r - value a ∨
      unitExp a < unitMax k ∧ value b ∈ grid (unitExp a + 1) ∧ value r ∈ grid (unitExp a + 1) ∧
        value v ∈ grid (unitExp a + 1) := by
  by_cases even : unitExp a ≤ unitExp b ∧ value b ∈ grid (unitExp a + 1)
  · obtain ⟨hu, coarseB⟩ := even
    have memA : value a ∈ grid (unitExp a) := value_mem_grid a
    have memSum := add_mem memA (grid_le_grid hu (value_mem_grid b))
    rcases hr.coarser _ memSum with hexact | ⟨hmax, coarseR⟩
    · exact .inl (difference_exact_of_sum_exact finiteB hexact hv)
    · exact (hv.coarser _ (sub_mem (hr.value_mem_grid memSum) memA)).imp_right
        fun ⟨_, coarseV⟩ => ⟨hmax, coarseB, coarseR, coarseV⟩
  · have memB := value_mem_grid b
    have hu : unitExp b ≤ unitExp a := by
      by_contra! hlt
      exact even ⟨hlt.le, grid_le_grid hlt memB⟩
    refine .inl (difference_exact_of_unitExp_le finiteB hr hv hu fun same coarseB => even ⟨same.le, ?_⟩)
    rwa [same]

/-- A word with the value `r - v`, that of `a` and the error of `v`. -/
theorem representable_sum_sub_difference (finiteA : isFinite a = true) (finiteB : isFinite b = true)
    (hr : IsRounded (value a + value b) r) (hv : IsRounded (value r - value a) v) :
    Representable k (value r - value v) := by
  rcases difference_exact_or_coarse finiteB hr hv with hexact | ⟨hmax, _, coarseR, coarseV⟩
  · exact ⟨a, finiteA, by rw [hexact, sub_sub_cancel]⟩
  · refine representable_of_mem_grid_succ (unitMin_le_unitExp a) hmax (sub_mem coarseR coarseV) (abs_value_lt a) ?_
    calc |value r - value v| = |value a - (value v - (value r - value a))| := by congr 1; ring
      _ ≤ |value a| + |value v - (value r - value a)| := abs_sub _ _
      _ ≤ 2 * |value a| := by linarith [(abs_error_le hr).1, abs_difference_error_le hv]

/-- A word with the value `b - v`, that of the two errors. -/
theorem representable_operand_sub_difference (finiteA : isFinite a = true) (finiteB : isFinite b = true)
    (hr : IsRounded (value a + value b) r) (hv : IsRounded (value r - value a) v) :
    Representable k (value b - value v) := by
  rcases difference_exact_or_coarse finiteB hr hv with hexact | ⟨hmax, coarseB, _, coarseV⟩
  · have difference : value b - value v = -(value r - (value a + value b)) := by
      rw [hexact]
      ring
    rw [difference]
    exact (representable_error finiteA finiteB hr).neg
  · refine representable_of_mem_grid_succ (unitMin_le_unitExp a) hmax (sub_mem coarseB coarseV) (abs_value_lt a) ?_
    calc |value b - value v| = |(value r - (value a + value b)) + (value v - (value r - value a))| := by
          rw [← abs_neg]
          congr 1
          ring
      _ ≤ |value r - (value a + value b)| + |value v - (value r - value a)| := abs_add_le _ _
      _ ≤ 2 * |value a| := by linarith [(abs_error_le hr).1, abs_difference_error_le hv]

end Errors

/-! ## The six operations -/

variable {a b : Word k}

/-- The error term from `r` and `v` (R140). -/
theorem twoSum_lo (a b : Word k) :
    (twoSum a b).lo =
      fadd (fsub a (fsub (fadd a b) (fsub (fadd a b) a))) (fsub b (fsub (fadd a b) a)) := rfl

/-- Where `r` and `r -. a` are finite, the error term is the error of `r` (R144 (a)), at most half a unit in its last place
(R144 (b)). -/
theorem twoSum_exact (finiteA : isFinite a = true) (finiteB : isFinite b = true)
    (finiteR : isFinite (fadd a b) = true) (finiteV : isFinite (fsub (fadd a b) a) = true) :
    isFinite (twoSum a b).lo = true ∧ value (fadd a b) + value (twoSum a b).lo = value a + value b ∧
      |value (twoSum a b).lo| ≤ 2 ^ unitExp (fadd a b) / 2 := by
  have hr := isRounded_fadd finiteA finiteB finiteR
  have hv := isRounded_fsub finiteR finiteA finiteV
  rw [twoSum_lo]
  generalize fadd a b = r at *
  generalize fsub r a = v at *
  obtain ⟨finite1, value1⟩ := fsub_of_representable finiteR finiteV
    (representable_sum_sub_difference finiteA finiteB hr hv)
  have difference : value a - value (fsub r v) = value v - (value r - value a) := by
    rw [value1]
    ring
  obtain ⟨finite2, value2⟩ := fsub_of_representable finiteA finite1
    (difference ▸ representable_difference_error finiteA finiteR hv)
  obtain ⟨finite3, value3⟩ := fsub_of_representable finiteB finiteV
    (representable_operand_sub_difference finiteA finiteB hr hv)
  have error : value (fsub a (fsub r v)) + value (fsub b v) = value a + value b - value r := by
    rw [value2, value3, value1]
    ring
  have representable := (representable_error finiteA finiteB hr).neg
  rw [neg_sub, ← error] at representable
  obtain ⟨finiteE, valueE⟩ := fadd_of_representable finite2 finite3 representable
  rw [error] at valueE
  refine ⟨finiteE, by rw [valueE, add_sub_cancel], ?_⟩
  rw [valueE, abs_sub_comm]
  exact hr.half

end Sys2Proof.Machine
end

section
/-! PROOF. Sums with NaNs, infinities and zeros (40_primitives_and_split.md R104, R105), and the two-sum of every pair of
finite words and of the special operands (41_error_free_transforms.md R140, R144). -/

namespace Sys2Proof.Machine

variable {k : Kind} {a b : Word k}

/-! ## NaNs -/

theorem isNan_qnan (k : Kind) : isNan (qnan k) = true := by cases k <;> decide

theorem fadd_of_isNan (h : isNan a = true ∨ isNan b = true) : fadd a b = qnan k := by
  rcases h with h | h <;> simp [fadd, h]

theorem fsub_of_isNan (h : isNan a = true ∨ isNan b = true) : fsub a b = qnan k := by
  rcases h with h | h <;> simp [fsub, h]

/-! ## Infinities -/

theorem not_nan_finite_of_isInfinity (h : isInfinity a = true) : isNan a = false ∧ isFinite a = false := by
  rcases class_cases a with ⟨_, hi, _⟩ | ⟨hf, _, hn⟩ | ⟨_, hi, _⟩
  · exact absurd (hi.symm.trans h) Bool.false_ne_true
  · exact ⟨hn, hf⟩
  · exact absurd (hi.symm.trans h) Bool.false_ne_true

theorem fadd_of_isInfinity_left (infinite : isInfinity a = true) (finite : isFinite b = true) : fadd a b = a := by
  obtain ⟨nanA, _⟩ := not_nan_finite_of_isInfinity infinite
  obtain ⟨nanB, infB⟩ := not_nan_inf_of_isFinite finite
  simp [fadd, nanA, nanB, infinite, infB]

theorem fadd_of_isInfinity_right (finite : isFinite a = true) (infinite : isInfinity b = true) : fadd a b = b := by
  obtain ⟨nanA, infA⟩ := not_nan_inf_of_isFinite finite
  obtain ⟨nanB, _⟩ := not_nan_finite_of_isInfinity infinite
  simp [fadd, nanA, nanB, infinite, infA]

theorem fadd_self_of_isInfinity (infinite : isInfinity a = true) : fadd a a = a := by
  obtain ⟨nanA, _⟩ := not_nan_finite_of_isInfinity infinite
  simp [fadd, nanA, infinite]

theorem fadd_fneg_of_isInfinity (infinite : isInfinity a = true) : fadd a (fneg a) = qnan k := by
  obtain ⟨nanA, _⟩ := not_nan_finite_of_isInfinity infinite
  simp [fadd, nanA, infinite]

theorem fsub_of_isInfinity_left (infinite : isInfinity a = true) (finite : isFinite b = true) : fsub a b = a := by
  obtain ⟨nanA, _⟩ := not_nan_finite_of_isInfinity infinite
  obtain ⟨nanB, _⟩ := not_nan_inf_of_isFinite finite
  rw [fsub_eq_fadd nanA nanB, fadd_of_isInfinity_left infinite (by rwa [isFinite_fneg])]

theorem fsub_of_isInfinity_right (finite : isFinite a = true) (infinite : isInfinity b = true) :
    fsub a b = fneg b := by
  obtain ⟨nanA, _⟩ := not_nan_inf_of_isFinite finite
  obtain ⟨nanB, _⟩ := not_nan_finite_of_isInfinity infinite
  rw [fsub_eq_fadd nanA nanB, fadd_of_isInfinity_right finite (by rwa [isInfinity_fneg])]

theorem fsub_self_of_isInfinity (infinite : isInfinity a = true) : fsub a a = qnan k := by
  obtain ⟨nanA, _⟩ := not_nan_finite_of_isInfinity infinite
  rw [fsub_eq_fadd nanA nanA, fadd_fneg_of_isInfinity infinite]

/-! ## Overflow of a sum -/

/-- A sum of finite words that is no finite word is an infinity, and the exact sum is past the midpoint above the largest
finite magnitude (R102, R104). -/
theorem overflow_of_fadd (finiteA : isFinite a = true) (finiteB : isFinite b = true)
    (overflow : isFinite (fadd a b) = false) :
    isInfinity (fadd a b) = true ∧ maxFinite k + 2 ^ unitMax k / 2 ≤ |value a + value b| := by
  have nonzero : value a + value b ≠ 0 := fun cancel => by
    obtain ⟨finite, _⟩ := fadd_of_representable finiteA finiteB (cancel ▸ representable_zero k)
    exact Bool.false_ne_true (overflow.symm.trans finite)
  rw [fadd_eq_rn finiteA finiteB nonzero] at overflow ⊢
  obtain ⟨_, infinite, _⟩ := infinity_spec k (decide (value a + value b < 0))
  refine ⟨by rw [rn_eq_infinity nonzero overflow, infinite], ?_⟩
  rw [← not_lt, ← isFinite_rn_iff nonzero, overflow]
  exact Bool.false_ne_true

theorem overflow_of_fsub (finiteA : isFinite a = true) (finiteB : isFinite b = true)
    (overflow : isFinite (fsub a b) = false) :
    isInfinity (fsub a b) = true ∧ maxFinite k + 2 ^ unitMax k / 2 ≤ |value a - value b| := by
  obtain ⟨nanA, _⟩ := not_nan_inf_of_isFinite finiteA
  obtain ⟨nanB, _⟩ := not_nan_inf_of_isFinite finiteB
  rw [fsub_eq_fadd nanA nanB] at overflow ⊢
  rw [sub_eq_add_neg, ← value_fneg]
  exact overflow_of_fadd finiteA (by rwa [isFinite_fneg]) overflow

/-! ## Where the error term is a NaN -/

/-- A NaN in `r -. v` goes through to the error term. -/
theorem twoSum_lo_of_isNan (h : isNan (fsub (fadd a b) (fsub (fadd a b) a)) = true) : (twoSum a b).lo = qnan k := by
  rw [twoSum_lo, fsub_of_isNan (.inr h), fadd_of_isNan (.inl (isNan_qnan k))]

/-- A NaN in `v = r -. a` does too. -/
theorem twoSum_lo_of_isNan_difference (h : isNan (fsub (fadd a b) a) = true) : (twoSum a b).lo = qnan k := by
  refine twoSum_lo_of_isNan ?_
  rw [fsub_of_isNan (.inr h), isNan_qnan]

/-- An infinite `r` from a finite `a` gives `v = r`, and `r -. r` is a NaN. -/
theorem twoSum_lo_of_isInfinity_sum (finiteA : isFinite a = true) (infinite : isInfinity (fadd a b) = true) :
    (twoSum a b).lo = qnan k := by
  refine twoSum_lo_of_isNan ?_
  rw [fsub_of_isInfinity_left infinite finiteA, fsub_self_of_isInfinity infinite, isNan_qnan]

/-- An infinite `v` of finite words gives `-v`, `v` and `-v` in turn, and `v +. -v` is a NaN (R140). -/
theorem twoSum_lo_of_isInfinity_difference (finiteA : isFinite a = true) (finiteB : isFinite b = true)
    (finiteR : isFinite (fadd a b) = true) (infinite : isInfinity (fsub (fadd a b) a) = true) :
    (twoSum a b).lo = qnan k := by
  rw [twoSum_lo]
  generalize fsub (fadd a b) a = v at *
  rw [fsub_of_isInfinity_right finiteR infinite, fsub_of_isInfinity_right finiteB infinite,
    fsub_of_isInfinity_right finiteA (by rwa [isInfinity_fneg]), fneg_fneg, fadd_fneg_of_isInfinity infinite]

/-! ## Finite operands -/

/-- `r -. a` overflows only if `b` has the largest finite magnitude: `r - a` is within half the greatest unit of `b`. -/
theorem abs_value_eq_maxFinite_of_overflow (finiteA : isFinite a = true) (finiteB : isFinite b = true)
    (finiteR : isFinite (fadd a b) = true) (overflow : isFinite (fsub (fadd a b) a) = false) :
    |value b| = maxFinite k := by
  have hr := isRounded_fadd finiteA finiteB finiteR
  obtain ⟨_, past⟩ := overflow_of_fsub finiteR finiteA overflow
  obtain ⟨hle, _⟩ := abs_value_le_maxFinite finiteB
  generalize fadd a b = r at *
  have hunit : (2 : ℚ) ^ unitExp r ≤ 2 ^ unitMax k := zpow_le_zpow_right₀ one_le_two (unitExp_le_unitMax finiteR)
  have htri : |value r - value a| ≤ |value r - (value a + value b)| + |value b| := by
    calc |value r - value a| = |(value r - (value a + value b)) + value b| := by congr 1; ring
      _ ≤ _ := abs_add_le _ _
  linarith [hr.half]

/-- Settles O58: by the first operation that overflows, `r` or `r -. a`, or exactly if neither does. -/
theorem twoSumOfFiniteOperands : Obligations.TwoSumOfFiniteOperands := by
  intro k a b finiteA finiteB r v
  refine ⟨rfl, fun overflow => ?_, fun finiteR overflow => ?_, twoSum_exact finiteA finiteB⟩
  · obtain ⟨infinite, _⟩ := overflow_of_fadd finiteA finiteB overflow
    exact ⟨infinite, twoSum_lo_of_isInfinity_sum finiteA infinite⟩
  · obtain ⟨infinite, _⟩ := overflow_of_fsub finiteR finiteA overflow
    exact ⟨abs_value_eq_maxFinite_of_overflow finiteA finiteB finiteR overflow,
      twoSum_lo_of_isInfinity_difference finiteA finiteB finiteR infinite⟩

/-- Settles O46: below the largest finite magnitude of `b` nothing overflows. -/
theorem twoSumIsExact : Obligations.TwoSumIsExact := by
  intro k a b finiteA finiteB finiteR below
  have finiteV : isFinite (fsub (fadd a b) a) = true := by
    by_contra overflow
    rw [Bool.not_eq_true] at overflow
    exact below.ne (abs_value_eq_maxFinite_of_overflow finiteA finiteB finiteR overflow)
  obtain ⟨finiteE, hexact, _⟩ := twoSum_exact finiteA finiteB finiteR finiteV
  exact ⟨rfl, finiteE, hexact⟩

/-- Refutes O47: with `b` the largest finite number, `r` of these operands is finite and `r -. a` overflows, so that the
error term is a NaN. -/
theorem not_twoSumIsExactForAllFiniteOperands : ¬ Obligations.TwoSumIsExactForAllFiniteOperands := by
  intro h
  obtain ⟨finite, _⟩ := h .f32 0xF3C00000#32 0x7F7FFFFF#32 (by decide) (by decide) (by decide +kernel)
  have nan : (twoSum (k := .f32) 0xF3C00000#32 0x7F7FFFFF#32).lo = qnan .f32 := by decide +kernel
  rw [nan] at finite
  exact absurd finite (by decide)

/-! ## Special operands -/

/-- Adding the negation gives `+0` (R104). -/
theorem fadd_fneg_of_isFinite (finite : isFinite a = true) : fadd a (fneg a) = zero k false := by
  obtain ⟨nan, inf⟩ := not_nan_inf_of_isFinite finite
  simp [fadd, nan, inf]

theorem fsub_self_of_isFinite (finite : isFinite a = true) : fsub a a = zero k false := by
  obtain ⟨nan, _⟩ := not_nan_inf_of_isFinite finite
  rw [fsub_eq_fadd nan nan, fadd_fneg_of_isFinite finite]

/-- A zero added to a nonzero finite word leaves it. -/
theorem zero_fadd (n : Bool) (finite : isFinite a = true) (nonzero : isZero a = false) : fadd (zero k n) a = a := by
  obtain ⟨_, hzero, finiteZero, _⟩ := zero_spec k n
  have hsum : value (zero k n) + value a = value a := by rw [(value_eq_zero_iff _).mpr hzero, zero_add]
  have ha : value a ≠ 0 := abs_pos.mp (abs_value_pos nonzero)
  rw [fadd_eq_rn finiteZero finite (by rwa [hsum]), hsum]
  exact roundingFixesRepresentable k a finite nonzero

theorem zero_fsub (n : Bool) (finite : isFinite a = true) (nonzero : isZero a = false) :
    fsub (zero k n) a = fneg a := by
  obtain ⟨_, _, _, _, nanZ⟩ := zero_spec k n
  obtain ⟨nan, _⟩ := not_nan_inf_of_isFinite finite
  rw [fsub_eq_fadd nanZ nan, zero_fadd n (by rwa [isFinite_fneg]) (by rwa [isZero_fneg])]

theorem fneg_zero (k : Kind) (n : Bool) : fneg (zero k n) = zero k !n := by
  cases k <;> cases n <;> decide

/-- The sum of two zeros is `-0` only if both are (R104). -/
theorem fadd_zeros (m n : Bool) : fadd (zero k m) (zero k n) = zero k (m && n) := by
  obtain ⟨signM, zeroM, _, infM, nanM⟩ := zero_spec k m
  obtain ⟨signN, zeroN, _, infN, nanN⟩ := zero_spec k n
  have hm := (value_eq_zero_iff _).mpr zeroM
  have hn := (value_eq_zero_iff _).mpr zeroN
  cases m <;> cases n <;> simp [fadd, signM, zeroM, infM, nanM, signN, zeroN, infN, nanN, hm, hn]

theorem fsub_zeros (m n : Bool) : fsub (zero k m) (zero k n) = zero k (m && !n) := by
  obtain ⟨_, _, _, _, nanM⟩ := zero_spec k m
  obtain ⟨_, _, _, _, nanN⟩ := zero_spec k n
  rw [fsub_eq_fadd nanM nanN, fneg_zero, fadd_zeros]

theorem twoSum_eq_mk {r e : Word k} (hi : fadd a b = r) (lo : (twoSum a b).lo = e) : twoSum a b = ⟨r, e⟩ := by
  rw [← hi, ← lo]
  rfl

/-- A NaN operand gives two canonical NaNs (R144 (c)). -/
theorem twoSum_of_isNan (h : isNan a = true ∨ isNan b = true) : twoSum a b = ⟨qnan k, qnan k⟩ := by
  have hi : fadd a b = qnan k := fadd_of_isNan h
  refine twoSum_eq_mk hi (twoSum_lo_of_isNan_difference ?_)
  rw [hi, fsub_of_isNan (.inl (isNan_qnan k)), isNan_qnan]

/-- An infinite first operand that is the sum: `v` is `a -. a`, a NaN (R144 (d)). -/
theorem twoSum_of_isInfinity_left (infinite : isInfinity a = true) (hi : fadd a b = a) : twoSum a b = ⟨a, qnan k⟩ := by
  refine twoSum_eq_mk hi (twoSum_lo_of_isNan_difference ?_)
  rw [hi, fsub_self_of_isInfinity infinite, isNan_qnan]

/-- An infinite second operand (R144 (d)). -/
theorem twoSum_of_isInfinity_right (finite : isFinite a = true) (infinite : isInfinity b = true) :
    twoSum a b = ⟨b, qnan k⟩ := by
  have hi : fadd a b = b := fadd_of_isInfinity_right finite infinite
  exact twoSum_eq_mk hi (twoSum_lo_of_isInfinity_sum finite (by rwa [hi]))

/-- Infinities of unlike sign (R144 (d)). -/
theorem twoSum_fneg_of_isInfinity (infinite : isInfinity a = true) : twoSum a (fneg a) = ⟨qnan k, qnan k⟩ := by
  have hi : fadd a (fneg a) = qnan k := fadd_fneg_of_isInfinity infinite
  refine twoSum_eq_mk hi (twoSum_lo_of_isNan_difference ?_)
  rw [hi, fsub_of_isNan (.inl (isNan_qnan k)), isNan_qnan]

/-- A nonzero finite word and its negation: `v = -a`, so that `t1 = a` and the error terms cancel (R144 (e)). -/
theorem twoSum_fneg_of_isFinite (finite : isFinite a = true) (nonzero : isZero a = false) :
    twoSum a (fneg a) = ⟨zero k false, zero k false⟩ := by
  have finiteNeg : isFinite (fneg a) = true := by rwa [isFinite_fneg]
  have nonzeroNeg : isZero (fneg a) = false := by rwa [isZero_fneg]
  have hi : fadd a (fneg a) = zero k false := fadd_fneg_of_isFinite finite
  refine twoSum_eq_mk hi ?_
  rw [twoSum_lo, hi, zero_fsub false finite nonzero, zero_fsub false finiteNeg nonzeroNeg, fneg_fneg,
    fsub_self_of_isFinite finite, fsub_self_of_isFinite finiteNeg, fadd_zeros, Bool.and_self]

/-- Two zeros (R144 (e)). -/
theorem twoSum_zeros (m n : Bool) : twoSum (zero k m) (zero k n) = ⟨zero k (m && n), zero k false⟩ := by
  refine twoSum_eq_mk (fadd_zeros m n) ?_
  simp only [twoSum_lo, fadd_zeros, fsub_zeros]
  cases m <;> cases n <;> rfl

/-- Settles O50: each clause by the lemma of its operands. -/
theorem twoSumSpecialOperands : Obligations.TwoSumSpecialOperands := fun _ _ _ =>
  ⟨twoSum_of_isNan, fun infinite finite => twoSum_of_isInfinity_left infinite (fadd_of_isInfinity_left infinite finite),
    twoSum_of_isInfinity_right, fun infinite =>
      ⟨twoSum_of_isInfinity_left infinite (fadd_self_of_isInfinity infinite), twoSum_fneg_of_isInfinity infinite⟩,
    twoSum_fneg_of_isFinite, twoSum_zeros⟩

end Sys2Proof.Machine
end

section
/-! PROOF. The two-product on the path of the fused multiply-add (40_primitives_and_split.md R109;
41_error_free_transforms.md R141, R146 (a)). -/

namespace Sys2Proof.Machine

variable {k : Kind} {a b : Word k}

/-- `a * b + c` of finite words that some finite word has is not changed by rounding (R109). -/
theorem fma_of_representable {c : Word k} (finiteA : isFinite a = true) (finiteB : isFinite b = true)
    (finiteC : isFinite c = true) (h : Representable k (value a * value b + value c)) :
    isFinite (fma a b c) = true ∧ value (fma a b c) = value a * value b + value c := by
  obtain ⟨nanA, infA⟩ := not_nan_inf_of_isFinite finiteA
  obtain ⟨nanB, infB⟩ := not_nan_inf_of_isFinite finiteB
  obtain ⟨nanC, infC⟩ := not_nan_inf_of_isFinite finiteC
  have hfma : fma a b c = if value a * value b + value c ≠ 0 then rn k (value a * value b + value c)
      else if (isZero a || isZero b) && isZero c && (signBit a ^^ signBit b) == signBit c then c else zero k false := by
    simp [fma, nanA, nanB, nanC, infA, infB, infC]
  rw [hfma]
  split
  next nonzero => exact rn_of_representable nonzero h
  next cancel =>
    rw [not_ne_iff.mp cancel]
    split
    next zeros =>
      have zeroC : isZero c = true := by simp_all
      exact ⟨finiteC, (value_eq_zero_iff c).mpr zeroC⟩
    next =>
      obtain ⟨_, hzero, finite, _⟩ := zero_spec k false
      exact ⟨finite, (value_eq_zero_iff _).mpr hzero⟩

/-- The error term on the path of the fused operation (R141). -/
theorem twoProd_true (a b : Word k) : twoProd true a b = ⟨fmul a b, fma a b (fneg (fmul a b))⟩ := rfl

/-- Settles O49: the fused operation computes the error of the product, which a finite word has (R146 (a)). -/
theorem fusedProductErrorIsExact : Obligations.FusedProductErrorIsExact := by
  intro k a b w finiteA finiteB finiteR finiteW hw
  have error : value a * value b + value (fneg (fmul a b)) = value a * value b - value (fmul a b) := by
    rw [value_fneg, sub_eq_add_neg]
  obtain ⟨finiteE, valueE⟩ := fma_of_representable finiteA finiteB (by rwa [isFinite_fneg])
    ⟨w, finiteW, hw.trans error.symm⟩
  rw [twoProd_true]
  exact ⟨finiteE, by rw [valueE, error, add_sub_cancel]⟩

end Sys2Proof.Machine
end

section
/-! PROOF. The commands of the error-free transforms (41_error_free_transforms.md R140 to R143; 43_doubled_muldiv.md
R195): each completes at every legal shape, and every lane holds the words of its rule. -/

namespace Sys2Proof.Machine

/-- A command whose meaning completes it with the doubled results `f` completes with any results that are the same lane
by lane (R25, R250). -/
theorem completesDoubled_of_exec {i : Instr} {s : State} {sh : Shape} {f g : ℕ → Doubled sh.kind}
    (legal : sh.legal = true) (h : exec i s = .next (completeDoubled sh f s)) (same : ∀ j, f j = g j) :
    CompletesDoubled i s sh g := by
  obtain rfl : f = g := funext same
  obtain ⟨rHi, rLo, response, lanes, above⟩ := doubledResponse_spec legal f
  refine ⟨rHi, rLo, ?_, ⟨fun j hj => (lanes j hj).1, fun b hb => (above b hb).1⟩,
    ⟨fun j hj => (lanes j hj).2, fun b hb => (above b hb).2⟩⟩
  rw [h, completeDoubled_legal legal, response]
  rfl

/-- Settles O30: the meaning of `ADD.SS` is the two-sum of the lanes, the six operations as R140 writes them. -/
theorem addSSCompletes : Obligations.AddSSCompletes := by
  intro sh s c legal inFlight
  rw [← current_of_inFlight inFlight]
  exact completesDoubled_of_exec legal rfl fun _ => rfl

/-- Settles O35: the meaning of `MUL.SS` is the two-product of the lanes, on the path that the build has (R141). -/
theorem mulSSCompletes : Obligations.MulSSCompletes := by
  intro sh s c legal inFlight
  rw [← current_of_inFlight inFlight]
  exact completesDoubled_of_exec legal rfl fun _ => rfl

/-- The two paths of `RECIP.S` (R142). -/
theorem recipS_eq {k : Kind} (hasFma : Bool) (d : Word k) :
    recipS hasFma d =
      if hasFma then ⟨recipSeed d, fmul (recipSeed d) (fma (fneg d) (recipSeed d) (one k))⟩
      else ⟨recipSeed d, fmul (recipSeed d) (splitResidual d (recipSeed d))⟩ := by
  cases hasFma <;> rfl

/-- The two paths of `RECIP.D` (R195). -/
theorem recipD_eq {k : Kind} (hasFma : Bool) (d : Doubled k) :
    recipD hasFma d =
      if hasFma then
        ⟨recipSeed d.hi, fmul (recipSeed d.hi)
          (fma (fneg d.lo) (recipSeed d.hi) (fma (fneg d.hi) (recipSeed d.hi) (one k)))⟩
      else
        ⟨recipSeed d.hi, fmul (recipSeed d.hi)
          (fsub (splitResidual d.hi (recipSeed d.hi)) (fmul d.lo (recipSeed d.hi)))⟩ := by
  cases hasFma <;> rfl

/-- Settles O39: the meanings of `RECIP.S` and `RECIP.D`, on the path that the build has (R142, R195). -/
theorem recipComplete : Obligations.RecipComplete := by
  intro sh s c legal inFlight
  rw [← current_of_inFlight inFlight]
  exact ⟨completesDoubled_of_exec legal rfl fun _ => recipS_eq _ _,
    completesDoubled_of_exec legal rfl fun _ => recipD_eq _ _⟩

end Sys2Proof.Machine
end

section
/-! PROOF. The commands of doubled addition and subtraction (42_doubled_addsub.md R160 to R174): each completes at every
legal shape with the words of its rule in every lane; NARROW after WIDEN (R167); and the difference of a finite value with
itself, unchecked (R174) and checked (44_checked_addition.md R231). -/

namespace Sys2Proof.Machine

variable {k : Kind}

/-! ## The rules that are no rounded arithmetic, lane by lane -/

/-- `+0` is the all-zero word (R160). -/
theorem zero_false_eq (k : Kind) : zero k false = 0#k.width := by cases k <;> rfl

/-- Bit `W-1` is the sign (R100). -/
theorem getLsbD_signBit (a : Word k) : a.getLsbD (k.width - 1) = signBit a :=
  (BitVec.msb_eq_getLsbD_last a).symm

/-- The leading sign bit in its place, which `ABS` XORs into both components (R164). -/
theorem and_signMask (a : Word k) : a &&& signMask k = if signBit a then signMask k else 0#k.width := by
  have single : signMask k = BitVec.twoPow k.width (k.width - 1) := by cases k <;> rfl
  rw [single, BitVec.and_twoPow, getLsbD_signBit]

/-- `ABS` negates the pair or leaves it, by the leading sign bit (R164). -/
theorem absDoubled_eq (x : Doubled k) : absDoubled x = if signBit x.hi then negDoubled x else x := by
  rw [absDoubled, and_signMask]
  split
  · rfl
  · rw [BitVec.xor_zero, BitVec.xor_zero]

/-! ## The commands -/

/-- Settles O26: the meanings copy words, but for the one addition of `NARROW` (R160, R161, R162). -/
theorem widenNarrowPackComplete : Obligations.WidenNarrowPackComplete := by
  intro sh s c legal inFlight
  rw [← current_of_inFlight inFlight]
  refine ⟨completesDoubled_of_exec legal rfl fun j => ?_, completesPlain_of_exec legal rfl,
    completesDoubled_of_exec legal rfl fun _ => rfl⟩
  rw [zero_false_eq]
  rfl

/-- Settles O27: `NEG` flips both sign bits (R163), and `ABS` is `NEG` or nothing (R164). -/
theorem negAbsComplete : Obligations.NegAbsComplete := by
  intro sh s c legal inFlight
  rw [← current_of_inFlight inFlight]
  refine ⟨completesDoubled_of_exec legal rfl fun _ => rfl, completesDoubled_of_exec legal rfl fun j => ?_⟩
  simp only [getLsbD_signBit]
  exact absDoubled_eq _

/-- Settles O28: `NORM` is the two-sum of the components (R165), `SCALE` two products (R166). -/
theorem normScaleComplete : Obligations.NormScaleComplete := by
  intro sh s c legal inFlight
  rw [← current_of_inFlight inFlight]
  exact ⟨completesDoubled_of_exec legal rfl fun _ => rfl, completesDoubled_of_exec legal rfl fun _ => rfl⟩

/-- Settles O31: the two-sum of the leading components, the trailing ones added into its error term (R170 to R172). -/
theorem addDoubledComplete : Obligations.AddDoubledComplete := by
  intro sh s c legal inFlight
  rw [← current_of_inFlight inFlight]
  exact ⟨completesDoubled_of_exec legal rfl fun _ => rfl, completesDoubled_of_exec legal rfl fun _ => rfl,
    completesDoubled_of_exec legal rfl fun _ => rfl⟩

/-- Settles O32: the additions of the second operand with its sign bits flipped (R173, R174). -/
theorem subDoubledComplete : Obligations.SubDoubledComplete := by
  intro sh s c legal inFlight
  rw [← current_of_inFlight inFlight]
  exact ⟨completesDoubled_of_exec legal rfl fun _ => rfl, completesDoubled_of_exec legal rfl fun _ => rfl⟩

/-! ## Adding a zero to a word -/

theorem fadd_zero (n : Bool) {a : Word k} (finite : isFinite a = true) (nonzero : isZero a = false) :
    fadd a (zero k n) = a := by
  obtain ⟨_, hzero, finiteZero, _⟩ := zero_spec k n
  have hsum : value a + value (zero k n) ≠ 0 := by
    rw [(value_eq_zero_iff _).mpr hzero, add_zero]
    exact abs_pos.mp (abs_value_pos nonzero)
  rw [fadd_eq_rn finite finiteZero hsum, add_comm, ← fadd_eq_rn finiteZero finite (by rwa [add_comm]),
    zero_fadd n finite nonzero]

/-- Adding `+0` changes `-0` and the NaNs and no other word (R104). -/
theorem fadd_zero_false (a : Word k) :
    fadd a (zero k false) = if isNan a then qnan k else if isZero a then zero k false else a := by
  obtain ⟨_, _, finiteZero, _⟩ := zero_spec k false
  rcases class_cases a with ⟨finite, _, noNan⟩ | ⟨notFinite, infinite, noNan⟩ | ⟨_, _, nan⟩
  · rw [noNan, if_neg Bool.false_ne_true]
    split
    next zeroA => rw [eq_zero_of_isZero zeroA, fadd_zeros, Bool.and_false]
    next nonzero => exact fadd_zero false finite (by simpa using nonzero)
  · have nonzero : isZero a ≠ true := fun zeroA => by simp [isFinite_of_isZero zeroA] at notFinite
    rw [noNan, if_neg Bool.false_ne_true, if_neg nonzero, fadd_of_isInfinity_left infinite finiteZero]
  · rw [fadd_of_isNan (.inl nan), if_pos nan]

/-! ## `NARROW` after `WIDEN` -/

/-- The response of an engine to a well-formed command is the one that its meaning answers with. -/
theorem responseTo_commandOf_of_exec {bld : Build} {i : Instr} {a b : HostValue} {rHi rLo : Port}
    (wellFormed : i.wellFormed = true)
    (e : exec i (issued bld i a b) = .next (answeredWith (issued bld i a b) (.ok rHi rLo))) :
    responseTo bld (commandOf i a b) = some (.ok rHi rLo) :=
  responseTo_of_step ((step_presented_commandOf wellFormed bld a b).trans e)

/-- Settles O51: `NARROW` adds the `+0` that `WIDEN` wrote to the word (R167). -/
theorem widenNarrowRoundTrip : Obligations.WidenNarrowRoundTrip := by
  intro bld sh a b legal
  obtain ⟨⟨wHi, wLo, widened, ⟨hiLanes, _⟩, ⟨loLanes, _⟩⟩, _⟩ :=
    widenNarrowPackComplete sh (issued bld (.widen sh) a b) (commandOf (.widen sh) a b) legal rfl
  obtain ⟨_, ⟨nHi, narrowed, lanes, above⟩, _⟩ :=
    widenNarrowPackComplete sh (issued bld (.narrow sh) ⟨wHi, wLo⟩ b) (commandOf (.narrow sh) ⟨wHi, wLo⟩ b) legal rfl
  refine ⟨wHi, wLo, nHi, responseTo_commandOf_of_exec legal widened, responseTo_commandOf_of_exec legal narrowed,
    fun j hj => ?_, above⟩
  have hi : lane sh.kind wHi j = lane sh.kind a.hi j := hiLanes j hj
  have lo : lane sh.kind wLo j = zero sh.kind false := (loLanes j hj).trans (zero_false_eq _).symm
  calc lane sh.kind nHi j
    _ = fadd (lane sh.kind wHi j) (lane sh.kind wLo j) := lanes j hj
    _ = fadd (lane sh.kind a.hi j) (zero sh.kind false) := by rw [hi, lo]
    _ = _ := fadd_zero_false _

/-! ## The difference of a value with itself -/

theorem fsub_zero_false {a : Word k} (finite : isFinite a = true) : fsub a (zero k false) = a := by
  cases h : isZero a
  case false =>
    obtain ⟨nan, _⟩ := not_nan_inf_of_isFinite finite
    obtain ⟨_, _, _, _, nanZ⟩ := zero_spec k false
    rw [fsub_eq_fadd nan nanZ, fneg_zero, fadd_zero _ finite h]
  case true => rw [eq_zero_of_isZero h, fsub_zeros, Bool.not_false, Bool.and_true]

/-- The two-sum of a finite word and its negation, zeros included (R144 (e)). -/
theorem twoSum_fneg_self {a : Word k} (finite : isFinite a = true) :
    twoSum a (fneg a) = ⟨zero k false, zero k false⟩ := by
  cases h : isZero a
  case false => exact twoSum_fneg_of_isFinite finite h
  case true => rw [eq_zero_of_isZero h, fneg_zero, twoSum_zeros, Bool.and_not_self]

/-- A finite word added to `+0` and taken away again leaves `+0`, of either zero too (R104). -/
theorem zero_fadd_fadd_fneg {a : Word k} (finite : isFinite a = true) :
    fadd (fadd (zero k false) a) (fneg a) = zero k false := by
  cases h : isZero a
  case false => rw [zero_fadd false finite h, fadd_fneg_of_isFinite finite]
  case true => rw [eq_zero_of_isZero h, fneg_zero, fadd_zeros, fadd_zeros, Bool.false_and, Bool.false_and]

section Difference

variable {x : Doubled k} (finiteHi : isFinite x.hi = true) (finiteLo : isFinite x.lo = true)
include finiteHi finiteLo

theorem addDD_negDoubled : addDD x (negDoubled x) = ⟨zero k false, zero k false⟩ := by
  simp only [addDD, negDoubled, twoSum_fneg_self finiteHi, fadd_fneg_of_isFinite finiteLo, fadd_zeros, Bool.and_self]

/-- The sum is `+0`, and so are the three additions to the error term in turn (R229). -/
theorem addcDD_negDoubled : addcDD x (negDoubled x) = ⟨zero k false, zero k false⟩ := by
  simp only [addcDD, negDoubled, fadd_fneg_of_isFinite finiteHi, fsub_zero_false finiteHi,
    zero_fadd_fadd_fneg finiteLo]

end Difference

theorem fabs_fneg (a : Word k) : fabs (fneg a) = fabs a := by
  rw [fabs_eq, fabs_eq, signBit_fneg, fneg_fneg]
  cases signBit a <;> rfl

theorem isNan_fabs (a : Word k) : isNan (fabs a) = isNan a := by
  obtain ⟨_, he, ht⟩ := fields_fabs a
  rw [isNan, isNan, he, ht]

/-- The check does not fail on equal magnitudes (R222). -/
theorem orderOk_fneg_self {a : Word k} (finite : isFinite a = true) : orderOk a (fneg a) = true := by
  obtain ⟨nan, _⟩ := not_nan_inf_of_isFinite finite
  have equal : fge (fabs a) (fabs (fneg a)) = true := by
    rw [fabs_fneg, fge]
    exact fle_self ((isNan_fabs a).trans nan)
  simp [orderOk, equal]

theorem packLanes_zero (k : Kind) (n : Nat) : packLanes k n (fun _ => zero k false) = 0 := by
  induction n with
  | zero => rfl
  | succ n ih =>
    rw [packLanes, ih, zero_false_eq]
    simp

/-- A doubled command whose every lane is `(+0, +0)` answers with zero ports. -/
theorem completeDoubled_zeros {sh : Shape} {f : Nat → Doubled sh.kind} (legal : sh.legal = true)
    (zeros : ∀ j, j < sh.lanes.count → f j = ⟨zero sh.kind false, zero sh.kind false⟩) (s : State) :
    completeDoubled sh f s = answeredWith s (.ok 0 0) := by
  have hi := packLanes_congr fun j hj => congrArg Doubled.hi (zeros j hj)
  have lo := packLanes_congr fun j hj => congrArg Doubled.lo (zeros j hj)
  rw [completeDoubled_legal legal, doubledResponse, hi, lo, packLanes_zero]
  rfl

/-- A checked command whose compared words are in order completes (R224). -/
theorem completeChecked_of_orderOk {sh : Shape} {a b : Word sh.kind} (ok : orderOk a b = true)
    (f : Nat → Doubled sh.kind) (s : State) : completeChecked sh a b f s = completeDoubled sh f s := by
  rcases completeChecked_cases sh a b f s with ⟨violated, _⟩ | ⟨_, completed⟩
  · exact absurd (violated.symm.trans ok) Bool.false_ne_true
  · exact completed

/-- Settles O53: every lane is `(+0, +0)`, and the leading words of lane 0 are of one magnitude. -/
theorem differenceWithItselfIsZero : Obligations.DifferenceWithItselfIsZero := by
  intro sh s c legal inFlight sameHi sameLo finite
  rw [← current_of_inFlight inFlight] at sameHi sameLo finite
  have same : ∀ j, doubledB sh.kind s j = doubledA sh.kind s j := fun j => by
    rw [doubledB, doubledA, sameHi, sameLo]
  have ordered : orderOk (doubledA sh.kind s 0).hi (negDoubled (doubledB sh.kind s 0)).hi = true := by
    obtain ⟨finiteHi, _⟩ := finite 0 (lanes_count_pos _)
    rw [same]
    exact orderOk_fneg_self finiteHi
  refine ⟨congrArg _ (completeDoubled_zeros legal (fun j hj => ?_) s),
    congrArg _ ((completeChecked_of_orderOk ordered _ s).trans (completeDoubled_zeros legal (fun j hj => ?_) s))⟩
  all_goals
    obtain ⟨finiteHi, finiteLo⟩ := finite j hj
    rw [same]
  · exact addDD_negDoubled finiteHi finiteLo
  · exact addcDD_negDoubled finiteHi finiteLo

end Sys2Proof.Machine
end

section
/-! PROOF. The commands of doubled multiplication, division and square root (43_doubled_muldiv.md R190 to R194, R196,
R197): each completes at every legal shape, and every lane holds the words of its rule on the path that the build has. -/

namespace Sys2Proof.Machine

/-- Settles O36: the leading product and its correction, the two trailing products of `MUL.DD` in the order of the path
(R190, R191). -/
theorem mulDoubledComplete : Obligations.MulDoubledComplete := by
  intro sh s c legal inFlight
  rw [← current_of_inFlight inFlight]
  exact ⟨completesDoubled_of_exec legal rfl fun _ => rfl, completesDoubled_of_exec legal rfl fun _ => rfl⟩

/-- Settles O37: the terms summed from the smallest to the largest, with `R.lo` zero (R192, R194). -/
theorem plainProductsComplete : Obligations.PlainProductsComplete := by
  intro sh s c legal inFlight
  rw [← current_of_inFlight inFlight]
  exact ⟨completesPlain_of_exec legal rfl, completesPlain_of_exec legal rfl⟩

/-- Settles O38: the square of the leading component and its correction (R193). -/
theorem squDCompletes : Obligations.SquDCompletes := by
  intro sh s c legal inFlight
  rw [← current_of_inFlight inFlight]
  exact completesDoubled_of_exec legal rfl fun _ => rfl

/-- Settles O40: the quotient by the reciprocal seed and its correction on each path (R196). -/
theorem divDDCompletes : Obligations.DivDDCompletes := by
  intro sh s c legal inFlight
  rw [← current_of_inFlight inFlight]
  exact completesDoubled_of_exec legal rfl fun _ => rfl

/-- Settles O41: the unchecked addition of R197 is the two-sum of the leading components with the trailing ones added
into its error term, as `ADD.DD` has it (R172). -/
theorem sqrtDCompletes : Obligations.SqrtDCompletes := by
  intro sh s c legal inFlight
  rw [← current_of_inFlight inFlight]
  exact completesDoubled_of_exec legal rfl fun _ => rfl

end Sys2Proof.Machine
end

section
/-! PROOF. RECIP.D of a pair with trailing +0 (43_doubled_muldiv.md R195). Its correction differs from that of RECIP.S
(41_error_free_transforms.md R142) by one more operation, with a zero product. That operation leaves every word but
a NaN and `-0`, and the residual `1 - d * t` is `-0` on neither path: no sum or difference that starts from a word other than
`-0` ends in it, for a nonzero sum of numbers of the format does not round to a zero. -/

namespace Sys2Proof.Machine

variable {k : Kind} {a b c d t u v : Word k}

/-! ## A zero comes only from a zero -/

/-- A nonzero multiple of the least unit is no smaller than that unit, and does not round to a zero (R102). -/
theorem isZero_rn_of_mem_grid {q : ℚ} (nonzero : q ≠ 0) (mem : q ∈ grid (unitMin k)) : isZero (rn k q) = false := by
  by_contra h
  have zeroR : isZero (rn k q) = true := by simpa using h
  have hunit : (0 : ℚ) < 2 ^ unitMin k := by positivity
  have exponent : unitExp (rn k q) = unitMin k := by
    obtain ⟨_, _, _, unit⟩ := subnormal_ofFields (k := k) (neg := signBit (rn k q)) (Nat.two_pow_pos (prec k - 1))
    rwa [eq_zero_of_isZero zeroR]
  obtain ⟨n, habs⟩ := exists_abs_eq_of_mem_grid mem
  have hn : (1 : ℚ) ≤ n := by
    refine Nat.one_le_cast.mpr (Nat.one_le_iff_ne_zero.mpr fun hn => nonzero ?_)
    rwa [hn, Nat.cast_zero, zero_mul, abs_eq_zero] at habs
  have half := (isRounded_rn nonzero (isFinite_of_isZero zeroR)).half
  rw [(value_eq_zero_iff _).mpr zeroR, zero_sub, abs_neg, habs, exponent] at half
  nlinarith

theorem value_mem_grid_unitMin (a : Word k) : value a ∈ grid (unitMin k) :=
  grid_le_grid (unitMin_le_unitExp a) (value_mem_grid a)

theorem ne_zero_of_isZero_eq_false {n : Bool} (h : isZero a = false) : a ≠ zero k n := by
  obtain ⟨_, zeroN, _⟩ := zero_spec k n
  rintro rfl
  exact Bool.false_ne_true (h.symm.trans zeroN)

theorem ne_zero_of_isInfinity {n : Bool} (h : isInfinity a = true) : a ≠ zero k n := by
  obtain ⟨_, _, _, infN, _⟩ := zero_spec k n
  rintro rfl
  exact Bool.false_ne_true (infN.symm.trans h)

theorem qnan_ne_zero (k : Kind) (n : Bool) : qnan k ≠ zero k n := by cases k <;> cases n <;> decide

theorem zero_false_ne_zero_true (k : Kind) : zero k false ≠ zero k true := by cases k <;> decide

theorem one_ne_zero_true (k : Kind) : one k ≠ zero k true := by cases k <;> decide

/-- A sum is `-0` only if the first operand is (R104). -/
theorem fadd_ne_zero_true (h : a ≠ zero k true) : fadd a b ≠ zero k true := by
  rw [fadd]
  split
  · exact qnan_ne_zero k true
  split
  · split
    · exact qnan_ne_zero k true
    · exact h
  split
  next infinite => exact ne_zero_of_isInfinity infinite
  extract_lets q
  split
  next nonzero =>
    exact ne_zero_of_isZero_eq_false
      (isZero_rn_of_mem_grid nonzero (add_mem (value_mem_grid_unitMin a) (value_mem_grid_unitMin b)))
  split
  · exact h
  · exact zero_false_ne_zero_true k

theorem fsub_ne_zero_true (h : a ≠ zero k true) : fsub a b ≠ zero k true := by
  rw [fsub]
  split
  · exact qnan_ne_zero k true
  · exact fadd_ne_zero_true h

theorem isFinite_of_not_nan_inf (nan : isNan a = false) (inf : isInfinity a = false) : isFinite a = true := by
  rcases class_cases a with ⟨finite, _⟩ | ⟨_, infinite, _⟩ | ⟨_, _, isNanA⟩
  · exact finite
  · exact absurd (inf.symm.trans infinite) Bool.false_ne_true
  · exact absurd (nan.symm.trans isNanA) Bool.false_ne_true

/-- A fused operation is `-0` only if the addend is, or if the exact result is no multiple of the least unit (R109). -/
theorem fma_ne_zero_true (h : c ≠ zero k true)
    (mem : isFinite a = true → isFinite b = true → value a * value b ∈ grid (unitMin k)) :
    fma a b c ≠ zero k true := by
  rw [fma]
  split
  · exact qnan_ne_zero k true
  next noNan =>
  extract_lets sp q
  split
  · split
    · exact qnan_ne_zero k true
    · obtain ⟨_, infinite, _⟩ := infinity_spec k sp
      exact ne_zero_of_isInfinity infinite
  next noInf =>
  split
  · exact h
  split
  next nonzero =>
    simp only [Bool.or_eq_true, not_or, Bool.not_eq_true] at noNan noInf
    obtain ⟨⟨nanA, nanB⟩, _⟩ := noNan
    obtain ⟨infA, infB⟩ := noInf
    have product := mem (isFinite_of_not_nan_inf nanA infA) (isFinite_of_not_nan_inf nanB infB)
    exact ne_zero_of_isZero_eq_false (isZero_rn_of_mem_grid nonzero (add_mem product (value_mem_grid_unitMin c)))
  split
  · exact h
  · exact zero_false_ne_zero_true k

/-! ## The residual of the reciprocal -/

/-- The four subtractions start from `1` (R142). -/
theorem splitResidual_ne_zero_true (d t : Word k) : splitResidual d t ≠ zero k true :=
  fsub_ne_zero_true (fsub_ne_zero_true (fsub_ne_zero_true (fsub_ne_zero_true (one_ne_zero_true k))))

theorem mul_mem_grid {x y : ℚ} {g h : ℤ} (hx : x ∈ grid g) (hy : y ∈ grid h) : x * y ∈ grid (g + h) := by
  obtain ⟨N, rfl⟩ := mem_grid_iff.mp hx
  obtain ⟨M, rfl⟩ := mem_grid_iff.mp hy
  refine mem_grid_iff.mpr ⟨N * M, ?_⟩
  rw [zpow_add₀ two_ne_zero]
  push_cast
  ring

theorem value_one (k : Kind) : value (one k) = 1 := by cases k <;> decide +kernel

theorem one_spec (k : Kind) :
    signBit (one k) = false ∧ isZero (one k) = false ∧ isFinite (one k) = true ∧
      isInfinity (one k) = false ∧ isNan (one k) = false := by
  cases k <;> decide

/-- Division by a zero is no fault (R107). -/
theorem recipSeed_of_isZero (zeroD : isZero d = true) : recipSeed d = infinity k (signBit d) := by
  obtain ⟨nan, inf⟩ := not_nan_inf_of_isFinite (isFinite_of_isZero zeroD)
  obtain ⟨sign, zero1, _, inf1, nan1⟩ := one_spec k
  simp [recipSeed, fdiv, nan, inf, zeroD, sign, zero1, inf1, nan1]

theorem recipSeed_of_isFinite (finite : isFinite d = true) (nonzero : isZero d = false) :
    recipSeed d = rn k (1 / value d) := by
  obtain ⟨nan, inf⟩ := not_nan_inf_of_isFinite finite
  obtain ⟨_, zero1, _, inf1, nan1⟩ := one_spec k
  simp [recipSeed, fdiv, nan, inf, nonzero, zero1, inf1, nan1, value_one]

/-- The units of a divisor and of its seed are at most `2p - 1` places below `1` together, since `1` is the product of
the divisor and the quotient; the least unit of either format is lower than that. -/
theorem unitMin_le_unitExp_add_unitExp_recipSeed (finite : isFinite d = true) (nonzero : isZero d = false)
    (finiteT : isFinite (recipSeed d) = true) : unitMin k ≤ unitExp d + unitExp (recipSeed d) := by
  have hd : value d ≠ 0 := abs_pos.mp (abs_value_pos nonzero)
  have quotient : 1 / value d ≠ 0 := one_div_ne_zero hd
  rw [recipSeed_of_isFinite finite nonzero] at finiteT ⊢
  have hulp := ulpExp_le_unitExp_rn quotient finiteT
  obtain ⟨_, _, hlt⟩ := ulpExp_spec (k := k) (abs_pos.mpr quotient)
  have hformat : unitMin k ≤ 1 - 2 * (prec k : ℤ) := by cases k <;> decide
  have hone : (2 : ℚ) ^ (0 : ℤ) < 2 ^ (2 * (prec k : ℤ) + unitExp d + ulpExp k |1 / value d|) := by
    calc (2 : ℚ) ^ (0 : ℤ) = |value d| * |1 / value d| := by rw [← abs_mul, mul_one_div_cancel hd, abs_one, zpow_zero]
      _ < (2 ^ prec k * 2 ^ unitExp d) * (((2 ^ prec k : ℕ) : ℚ) * 2 ^ ulpExp k |1 / value d|) :=
        mul_lt_mul'' (abs_value_lt d) hlt (abs_nonneg _) (abs_nonneg _)
      _ = _ := by
        rw [zpow_add₀ two_ne_zero, zpow_add₀ two_ne_zero, two_mul, zpow_add₀ two_ne_zero, zpow_natCast]
        push_cast
        ring
  have := (zpow_lt_zpow_iff_right₀ (one_lt_two (α := ℚ))).mp hone
  omega

/-- The product of a divisor and its seed does not fall below the least unit. -/
theorem value_mul_recipSeed_mem_grid (finite : isFinite d = true) (finiteT : isFinite (recipSeed d) = true) :
    value d * value (recipSeed d) ∈ grid (unitMin k) := by
  have nonzero : isZero d = false := by
    by_contra h
    obtain ⟨_, _, infinite, _⟩ := infinity_spec k (signBit d)
    rw [recipSeed_of_isZero (by simpa using h), infinite] at finiteT
    exact Bool.false_ne_true finiteT
  exact grid_le_grid (unitMin_le_unitExp_add_unitExp_recipSeed finite nonzero finiteT)
    (mul_mem_grid (value_mem_grid d) (value_mem_grid _))

theorem fusedResidual_ne_zero_true (d : Word k) : fma (fneg d) (recipSeed d) (one k) ≠ zero k true := by
  refine fma_ne_zero_true (one_ne_zero_true k) fun finite finiteT => ?_
  rw [isFinite_fneg] at finite
  rw [value_fneg, neg_mul]
  exact neg_mem (value_mul_recipSeed_mem_grid finite finiteT)

/-! ## An infinite seed -/

theorem fmul_of_isNan (h : isNan a = true ∨ isNan b = true) : fmul a b = qnan k := by
  rcases h with h | h <;> simp [fmul, h]

theorem fma_of_isNan (h : isNan a = true ∨ isNan b = true ∨ isNan c = true) : fma a b c = qnan k := by
  rcases h with h | h | h <;> simp [fma, h]

/-- An infinity has no trailing bits for `upper` to clear. -/
theorem upper_of_isInfinity (infinite : isInfinity a = true) : upper a = a := by
  obtain ⟨sign, exponent, trailingUpper⟩ := fields_upper a
  have trailingZero : trailing a = 0 := by
    rw [isInfinity, Bool.and_eq_true, beq_iff_eq, beq_iff_eq] at infinite
    obtain ⟨_, trailingZero⟩ := infinite
    exact trailingZero
  exact eq_of_fields sign exponent (by rw [trailingUpper, trailingZero, Nat.zero_div, zero_mul])

/-- The trailing part of an infinite seed is `inf -. inf`, and the residual a NaN (R121, R142). -/
theorem isNan_splitResidual_of_isInfinity (infinite : isInfinity t = true) : isNan (splitResidual d t) = true := by
  have low : (split t).lo = qnan k := by
    rw [split, upper_of_isInfinity infinite]
    exact fsub_self_of_isInfinity infinite
  have last : fmul (split d).lo (split t).lo = qnan k := fmul_of_isNan (.inr (low ▸ isNan_qnan k))
  have residual : splitResidual d t = qnan k := fsub_of_isNan (.inr (last ▸ isNan_qnan k))
  rw [residual, isNan_qnan]

/-- The fused residual of a zero divisor is that of a zero times an infinity (R109). -/
theorem isNan_fusedResidual_of_isZero (zeroD : isZero d = true) :
    isNan (fma (fneg d) (recipSeed d) (one k)) = true := by
  obtain ⟨_, infinite, _, nan⟩ := infinity_spec k (signBit d)
  obtain ⟨nanD, _⟩ := not_nan_inf_of_isFinite (isFinite_of_isZero zeroD)
  obtain ⟨_, _, _, _, nan1⟩ := one_spec k
  rw [recipSeed_of_isZero zeroD]
  simp [fma, nan, nanD, nan1, infinite, zeroD, isNan_qnan]

/-! ## The operation with a zero product -/

theorem eq_zero_false_of_isZero (zeroA : isZero a = true) (h : a ≠ zero k true) : a = zero k false := by
  have ha := eq_zero_of_isZero zeroA
  cases hs : signBit a
  · rwa [hs] at ha
  · exact absurd (hs ▸ ha) h

theorem zero_fmul (n : Bool) (finite : isFinite t = true) : fmul (zero k n) t = zero k (n ^^ signBit t) := by
  obtain ⟨nan, inf⟩ := not_nan_inf_of_isFinite finite
  obtain ⟨signZ, zeroZ, _, infZ, nanZ⟩ := zero_spec k n
  simp [fmul, nan, inf, signZ, infZ, nanZ, (value_eq_zero_iff _).mpr zeroZ]

/-- A zero taken from a word leaves it, unless it is a NaN or `-0` (R105). -/
theorem fsub_zero (n : Bool) (nan : isNan a = false) (h : a ≠ zero k true) : fsub a (zero k n) = a := by
  obtain ⟨_, _, finiteZ, _, nanZ⟩ := zero_spec k n
  cases inf : isInfinity a
  case true => exact fsub_of_isInfinity_left inf finiteZ
  case false =>
    cases zeroA : isZero a
    case true => rw [eq_zero_false_of_isZero zeroA h, fsub_zeros, Bool.false_and]
    case false => rw [fsub_eq_fadd nan nanZ, fneg_zero, fadd_zero _ (isFinite_of_not_nan_inf nan inf) zeroA]

/-- A zero product fused into a word leaves it, unless it is a NaN or `-0` (R109). -/
theorem zero_fma (n : Bool) (finite : isFinite t = true) (nan : isNan a = false) (h : a ≠ zero k true) :
    fma (zero k n) t a = a := by
  obtain ⟨nanT, infT⟩ := not_nan_inf_of_isFinite finite
  obtain ⟨_, zeroZ, _, infZ, nanZ⟩ := zero_spec k n
  have valueZ := (value_eq_zero_iff _).mpr zeroZ
  cases inf : isInfinity a
  case true => simp [fma, nan, nanT, nanZ, infT, infZ, inf]
  case false =>
    cases zeroA : isZero a
    case true =>
      rw [eq_zero_false_of_isZero zeroA h]
      obtain ⟨_, zero0, _, inf0, nan0⟩ := zero_spec k false
      simp [fma, nan0, nanT, nanZ, infT, infZ, inf0, valueZ, (value_eq_zero_iff _).mpr zero0]
    case false =>
      have hvalue : value a ≠ 0 := abs_pos.mp (abs_value_pos zeroA)
      have rounds := roundingFixesRepresentable k a (isFinite_of_not_nan_inf nan inf) zeroA
      simp [fma, nan, nanT, nanZ, infT, infZ, inf, valueZ, hvalue, rounds]

/-! ## The two reciprocals -/

/-- The correction by the residual `u` is not changed by an operation that keeps NaNs, and that leaves every other
residual of a finite seed, if the residual of an infinite seed is a NaN. -/
theorem fmul_residual_congr (keepsNan : isNan u = true → isNan v = true)
    (ofInfinity : isInfinity t = true → isNan u = true)
    (leaves : isFinite t = true → isNan u = false → v = u) : fmul t v = fmul t u := by
  cases nan : isNan u
  case true => rw [fmul_of_isNan (.inr nan), fmul_of_isNan (.inr (keepsNan nan))]
  case false =>
    rcases class_cases t with ⟨finite, _⟩ | ⟨_, infinite, _⟩ | ⟨_, _, nanT⟩
    · rw [leaves finite nan]
    · exact absurd (nan.symm.trans (ofInfinity infinite)) Bool.false_ne_true
    · rw [fmul_of_isNan (.inl nanT), fmul_of_isNan (.inl nanT)]

/-- The split path: `d.lo *. t` is a zero, taken from the residual. -/
theorem recipD_false_of_zero (d : Word k) : recipD false ⟨d, zero k false⟩ = recipS false d := by
  have correction : fmul (recipSeed d)
        (fsub (splitResidual d (recipSeed d)) (fmul (zero k false) (recipSeed d))) =
      fmul (recipSeed d) (splitResidual d (recipSeed d)) := by
    refine fmul_residual_congr (fun nan => ?_) isNan_splitResidual_of_isInfinity fun finite nan => ?_
    · rw [fsub_of_isNan (.inl nan), isNan_qnan]
    · rw [zero_fmul _ finite, fsub_zero _ nan (splitResidual_ne_zero_true d _)]
  rw [recipD_eq, recipS_eq, if_neg Bool.false_ne_true, if_neg Bool.false_ne_true, correction]

/-- The FMA path: the product of `-0` and the seed is fused into the residual. -/
theorem recipD_true_of_zero (h : isZero d = true ∨ isInfinity (recipSeed d) = false) :
    recipD true ⟨d, zero k false⟩ = recipS true d := by
  have correction : fmul (recipSeed d)
        (fma (fneg (zero k false)) (recipSeed d) (fma (fneg d) (recipSeed d) (one k))) =
      fmul (recipSeed d) (fma (fneg d) (recipSeed d) (one k)) := by
    refine fmul_residual_congr (fun nan => ?_) (fun infinite => ?_) fun finite nan => ?_
    · rw [fma_of_isNan (.inr (.inr nan)), isNan_qnan]
    · exact isNan_fusedResidual_of_isZero (h.resolve_right (by simp [infinite]))
    · rw [fneg_zero, zero_fma _ finite nan (fusedResidual_ne_zero_true d)]
  rw [recipD_eq, recipS_eq, if_pos rfl, if_pos rfl, correction]

/-- Settles O52: on each path the operation with the trailing `+0` changes no residual. -/
theorem recipDOfPlainValueIsRecipS : Obligations.RecipDOfPlainValueIsRecipS := by
  intro k hasFma d h
  cases hasFma
  case false => exact recipD_false_of_zero d
  case true => exact recipD_true_of_zero (h.resolve_left Bool.true_eq_false.mp)

end Sys2Proof.Machine
end

section
/-! PROOF. The fast two-sum (44_checked_addition.md R225, R232 (a)). With `|b| ≤ |a|` a finite word has the value
`a - r`, so that of the three operations only the first one rounds. -/

namespace Sys2Proof.Machine

variable {k : Kind} {a b r : Word k}

/-- The smaller magnitude has no greater unit. -/
theorem unitExp_le_of_abs_value_le (h : |value b| ≤ |value a|) : unitExp b ≤ unitExp a := by
  by_contra! hlt
  have hnormal := le_significand_of_lt_unitExp (lt_of_le_of_lt (unitMin_le_unitExp a) hlt)
  refine h.not_gt ?_
  rw [abs_value a, abs_value b]
  calc (significand a : ℚ) * 2 ^ unitExp a
    _ < ((2 ^ (prec k - 1) : ℕ) : ℚ) * 2 ^ unitExp b := mul_zpow_lt_of_lt (significand_lt a) hlt
    _ ≤ (significand b : ℚ) * 2 ^ unitExp b := by gcongr

/-- Twice a finite word is a number of the format where the next unit is one. -/
theorem representable_two_mul (hmax : unitExp a < unitMax k) : Representable k (2 * value a) := by
  have mem : 2 * value a ∈ grid (unitExp a + 1) := by
    obtain ⟨N, hN⟩ := mem_grid_iff.mp (value_mem_grid a)
    rw [← hN, ← mul_assoc]
    exact_mod_cast mem_grid_succ_of_even (even_two_mul N) (unitExp a)
  refine representable_of_mem_grid_succ (unitMin_le_unitExp a) hmax mem (abs_value_lt a) ?_
  rw [abs_mul, abs_two]

/-- With `|b| ≤ |a|` the sum is between 0 and `2 * a`; where these are words, so is the rounded sum. -/
theorem abs_sub_rounded_le (hr : IsRounded (value a + value b) r) (ordered : |value b| ≤ |value a|)
    (double : Representable k (2 * value a)) : |value a - value r| ≤ |value a| := by
  obtain ⟨z, _, hz⟩ := representable_zero k
  obtain ⟨d, _, hd⟩ := double
  obtain ⟨zeroLow, zeroHigh⟩ := abs_le.mp (hr.nearest z)
  obtain ⟨doubleLow, doubleHigh⟩ := abs_le.mp (hr.nearest d)
  rw [hz, zero_sub, abs_neg] at zeroLow zeroHigh
  rw [hd] at doubleLow doubleHigh
  rcases le_total 0 (value a) with pos | neg
  · rw [abs_of_nonneg pos] at ordered ⊢
    obtain ⟨lowB, highB⟩ := abs_le.mp ordered
    have sum : |value a + value b| = value a + value b := abs_of_nonneg (by linarith)
    have rest : |2 * value a - (value a + value b)| = 2 * value a - (value a + value b) :=
      abs_of_nonneg (by linarith)
    exact abs_le.mpr ⟨by linarith, by linarith⟩
  · rw [abs_of_nonpos neg] at ordered ⊢
    obtain ⟨lowB, highB⟩ := abs_le.mp ordered
    have sum : |value a + value b| = -(value a + value b) := abs_of_nonpos (by linarith)
    have rest : |2 * value a - (value a + value b)| = -(2 * value a - (value a + value b)) :=
      abs_of_nonpos (by linarith)
    exact abs_le.mpr ⟨by linarith, by linarith⟩

/-- A finite word has the value `a - r`. If `r` is not exact, `r` is a multiple of the unit above that of `b`: so is `a`
where its unit is greater, and then `a - r` is at most `2 * |b|`; where the units are the same it is at most `|a|`. -/
theorem representable_operand_sub_sum (finiteB : isFinite b = true) (hr : IsRounded (value a + value b) r)
    (ordered : |value b| ≤ |value a|) : Representable k (value a - value r) := by
  have hu := unitExp_le_of_abs_value_le ordered
  have memA : value a ∈ grid (unitExp b) := grid_le_grid hu (value_mem_grid a)
  rcases hr.coarser _ (add_mem memA (value_mem_grid b)) with hexact | ⟨hmax, coarseR⟩
  · rw [hexact, sub_add_cancel_left]
    exact Representable.neg ⟨b, finiteB, rfl⟩
  · rcases hu.lt_or_eq with hlt | same
    · have coarseA : value a ∈ grid (unitExp b + 1) := grid_le_grid hlt (value_mem_grid a)
      refine representable_of_mem_grid_succ (unitMin_le_unitExp b) hmax (sub_mem coarseA coarseR) (abs_value_lt b) ?_
      calc |value a - value r| = |(value r - (value a + value b)) + value b| := by rw [abs_sub_comm]; congr 1; ring
        _ ≤ |value r - (value a + value b)| + |value b| := abs_add_le _ _
        _ ≤ 2 * |value b| := by linarith [(abs_error_le hr).2]
    · rw [same] at hmax coarseR
      have memR : value r ∈ grid (unitExp a) := grid_le_grid (by omega) coarseR
      exact representable_of_mem_grid (unitMin_le_unitExp a) hmax.le (sub_mem (value_mem_grid a) memR)
        ((abs_sub_rounded_le hr ordered (representable_two_mul hmax)).trans_lt (abs_value_lt a))

/-- The three operations (R225). -/
theorem fastTwoSum_eq (a b : Word k) : fastTwoSum a b = ⟨fadd a b, fadd (fsub a (fadd a b)) b⟩ := rfl

/-- Settles O48: `a -. r` is exact, and adding `b` to it gives the error of `r`, which a finite word has. -/
theorem fastTwoSumIsExact : Obligations.FastTwoSumIsExact := by
  intro k a b finiteA finiteB ordered finiteR
  have hr := isRounded_fadd finiteA finiteB finiteR
  rw [fastTwoSum_eq]
  obtain ⟨finiteD, valueD⟩ := fsub_of_representable finiteA finiteR (representable_operand_sub_sum finiteB hr ordered)
  have error : value (fsub a (fadd a b)) + value b = -(value (fadd a b) - (value a + value b)) := by
    rw [valueD]
    ring
  obtain ⟨finiteE, valueE⟩ :=
    fadd_of_representable finiteD finiteB (error ▸ (representable_error finiteA finiteB hr).neg)
  refine ⟨finiteE, ?_⟩
  rw [valueE, error]
  ring

end Sys2Proof.Machine
end

section
/-! PROOF. The order check (44_checked_addition.md R222): the classifier and the comparisons of `order_ok`, in values. -/

namespace Sys2Proof.Machine

variable {k : Kind} {a b : Word k}

theorem isFinite_fabs (a : Word k) : isFinite (fabs a) = isFinite a := by
  obtain ⟨_, he, _⟩ := fields_fabs a
  rw [isFinite, isFinite, he]

/-- An infinity without its sign is `INF_F` (R240). -/
theorem fabs_of_isInfinity (infinite : isInfinity a = true) : fabs a = infinity k false := by
  obtain ⟨hs, he, ht⟩ := fields_fabs a
  have infiniteAbs : isInfinity (fabs a) = true := by rwa [isInfinity, he, ht]
  rw [eq_infinity_of_isInfinity infiniteAbs, hs]

theorem isinfF_of_isFinite (finite : isFinite a = true) : isinfF a = false := by
  obtain ⟨_, _, infinite, _⟩ := infinity_spec k false
  rw [isinfF, beq_eq_false_iff_ne]
  intro same
  rw [← isFinite_fabs, same, infinite] at finite
  exact Bool.false_ne_true finite

/-- A word is not finite when it is an infinity (R240) or unequal to itself (R241, R242). -/
theorem nonfinite_eq (a : Word k) : nonfinite a = !isFinite a := by
  rcases class_cases a with ⟨finite, _, noNan⟩ | ⟨notFinite, infinite, _⟩ | ⟨notFinite, _, nan⟩
  · have equal : feq a a = true := by simp [feq, fle_self noNan]
    simp [nonfinite, isnanF, equal, isinfF_of_isFinite finite, finite]
  · simp [nonfinite, isinfF, fabs_of_isInfinity infinite, notFinite]
  · simp [nonfinite, isnanF, (feq_self_eq_false_iff a).mpr nan, notFinite]

/-- Magnitudes of finite words compare as those of the values (R111). -/
theorem fle_fabs (finiteA : isFinite a = true) (finiteB : isFinite b = true) :
    fle (fabs a) (fabs b) = decide (|value a| ≤ |value b|) := by
  rw [fle_of_isFinite (by rwa [isFinite_fabs]) (by rwa [isFinite_fabs]), value_fabs, value_fabs]

/-- The magnitude of an infinity is within that of no finite word. -/
theorem fle_fabs_of_isInfinity (infinite : isInfinity a = true) (finite : isFinite b = true) :
    fle (fabs a) (fabs b) = false := by
  obtain ⟨nan, inf⟩ := not_nan_inf_of_isFinite ((isFinite_fabs b).trans finite)
  rw [fabs_of_isInfinity infinite, fle_infinity_left false nan, inf]
  rfl

/-- `order_ok` by its disjuncts (R222). -/
theorem orderOk_iff (a b : Word k) : orderOk a b = true ↔
    isFinite a = false ∨ isFinite b = false ∨ |value b| ≤ |value a| ∨ sumCollapses k a b = true := by
  cases finiteA : isFinite a
  case false => simp [orderOk, nonfinite_eq, finiteA]
  case true =>
    cases finiteB : isFinite b
    case false => simp [orderOk, nonfinite_eq, finiteB]
    case true => simp [orderOk, nonfinite_eq, finiteA, finiteB, fge, fle_fabs finiteB finiteA]

/-- The third disjunct, of `f64` only: the rounded sum does not overflow and is within both magnitudes (R222). -/
theorem sumCollapses_f64_iff {a b : Word .f64} (finiteA : isFinite a = true) (finiteB : isFinite b = true) :
    sumCollapses .f64 a b = true ↔
      isFinite (fadd a b) = true ∧ |value (fadd a b)| ≤ |value a| ∧ |value (fadd a b)| ≤ |value b| := by
  cases finite : isFinite (fadd a b)
  case false =>
    obtain ⟨infinite, _⟩ := overflow_of_fadd finiteA finiteB finite
    simp [sumCollapses, fle_fabs_of_isInfinity infinite finiteA]
  case true => simp [sumCollapses, fle_fabs finite finiteA, fle_fabs finite finiteB]

/-- Settles O54: the disjuncts of `order_ok`, the third of which no `f32` word meets. -/
theorem orderPredicateMeaning : Obligations.OrderPredicateMeaning := by
  refine ⟨fun a b => ?_, fun a b => ?_⟩
  · simp [orderOk_iff, sumCollapses]
  · rw [orderOk_iff]
    cases finiteA : isFinite a
    case false => simp
    case true =>
      cases finiteB : isFinite b
      case false => simp
      case true => rw [sumCollapses_f64_iff finiteA finiteB]

end Sys2Proof.Machine
end

section
/-! PROOF. The checked commands (44_checked_addition.md R221 to R231): when the check of one fails, and the words it
leaves when the check does not. -/

namespace Sys2Proof.Machine

/-- The check does not fail where the build has none, on several lanes, or on ordered words (R223, R224). -/
theorem completeChecked_of_not_violated {sh : Shape} {a b : Word sh.kind} {s : State}
    (passes : s.build.checkOrder = false ∨ sh.lanes ≠ .x1 ∨ orderOk a b = true) (f : Nat → Doubled sh.kind) :
    completeChecked sh a b f s = completeDoubled sh f s := by
  rcases completeChecked_cases sh a b f s with ⟨violated, scalar, checks, _⟩ | ⟨_, completed⟩
  · simp [violated, scalar, checks] at passes
  · exact completed

/-! ## The fault -/

/-- Only the order check raises OrderViolation: a completed command has answered with a result, or its shape was refused
with the other fault. -/
theorem completeDoubled_ne_faultedWith (sh : Shape) (f : Nat → Doubled sh.kind) (s : State) :
    completeDoubled sh f s ≠ faultedWith s .orderViolation 2#2 := by
  intro h
  have delivered := congrArg State.responses h
  rcases complete_cases sh (doubledResponse sh f) s with ⟨legal, _⟩ | ⟨_, refused⟩
  · rw [completeDoubled_legal legal] at delivered
    simp [faultedWith, doubledResponse] at delivered
  · rw [completeDoubled, refused] at delivered
    simp [faultedWith] at delivered

/-- A checked command raises OrderViolation exactly when the check runs and fails (R221, R223). -/
theorem completeChecked_eq_faultedWith_iff (sh : Shape) (a b : Word sh.kind) (f : Nat → Doubled sh.kind) (s : State) :
    Host.Outcome.next (completeChecked sh a b f s) =
        (.next (faultedWith s .orderViolation 2#2) : Host.Outcome State Fault Refusal) ↔
      s.build.checkOrder = true ∧ sh.lanes = .x1 ∧ orderOk a b = false := by
  rw [Host.Outcome.next.injEq]
  rcases completeChecked_cases sh a b f s with ⟨violated, scalar, checks, raised⟩ | ⟨passes, completed⟩
  · exact iff_of_true raised ⟨checks, scalar, violated⟩
  · rw [completed]
    refine iff_of_false (completeDoubled_ne_faultedWith sh f s) fun ⟨checks, scalar, violated⟩ => ?_
    simp [violated, scalar, checks] at passes

/-- Settles O21: the six meanings are checked completions, each on its own compared words (R221). -/
theorem orderViolationExactly : Obligations.OrderViolationExactly := by
  intro sh s c inFlight i checked
  rw [← current_of_inFlight inFlight]
  simp only [List.mem_cons, List.not_mem_nil, or_false] at checked
  rcases checked with rfl | rfl | rfl | rfl | rfl | rfl
  case inl | inr.inl | inr.inr.inl | inr.inr.inr.inl =>
    rw [if_neg (by simp)]
    exact completeChecked_eq_faultedWith_iff ..
  case inr.inr.inr.inr.inl | inr.inr.inr.inr.inr =>
    rw [if_pos (by simp)]
    exact completeChecked_eq_faultedWith_iff ..

/-! ## The results -/

/-- A checked command whose check does not fail completes with results that are the same lane by lane. -/
theorem completesDoubled_of_exec_checked {i : Instr} {s : State} {sh : Shape} {a b : Word sh.kind}
    {f g : ℕ → Doubled sh.kind} (legal : sh.legal = true)
    (passes : s.build.checkOrder = false ∨ sh.lanes ≠ .x1 ∨ orderOk a b = true)
    (h : exec i s = .next (completeChecked sh a b f s)) (same : ∀ j, f j = g j) : CompletesDoubled i s sh g :=
  completesDoubled_of_exec legal (h.trans (congrArg _ (completeChecked_of_not_violated passes f))) same

/-- Settles O33: the fast two-sum of the leading words, the trailing ones added to its error term in order (R226 to
R229). -/
theorem addcComplete : Obligations.AddcComplete := by
  intro sh s c legal inFlight passes
  rw [← current_of_inFlight inFlight] at passes ⊢
  exact ⟨completesDoubled_of_exec_checked legal passes rfl fun _ => rfl,
    completesDoubled_of_exec_checked legal passes rfl fun _ => rfl,
    completesDoubled_of_exec_checked legal passes rfl fun _ => rfl,
    completesDoubled_of_exec_checked legal passes rfl fun _ => rfl⟩

/-- Adding the negation is the difference of all words: with a NaN both are the canonical one (R105). -/
theorem fadd_fneg {k : Kind} (a b : Word k) : fadd a (fneg b) = fsub a b := by
  by_cases h : isNan a = true ∨ isNan b = true
  · rw [fsub_of_isNan h, fadd_of_isNan (by rwa [isNan_fneg])]
  · rw [not_or, Bool.not_eq_true, Bool.not_eq_true] at h
    obtain ⟨nanA, nanB⟩ := h
    rw [fsub_eq_fadd nanA nanB]

/-- `ADDC.DS` of a negated word, written with subtractions (R230). -/
theorem addcDS_fneg {k : Kind} (x : Doubled k) (b : Word k) :
    addcDS x (fneg b) = ⟨fsub x.hi b, fadd (fsub (fsub x.hi (fsub x.hi b)) b) x.lo⟩ := by
  simp only [addcDS, fadd_fneg]

/-- `ADDC.DD` of a negated value, written with subtractions (R231). -/
theorem addcDD_negDoubled_eq {k : Kind} (x y : Doubled k) :
    addcDD x (negDoubled y) =
      ⟨fsub x.hi y.hi, fsub (fadd (fsub (fsub x.hi (fsub x.hi y.hi)) y.hi) x.lo) y.lo⟩ := by
  simp only [addcDD, negDoubled, fadd_fneg]

/-- Settles O34: the checked additions of the negated second operand, written out (R230, R231). -/
theorem subcComplete : Obligations.SubcComplete := by
  intro sh s c legal inFlight passes
  rw [← current_of_inFlight inFlight] at passes ⊢
  exact ⟨completesDoubled_of_exec_checked legal passes rfl fun _ => addcDS_fneg _ _,
    completesDoubled_of_exec_checked legal passes rfl fun _ => addcDD_negDoubled_eq _ _⟩

end Sys2Proof.Machine
end

section
/-! PROOF. The classifiers (45_classify.md R240 to R242): each compares the word without its sign bit, as an unsigned
integer, with the word of `+infinity`, and its command fills every lane with the answer. -/

namespace Sys2Proof.Machine

variable {k : Kind}

/-! ## The word without its sign bit -/

/-- Without its sign bit a word is its two other fields (R100, R110). -/
theorem toNat_fabs_eq_fields (a : Word k) : (fabs a).toNat = biasedExp a * 2 ^ (prec k - 1) + trailing a := by
  obtain ⟨hs, he, ht⟩ := fields_fabs a
  rw [toNat_eq_fields (fabs a), hs, he, ht, if_neg Bool.false_ne_true, Nat.zero_add]

/-- `fabs` takes away the sign bit and no other (R110). -/
theorem toNat_fabs (a : Word k) : (fabs a).toNat = a.toNat % 2 ^ (k.width - 1) := by
  have below : (fabs a).toNat < 2 ^ (k.width - 1) := by
    simpa [(fields_fabs a).1] using (fields_toNat (fabs a)).1
  rw [toNat_eq_fields a, Nat.add_assoc, ← toNat_fabs_eq_fields]
  cases signBit a <;> simp [Nat.mod_eq_of_lt below]

/-- The word of `+infinity` as an unsigned integer (R100, R240). -/
def infinityBits : Kind → Nat
  | .f32 => 0x7F800000
  | .f64 => 0x7FF0000000000000

theorem toNat_infinity (k : Kind) : (infinity k false).toNat = infinityBits k := by cases k <;> decide

/-- The exponent field of `INF_F` is all ones, its significand field zero. -/
theorem infinityBits_eq (k : Kind) : infinityBits k = expOnes k * 2 ^ (prec k - 1) := by cases k <;> decide

/-! ## The classifiers -/

/-- `isinf_F` is equality with the word of infinity (R240). -/
theorem isinfF_iff (a : Word k) : isinfF a = true ↔ a.toNat % 2 ^ (k.width - 1) = infinityBits k := by
  rw [isinfF, beq_iff_eq, ← BitVec.toNat_inj, toNat_fabs, toNat_infinity]

/-- The NaNs are the words above that of infinity: with a lesser exponent field a word is below it, whatever its
significand field (R100). -/
theorem isNan_iff_gt (a : Word k) : isNan a = true ↔ a.toNat % 2 ^ (k.width - 1) > infinityBits k := by
  rw [← toNat_fabs, toNat_fabs_eq_fields, infinityBits_eq]
  by_cases ones : biasedExp a = expOnes k
  · simp [isNan, ones, Nat.pos_iff_ne_zero]
  · have less : biasedExp a < expOnes k := lt_of_le_of_ne (Nat.le_sub_one_of_lt (biasedExp_lt a)) ones
    have below : (biasedExp a + 1) * 2 ^ (prec k - 1) ≤ expOnes k * 2 ^ (prec k - 1) := Nat.mul_le_mul_right _ less
    have bound := trailing_lt a
    rw [Nat.add_one_mul] at below
    exact iff_of_false (by simp [isNan, ones]) (by omega)

/-- `isnan_F`, self-inequality, holds of the NaNs (R241). -/
theorem isnanF_iff (a : Word k) : isnanF a = true ↔ a.toNat % 2 ^ (k.width - 1) > infinityBits k := by
  rw [isnanF, Bool.not_eq_true', feq_self_eq_false_iff, isNan_iff_gt]

/-- `nonfinite_F` joins the two (R242). -/
theorem nonfinite_iff (a : Word k) : nonfinite a = true ↔ a.toNat % 2 ^ (k.width - 1) ≥ infinityBits k := by
  rw [nonfinite, Bool.or_eq_true, isinfF_iff, isnanF_iff]
  omega

/-! ## The commands -/

/-- A command that answers with the masks of `p` completes with those of any proposition that `p` decides (R25, R250). -/
theorem completesPlain_of_exec_mask {i : Instr} {s : State} {sh : Shape} {p : ℕ → Bool} {q : ℕ → Prop} [DecidablePred q]
    (legal : sh.legal = true) (h : exec i s = .next (completeMask sh p s)) (meaning : ∀ j, p j = true ↔ q j) :
    CompletesPlain i s sh (fun j => if q j then BitVec.allOnes sh.kind.width else 0#sh.kind.width) := by
  have masks : (fun j => maskWord sh.kind (p j)) =
      fun j => if q j then BitVec.allOnes sh.kind.width else 0#sh.kind.width :=
    funext fun j => by simp only [maskWord, meaning]
  exact masks ▸ completesPlain_of_exec legal h

/-- Settles O29: the mask of each command is that of its classifier. -/
theorem classifyComplete : Obligations.ClassifyComplete := by
  intro sh s c legal inFlight
  rw [← current_of_inFlight inFlight]
  exact ⟨completesPlain_of_exec_mask legal rfl fun _ => isinfF_iff _,
    completesPlain_of_exec_mask legal rfl fun _ => isnanF_iff _,
    completesPlain_of_exec_mask legal rfl fun _ => nonfinite_iff _⟩

end Sys2Proof.Machine
end

section
/-! PROOF. Lanes and the two build parameters (46_lanes_and_fma.md R251, R255 to R257, R259; 44_checked_addition.md
R223): a command of several lanes never faults, each parameter matters to the commands whose rule reads it and to no
other, and every lane is a scalar command of its own. -/

namespace Sys2Proof.Machine

/-! ## Commands of several lanes -/

/-- Settles O20: the shape is legal, and the order check runs on scalar commands only. -/
theorem vectorCommandsNeverFault : Obligations.VectorCommandsNeverFault := by
  intro i s wellFormed vector
  rcases exec_cases i s with ⟨rHi, rLo, _, answered⟩ | ⟨illFormed, _⟩ | ⟨_, scalar, _, _⟩
  · exact ⟨rHi, rLo, answered⟩
  · exact absurd (illFormed.symm.trans wellFormed) Bool.false_ne_true
  · exact absurd scalar vector

/-! ## The build parameters -/

section BuildParameters

variable {sh : Shape} {s : State} {bld : Build}

theorem respond_with_build (r : Response) (s : State) (bld : Build) :
    respond r { s with build := bld } = { respond r s with build := bld } := by
  cases r <;> rfl

/-- Of the build, completing a checked command reads `CHECK_ORDER`, and that for a scalar command only (R223). -/
theorem sameResponse_completeChecked_with_build (check : sh.lanes = .x1 → bld.checkOrder = s.build.checkOrder)
    (a b : Word sh.kind) (f : Nat → Doubled sh.kind) :
    SameResponse s { s with build := bld } (.next (completeChecked sh a b f s))
      (.next (completeChecked sh a b f { s with build := bld })) := by
  have runs : checkRuns sh { s with build := bld } = checkRuns sh s := by
    by_cases scalar : sh.lanes = .x1
    · simp [checkRuns, check scalar]
    · simp [checkRuns, beq_false_of_ne scalar]
  unfold completeChecked
  rw [runs]
  split
  · exact ⟨.fault .orderViolation, rfl, rfl⟩
  · exact sameResponse_completeDoubled fun _ _ => rfl

/-- A command responds alike on two builds that agree in the parameters it reads: `HAS_FMA` if its rule has two paths
(R255), `CHECK_ORDER` if it is checked and scalar (R223). -/
theorem sameResponse_exec_with_build {i : Instr} (fma : i.usesFma = true → bld.hasFma = s.build.hasFma)
    (check : i.isChecked = true → i.shape.lanes = .x1 → bld.checkOrder = s.build.checkOrder) :
    SameResponse s { s with build := bld } (exec i s) (exec i { s with build := bld }) := by
  cases i with
  | upper | narrow => exact sameResponse_completePlain fun _ _ => rfl
  | isinf | isnan | isnfin => exact sameResponse_completeMask fun _ _ => rfl
  | widen | pack | neg | abs | norm | scale | addSS | addDS | addSD | addDD | subDS | subDD =>
    exact sameResponse_completeDoubled fun _ _ => rfl
  | addcSS | addcDS | addcSD | addcDD | subcDS | subcDD =>
    exact sameResponse_completeChecked_with_build (check rfl) _ _ _
  | mulfDD | squfD => exact sameResponse_completePlain fun _ _ => by rw [fma rfl]; rfl
  | mulSS | mulDS | mulDD | squD | recipS | recipD | divDD | sqrtD =>
    exact sameResponse_completeDoubled fun _ _ => by rw [fma rfl]; rfl

/-- The same of the next state: on such a build it is the same but for the build. -/
theorem exec_with_build {i : Instr} {t : State} (fma : i.usesFma = true → bld.hasFma = s.build.hasFma)
    (check : i.isChecked = true → i.shape.lanes = .x1 → bld.checkOrder = s.build.checkOrder)
    (h : exec i s = .next t) : exec i { s with build := bld } = .next { t with build := bld } := by
  obtain ⟨r, here, there⟩ := sameResponse_exec_with_build fma check
  cases here.symm.trans h
  rw [there, respond_with_build]

end BuildParameters

/-- Settles O22: a command without a path of its own for `HAS_FMA` does not read it. -/
theorem fmaParameterUnused : Obligations.FmaParameterUnused := by
  intro i s t b unused h
  exact exec_with_build (fun used => absurd (unused.symm.trans used) Bool.false_ne_true) (fun _ _ => rfl) h

/-- Settles O23: a command that is unchecked or has several lanes does not read `CHECK_ORDER`. -/
theorem checkOrderParameterUnused : Obligations.CheckOrderParameterUnused := by
  intro i s t b unused h
  refine exec_with_build (fun _ => rfl) (fun checked scalar => ?_) h
  simp [checked, scalar] at unused

/-! ## A lane and the scalar command on its operands -/

/-- A word at the bottom of a port is lane 0 of it (R250). -/
theorem lane_setWidth_zero {k : Kind} (w : Word k) : lane k (w.setWidth vlen) 0 = w := by
  apply BitVec.eq_of_getLsbD_eq
  intro b hb
  have within : b < vlen := by cases k <;> exact hb.trans (by decide)
  rw [getLsbD_lane, BitVec.getLsbD_setWidth, Nat.mul_zero, Nat.zero_add]
  simp [hb, within]

theorem lane_zero (k : Kind) (j : Nat) : lane k 0 j = 0 := BitVec.extractLsb'_zero

/-- The engine that the operands of lane `j` of `c` are given to: the one of `s`, without the order check. -/
def laneState (k : Kind) (s : State) (c : Command) (j : Nat) : State :=
  { s with inFlight := some (laneOperands k c j), build := ⟨s.build.hasFma, false⟩ }

@[simp] theorem laneState_hasFma (k : Kind) (s : State) (c : Command) (j : Nat) :
    (laneState k s c j).build.hasFma = s.build.hasFma := rfl

section LaneOperands

variable {s : State} {c : Command} (inFlight : s.inFlight = some c) (k : Kind) (j : Nat)
include inFlight

theorem plainA_laneState : plainA k (laneState k s c j) 0 = plainA k s j := by
  rw [plainA, plainA, current_of_inFlight inFlight]
  exact lane_setWidth_zero _

theorem plainB_laneState : plainB k (laneState k s c j) 0 = plainB k s j := by
  rw [plainB, plainB, current_of_inFlight inFlight]
  exact lane_setWidth_zero _

theorem doubledA_laneState : doubledA k (laneState k s c j) 0 = doubledA k s j := by
  rw [doubledA, doubledA, current_of_inFlight inFlight]
  exact congrArg₂ Doubled.mk (lane_setWidth_zero _) (lane_setWidth_zero _)

theorem doubledB_laneState : doubledB k (laneState k s c j) 0 = doubledB k s j := by
  rw [doubledB, doubledB, current_of_inFlight inFlight]
  exact congrArg₂ Doubled.mk (lane_setWidth_zero _) (lane_setWidth_zero _)

end LaneOperands

/-- If `vector` answers OK in `s`, then `scalar` does in `s'`, and lane 0 of its result ports is lane `j` of those of
`vector`. -/
def LaneMatches (k : Kind) (j : Nat) (s s' : State) (vector scalar : Host.Outcome State Fault Refusal) : Prop :=
  ∀ rHi rLo, vector = .next (answeredWith s (.ok rHi rLo)) →
    ∃ qHi qLo, scalar = .next (answeredWith s' (.ok qHi qLo)) ∧
      lane k rHi j = lane k qHi 0 ∧ lane k rLo j = lane k qLo 0

/-- The response delivered is the one that the command got. -/
theorem eq_of_respond_eq_answeredWith {r r' : Response} {s : State} (h : respond r s = answeredWith s r') :
    r = r' := by
  simpa [answeredWith] using congrArg State.responses h

section LaneMatching

variable {sh : Shape} {j : Nat} {s s' : State}

theorem laneMatches_of_fault (f : Fault) (scalar : Host.Outcome State Fault Refusal) :
    LaneMatches sh.kind j s s' (.next (raise f s)) scalar := by
  intro rHi rLo h
  exact nomatch eq_of_respond_eq_answeredWith (r := .fault f) (Host.Outcome.next.inj h)

/-- A completed command matches in lane `j` when its ports do; a scalar shape is legal (R252). -/
theorem laneMatches_complete {pHi pLo qHi qLo : Port}
    (lanes : sh.legal = true → lane sh.kind pHi j = lane sh.kind qHi 0 ∧ lane sh.kind pLo j = lane sh.kind qLo 0) :
    LaneMatches sh.kind j s s' (.next (complete sh (.ok pHi pLo) s))
      (.next (complete ⟨sh.kind, .x1⟩ (.ok qHi qLo) s')) := by
  rcases complete_cases sh (.ok pHi pLo) s with ⟨legal, answered⟩ | ⟨_, refused⟩
  · rw [answered, complete_legal (legal_of_x1 rfl)]
    intro rHi rLo h
    cases eq_of_respond_eq_answeredWith (r := .ok pHi pLo) (Host.Outcome.next.inj h)
    exact ⟨qHi, qLo, rfl, lanes legal⟩
  · rw [refused]
    exact laneMatches_of_fault _ _

/-- Lane `j` of a legal shape and lane 0 of the scalar one hold the same word if the rules agree there (R250). -/
theorem lane_packLanes_eq_scalar (hj : j < sh.lanes.count) (legal : sh.legal = true) {f g : Nat → Word sh.kind}
    (same : g 0 = f j) :
    lane sh.kind (packLanes sh.kind sh.lanes.count f) j = lane sh.kind (packLanes sh.kind Lanes.x1.count g) 0 := by
  have fits : sh.kind.width * Lanes.x1.count ≤ vlen := lanes_fit (sh := ⟨sh.kind, .x1⟩) (legal_of_x1 rfl)
  rw [lane_packLanes _ _ _ hj (lanes_fit legal), lane_packLanes _ _ _ (by decide) fits, same]

theorem laneMatches_completePlain (hj : j < sh.lanes.count) {f g : Nat → Word sh.kind} (same : g 0 = f j) :
    LaneMatches sh.kind j s s' (.next (completePlain sh f s)) (.next (completePlain ⟨sh.kind, .x1⟩ g s')) :=
  laneMatches_complete fun legal =>
    ⟨lane_packLanes_eq_scalar hj legal same, (lane_zero _ _).trans (lane_zero _ _).symm⟩

theorem laneMatches_completeMask (hj : j < sh.lanes.count) {p q : Nat → Bool} (same : q 0 = p j) :
    LaneMatches sh.kind j s s' (.next (completeMask sh p s)) (.next (completeMask ⟨sh.kind, .x1⟩ q s')) :=
  laneMatches_completePlain hj (congrArg (maskWord sh.kind) same)

theorem laneMatches_completeDoubled (hj : j < sh.lanes.count) {f g : Nat → Doubled sh.kind} (same : g 0 = f j) :
    LaneMatches sh.kind j s s' (.next (completeDoubled sh f s)) (.next (completeDoubled ⟨sh.kind, .x1⟩ g s')) :=
  laneMatches_complete fun legal =>
    ⟨lane_packLanes_eq_scalar hj legal (congrArg Doubled.hi same),
      lane_packLanes_eq_scalar hj legal (congrArg Doubled.lo same)⟩

/-- A checked command that answers OK has passed its check or had none; the scalar one has none here (R223). -/
theorem laneMatches_completeChecked (hj : j < sh.lanes.count) (noCheck : s'.build.checkOrder = false)
    {a b a' b' : Word sh.kind} {f g : Nat → Doubled sh.kind} (same : g 0 = f j) :
    LaneMatches sh.kind j s s' (.next (completeChecked sh a b f s))
      (.next (completeChecked ⟨sh.kind, .x1⟩ a' b' g s')) := by
  rw [completeChecked_of_not_violated (sh := ⟨sh.kind, .x1⟩) (.inl noCheck)]
  rcases completeChecked_cases sh a b f s with ⟨_, _, _, violated⟩ | ⟨_, completed⟩
  · rw [violated]
    exact laneMatches_of_fault _ _
  · rw [completed]
    exact laneMatches_completeDoubled hj same

end LaneMatching

/-- Lane `j` of a command matches the scalar command on the operands of that lane (R251, R256). The cases are the
operand formats, each divided by the result class and by whether the command is checked. -/
theorem laneMatches_exec {i : Instr} {s : State} {c : Command} {j : Nat} (inFlight : s.inFlight = some c)
    (hj : j < i.shape.lanes.count) :
    LaneMatches i.shape.kind j s (laneState i.shape.kind s c j) (exec i s)
      (exec (scalarOf i) (laneState i.shape.kind s c j)) := by
  have a := plainA_laneState inFlight
  have b := plainB_laneState inFlight
  have x := doubledA_laneState inFlight
  have y := doubledB_laneState inFlight
  cases i with
  | upper => exact laneMatches_completePlain hj (by simp only [Instr.shape, a])
  | isinf | isnan | isnfin => exact laneMatches_completeMask hj (by simp only [Instr.shape, a])
  | widen | recipS => exact laneMatches_completeDoubled hj (by simp only [Instr.shape, a, laneState_hasFma])
  | narrow | squfD => exact laneMatches_completePlain hj (by simp only [Instr.shape, x, laneState_hasFma])
  | neg | abs | norm | squD | recipD | sqrtD =>
    exact laneMatches_completeDoubled hj (by simp only [Instr.shape, x, laneState_hasFma])
  | pack | addSS | mulSS => exact laneMatches_completeDoubled hj (by simp only [Instr.shape, a, b, laneState_hasFma])
  | addcSS => exact laneMatches_completeChecked hj rfl (by simp only [Instr.shape, a, b])
  | scale | addDS | subDS | mulDS =>
    exact laneMatches_completeDoubled hj (by simp only [Instr.shape, x, b, laneState_hasFma])
  | addcDS | subcDS => exact laneMatches_completeChecked hj rfl (by simp only [Instr.shape, x, b])
  | addSD => exact laneMatches_completeDoubled hj (by simp only [Instr.shape, a, y])
  | addcSD => exact laneMatches_completeChecked hj rfl (by simp only [Instr.shape, a, y])
  | mulfDD => exact laneMatches_completePlain hj (by simp only [Instr.shape, x, y, laneState_hasFma])
  | addDD | subDD | mulDD | divDD =>
    exact laneMatches_completeDoubled hj (by simp only [Instr.shape, x, y, laneState_hasFma])
  | addcDD | subcDD => exact laneMatches_completeChecked hj rfl (by simp only [Instr.shape, x, y])

/-- Settles O19: the result of the scalar command on the operands of lane `j` matches that lane. -/
theorem lanesAreIndependent : Obligations.LanesAreIndependent :=
  fun _ _ _ rHi rLo _ inFlight answered hj => laneMatches_exec inFlight hj rHi rLo answered

end Sys2Proof.Machine
end

section
/-! PROOF. The order of a step and what ends a run: the command that a step executes (60_exceptions.md R275;
10_state.md R23), the halted engine (60_exceptions.md R273, R274) and reset (70_reset_and_hazards.md R300). -/

namespace Sys2Proof.Machine

/-! ## Quiet steps and meanings -/

theorem step_of_fetch_quiet {s t : State} (quiet : fetch s = .quiet t) : step s = .next t := by
  simp [step, quiet]

theorem step_of_fetch_execute {s t : State} {i : Instr} (execute : fetch s = .execute t)
    (legal : decode (current t).cw = .legal i) : step s = exec i t := by
  simp [step, execute, legal]

/-- Settles O7: a quiet step gives the state after the host's event, and every other step that after a response. -/
theorem everyStepGivesANextState : Obligations.EveryStepGivesANextState := by
  intro s
  rcases step_quiet_or_responds s with ⟨t, _, quiet⟩ | ⟨t, r, _, responds⟩
  · exact ⟨t, quiet⟩
  · exact ⟨respond r t, responds⟩

/-! ## The command that a step executes -/

/-- A running engine goes on with the command in flight, and a command presented meanwhile waits (R23). -/
theorem fetch_of_inFlight {s : State} {c : Command} (running : s.halted = false) (inFlight : s.inFlight = some c)
    (host : s.host = [] ∨ ∃ d rest, s.host = .command d :: rest) : fetch s = .execute s := by
  rcases host with idle | ⟨d, rest, waiting⟩
  · simp [fetch, idle, running, inFlight]
  · simp [fetch, waiting, running, inFlight]

/-- Settles O6: the command executed is the one just taken, or else the one that was in flight. -/
theorem stepRunsDecodedCommand : Obligations.StepRunsDecodedCommand := by
  refine ⟨fun s c rest i running free host legal => ?_, fun s c i running inFlight host legal => ?_⟩
  · exact step_of_fetch_execute (fetch_presented running free host) legal
  · rw [← current_of_inFlight inFlight] at legal
    exact step_of_fetch_execute (fetch_of_inFlight running inFlight host) legal

/-! ## Reset -/

/-- Reset leaves nothing of a command just accepted (R300). -/
@[simp] theorem applyReset_accept (c : Command) (s : State) : applyReset (accept c s) = applyReset s := by
  unfold accept
  split <;> rfl

/-- Settles O9: the state is `applyReset` of the one behind the event; a command accepted first leaves no trace. -/
theorem resetEventEffect : Obligations.ResetEventEffect := by
  intro s rest host
  have quiet : fetch s = .quiet (applyReset { s with host := rest }) := by
    rcases host with reset | ⟨c, resetCatching⟩
    · simp [fetch, reset]
    · simp [fetch, resetCatching]
  exact step_of_fetch_quiet quiet

/-! ## The halted engine -/

theorem step_of_halted_idle {s : State} (halted : s.halted = true) (host : s.host = []) : step s = .next s :=
  step_of_fetch_quiet (by simp [fetch, host, halted])

/-- A command presented to a halted engine passes (R274). -/
theorem step_of_halted_presented {s : State} {c : Command} {rest : List HostEvent} (halted : s.halted = true)
    (host : s.host = .command c :: rest) : step s = .next { s with host := rest } :=
  step_of_fetch_quiet (by simp [fetch, host, halted])

/-- Settles O8: by the host's next action; without one, or with a command, the engine stays halted. -/
theorem haltedUntilReset : Obligations.HaltedUntilReset := by
  refine ⟨fun _ => step_of_halted_idle, fun _ _ _ => step_of_halted_presented, fun s t halted h running => ?_⟩
  rcases host : s.host with _ | ⟨c | _ | c, rest⟩
  case nil =>
    cases (step_of_halted_idle halted host).symm.trans h
    exact absurd (running.symm.trans halted) Bool.false_ne_true
  case cons.command =>
    cases (step_of_halted_presented halted host).symm.trans h
    exact absurd (running.symm.trans halted) Bool.false_ne_true
  case cons.reset => exact ⟨rest, .inl rfl⟩
  case cons.resetCatching => exact ⟨rest, .inr ⟨c, rfl⟩⟩

/-! ## A fault in a stream of commands -/

theorem run_add_of_run {M : Host.Core} {t : M.State} (m n : Nat) {s : M.State} (h : M.run m s = .next t) :
    M.run (m + n) s = M.run n t := by
  induction m generalizing s with
  | zero =>
    cases h
    rw [Nat.zero_add]
  | succ m ih =>
    rw [Nat.succ_add]
    cases first : M.step s with
    | next u =>
      rw [run_succ_of_step first] at h ⊢
      exact ih h
    | fault r => simp [Host.Core.run, first] at h
    | refused r => simp [Host.Core.run, first] at h

/-- A halted engine lets a whole stream of commands pass. -/
theorem run_of_halted (cs : List Command) (later : List HostEvent) {s : State} (halted : s.halted = true)
    (host : s.host = cs.map .command ++ later) :
    Sys2Proof.core.run cs.length s = .next { s with host := later } := by
  induction cs generalizing s with
  | nil =>
    have unread : s.host = later := host
    simp [Host.Core.run, ← unread]
  | cons c cs ih =>
    have first := step_of_halted_presented halted host
    calc Sys2Proof.core.run (cs.length + 1) s
      _ = Sys2Proof.core.run cs.length { s with host := cs.map .command ++ later } :=
          run_succ_of_step first cs.length
      _ = .next { s with host := later } := ih halted rfl

/-- A command that faults leaves its fault response and the latch (R273). -/
theorem step_of_responseTo_fault {s : State} {c : Command} {rest : List HostEvent} {f : Fault}
    (running : s.halted = false) (free : s.inFlight = none) (host : s.host = .command c :: rest)
    (response : responseTo s.build c = some (.fault f)) :
    step s = .next { s with
      host := rest, responses := s.responses ++ [.fault f], halted := true, faultCode := faultCodeOf f } := by
  obtain ⟨r, response', e⟩ := oneResponsePerAcceptedCommand s c rest running free host
  obtain rfl : .fault f = r := Option.some.inj (response.symm.trans response')
  exact e

/-- A command that faults, and the commands behind it: its fault response is the last one. -/
theorem run_of_responseTo_fault (after : List Command) (later : List HostEvent) {s : State} {c : Command} {f : Fault}
    (running : s.halted = false) (free : s.inFlight = none)
    (host : s.host = .command c :: (after.map .command ++ later))
    (response : responseTo s.build c = some (.fault f)) :
    Sys2Proof.core.run (after.length + 1) s = .next { s with
      host := later, responses := s.responses ++ [.fault f], halted := true, faultCode := faultCodeOf f } :=
  (run_succ_of_step (step_of_responseTo_fault running free host response) after.length).trans
    (run_of_halted after later rfl rfl)

/-- Settles O16: the earlier commands leave a running engine, the faulting one halts it, and the later ones pass. -/
theorem faultIsPreciseAndFinal : Obligations.FaultIsPreciseAndFinal := by
  intro cs after rs c f later s running free host responses ok response
  have earlier := commandStreamAnsweredInOrder cs rs (.command c :: (after.map .command ++ later)) s
    running free host responses ok
  calc Sys2Proof.core.run (cs.length + 1 + after.length) s
    _ = Sys2Proof.core.run (cs.length + (after.length + 1)) s := by rw [Nat.add_assoc, Nat.add_comm 1]
    _ = Sys2Proof.core.run (after.length + 1) { s with
          host := .command c :: (after.map .command ++ later), responses := s.responses ++ rs } :=
        run_add_of_run _ _ earlier
    _ = .next { s with
          host := later, responses := s.responses ++ rs ++ [.fault f], halted := true
          faultCode := faultCodeOf f } :=
        run_of_responseTo_fault after later running free rfl response

end Sys2Proof.Machine
end
